-- ==== Sys2Proof/Word.lean ====
section
/-! DEFINITION. The word types of the block: widths only. -/

namespace Sys2Proof

/-- A 32-bit word: a register, a descriptor word, a transmission word, a memory word (R6, R29, R92). -/
abbrev Word := BitVec 32

/-- One byte of the framebuffer space (R60). -/
abbrev Byte := BitVec 8

/-- A byte address of the framebuffer space (R60: 32-bit addresses). -/
abbrev Addr := BitVec 32

/-- One symbol of `SYM_BITS = 10` bits (R6). -/
abbrev Sym := BitVec 10

/-- One pixel word of `PIXEL_BITS = 16` bits (R7). -/
abbrev Pixel := BitVec 16

/-- Width of a symbol (R6, D7). -/
abbrev symBits : Nat := 10

/-- Width of a pixel word (R7, D8). -/
abbrev pixelBits : Nat := 16

end Sys2Proof
end

