-- ==== Sys2Proof/Syntax.lean ====
section
/-! DEFINITION. The names the spec gives its lanes, buffers, line categories and bands, the descriptor as a record,
and the one inductive of the sixteen operations of `spec/opcode_table.json` (30_encoding.md R98). -/

namespace Sys2Proof

/-- The three lanes; `lane0` is the sync-carrying one (R9, D6). -/
inductive Lane where
  | lane0
  | lane1
  | lane2
deriving DecidableEq, Repr

/-- The lanes in the order every rule walks them (R160: `for l in 0, 1, 2`). -/
def Lane.all : List Lane := [.lane0, .lane1, .lane2]

/-- The number a lane is written with. -/
def Lane.num : Lane → Nat
  | .lane0 => 0
  | .lane1 => 1
  | .lane2 => 2

/-- `NSEG(l)`: segments per line of a lane (R32). -/
def Lane.nseg : Lane → Nat
  | .lane0 => 4
  | .lane1 => 2
  | .lane2 => 2

/-- `log2(NSEG(l))`: the only `RING` a descriptor of the lane may carry (R93). -/
def Lane.ring : Lane → BitVec 2
  | .lane0 => 2#2
  | .lane1 => 1#2
  | .lane2 => 1#2

/-- One value per lane. -/
structure LaneMap (α : Type) where
  lane0 : α
  lane1 : α
  lane2 : α
deriving DecidableEq, Repr

def LaneMap.get {α : Type} (m : LaneMap α) : Lane → α
  | .lane0 => m.lane0
  | .lane1 => m.lane1
  | .lane2 => m.lane2

def LaneMap.set {α : Type} (m : LaneMap α) (l : Lane) (v : α) : LaneMap α :=
  match l with
  | .lane0 => { m with lane0 := v }
  | .lane1 => { m with lane1 := v }
  | .lane2 => { m with lane2 := v }

def LaneMap.const {α : Type} (v : α) : LaneMap α := ⟨v, v, v⟩

/-- The two buffers of a lane (R23, R31). -/
inductive Buf where
  | buf0
  | buf1
deriving DecidableEq, Repr

/-- `1 - b`. -/
def Buf.other : Buf → Buf
  | .buf0 => .buf1
  | .buf1 => .buf0

def Buf.num : Buf → Nat
  | .buf0 => 0
  | .buf1 => 1

/-- One value per buffer. -/
structure BufMap (α : Type) where
  buf0 : α
  buf1 : α
deriving DecidableEq, Repr

def BufMap.get {α : Type} (m : BufMap α) : Buf → α
  | .buf0 => m.buf0
  | .buf1 => m.buf1

def BufMap.set {α : Type} (m : BufMap α) (b : Buf) (v : α) : BufMap α :=
  match b with
  | .buf0 => { m with buf0 := v }
  | .buf1 => { m with buf1 := v }

/-- Line categories (R94). -/
inductive Cat where
  | vsync
  | blank
  | active0
  | active1
deriving DecidableEq, Repr

/-- `ACTIVE0 + b` (R94): the category that transmits buffer `b`. -/
def Cat.active : Buf → Cat
  | .buf0 => .active0
  | .buf1 => .active1

/-- One value per line category. -/
structure CatMap (α : Type) where
  vsync : α
  blank : α
  active0 : α
  active1 : α
deriving DecidableEq, Repr

def CatMap.get {α : Type} (m : CatMap α) : Cat → α
  | .vsync => m.vsync
  | .blank => m.blank
  | .active0 => m.active0
  | .active1 => m.active1

def CatMap.set {α : Type} (m : CatMap α) (c : Cat) (v : α) : CatMap α :=
  match c with
  | .vsync => { m with vsync := v }
  | .blank => { m with blank := v }
  | .active0 => { m with active0 := v }
  | .active1 => { m with active1 := v }

/-- Bands of a frame (R184). -/
inductive Band where
  | vsync
  | blanking
  | active
deriving DecidableEq, Repr

/-- The `KIND` bit of a descriptor (R92). -/
inductive SegKind where
  | pat
  | buf
deriving DecidableEq, Repr

/-- The fields of one descriptor word (R92); the lane is not among them. -/
structure Descriptor where
  kind : SegKind
  sel : BitVec 3
  count : BitVec 16
  ring : BitVec 2
  irq : Bool
deriving DecidableEq, Repr

/-- The three-bit `SEL` of a line-buffer segment (R92: buffer index 0..1). -/
def Buf.sel : Buf → BitVec 3
  | .buf0 => 0#3
  | .buf1 => 1#3

/-- The sixteen operations (R98), one constructor per row of the opcode table.
`segPat` and `segBuf` name the lane whose descriptor memory the word stands in (R92: the lane is not in the word). -/
inductive Instr where
  /-- `START` (R201). -/
  | start
  /-- `STOP` (R202). -/
  | stop
  /-- `SEG_PAT` (R155). -/
  | segPat (l : Lane) (sel : BitVec 3) (count : BitVec 16) (ring : BitVec 2) (irq : Bool)
  /-- `SEG_BUF` (R156). -/
  | segBuf (l : Lane) (b : Buf) (count : BitVec 16) (ring : BitVec 2) (irq : Bool)
  /-- `CHAIN c` (R162). -/
  | chain (c : Cat)
  /-- `CTRLSYM kind` (R120); the operand has 3 bits, 5..7 are reserved. -/
  | ctrlsym (k : BitVec 3)
  /-- `DATASYM idx` (R122). -/
  | datasym (i : BitVec 6)
  /-- `LANE_EXTRACT l, px` (R131). -/
  | laneExtract (l : Lane) (px : Pixel)
  /-- `INDEX6 l, f` (R132). -/
  | index6 (l : Lane) (f : BitVec 16)
  /-- `PACK2 s0, s1` (R134). -/
  | pack2 (s0 s1 : Sym)
  /-- `ENCODE_LINE y, b` (R136); both operands may be out of range (R139). -/
  | encodeLine (y b : Nat)
  /-- `BUILD_CHAINS` (R151). -/
  | buildChains
  /-- `SEQ_SLOT` (R160). -/
  | seqSlot
  /-- `TICK_ENTER` (R181). -/
  | tickEnter
  /-- `TICK_BODY` (R182). -/
  | tickBody
  /-- `CLASSIFY n` (R184). -/
  | classify (n : Nat)
deriving DecidableEq, Repr

end Sys2Proof
end

