-- ==== Sys2Proof/Config.lean ====
section
/-! DEFINITION. The configuration record `Cfg` (00_scope.md R5 to R10), its constraints, the default tables
(40_symbol_tables.md R121, R124), the test profile P-A of 95_test_vectors.md, and the free values. -/

namespace Sys2Proof

/-- One implementation's parameters (R5 to R9). -/
structure Cfg where
  vSync : Nat
  vBack : Nat
  vActive : Nat
  vFront : Nat
  hFront : Nat
  hSync : Nat
  hBack : Nat
  hActive : Nat
  fieldLsb : LaneMap Nat
  fieldWidth : LaneMap Nat
  fbBase : Nat
  fbStride : Nat
  ctrlSym : Vector Word 5
  dataSym : Vector Sym 64
  regBase : Addr
  diagEn : Bool
  nextSrcOffset : Fin 2
  xformBits : Nat
  encXform : Nat
deriving DecidableEq, Repr

namespace Cfg

/-- `V_TOTAL` (R5). -/
def vTotal (c : Cfg) : Nat := c.vSync + c.vBack + c.vActive + c.vFront

/-- `H_TOTAL` (R6). -/
def hTotal (c : Cfg) : Nat := c.hFront + c.hSync + c.hBack + c.hActive

/-- `SRC_LINES` (R7). -/
def srcLines (c : Cfg) : Nat := c.vActive / 2

/-- `SRC_WIDTH` (R7). -/
def srcWidth (c : Cfg) : Nat := 2 * c.hActive

/-- The vertical constraints of R10. -/
def vertOk (c : Cfg) : Bool :=
  decide (1 ≤ c.vSync) && decide (1 ≤ c.vFront) && decide (2 ≤ c.vActive) && decide (c.vActive % 2 = 0)
    && decide (c.vTotal ≤ 65535)

/-- The horizontal constraints of R10. -/
def horOk (c : Cfg) : Bool :=
  decide (1 ≤ c.hFront ∧ c.hFront ≤ 65535) && decide (1 ≤ c.hSync ∧ c.hSync ≤ 65535)
    && decide (1 ≤ c.hBack ∧ c.hBack ≤ 65535) && decide (1 ≤ c.hActive ∧ c.hActive ≤ 65535)
    && decide (c.hFront + c.hSync + c.hBack ≤ 65535)

/-- The field constraints of R10, for one lane. -/
def fieldOk (c : Cfg) (l : Lane) : Bool :=
  decide (1 ≤ c.fieldWidth.get l) && decide (c.fieldWidth.get l ≤ 6)
    && decide (c.fieldLsb.get l + c.fieldWidth.get l ≤ pixelBits)

/-- The framebuffer constraints of R10. -/
def fbOk (c : Cfg) : Bool :=
  decide (c.fbBase % 4 = 0) && decide (c.fbStride % 4 = 0) && decide (4 * c.hActive ≤ c.fbStride)
    && decide (c.fbBase + (c.srcLines - 1) * c.fbStride + 4 * c.hActive ≤ 2 ^ 32)

/-- The table constraints of R10: `CTRL_SYM[k] < 2^20` and `DATA_SYM` injective (R123);
`DATA_SYM[i] < 2^10` holds by the type. -/
def tablesOk (c : Cfg) : Bool :=
  c.ctrlSym.toList.all (fun w => decide (w.toNat < 2 ^ 20)) && decide (c.dataSym.toList.map BitVec.toNat).Nodup

/-- The constraints a `Cfg` must meet; one that breaks them is refused (R10). -/
def valid (c : Cfg) : Bool :=
  c.vertOk && c.horOk && Lane.all.all c.fieldOk && c.fbOk && c.tablesOk

end Cfg

/-- The default `CTRL_SYM` (R121). -/
def defaultCtrlSym : Vector Word 5 :=
  #v[0x000D5354#32, 0x0002ACAB#32, 0x00055154#32, 0x000AAEAB#32, 0x0007FD00#32]

/-- The default `DATA_SYM` (R124), row by row. -/
def defaultDataSymRows : List (List Nat) :=
  [[0x100, 0x1FC, 0x1F8, 0x104, 0x1F0, 0x10C, 0x108, 0x1F4],
   [0x1E0, 0x11C, 0x118, 0x1E4, 0x110, 0x1EC, 0x1E8, 0x241],
   [0x1C0, 0x13C, 0x138, 0x1C4, 0x130, 0x1CC, 0x1C8, 0x261],
   [0x120, 0x1DC, 0x1D8, 0x271, 0x1D0, 0x279, 0x27D, 0x281],
   [0x180, 0x17C, 0x178, 0x184, 0x170, 0x18C, 0x188, 0x221],
   [0x160, 0x19C, 0x198, 0x231, 0x190, 0x239, 0x23D, 0x2C1],
   [0x140, 0x1BC, 0x1B8, 0x211, 0x1B0, 0x219, 0x21D, 0x2E1],
   [0x1A0, 0x209, 0x20D, 0x2F1, 0x205, 0x2F9, 0x2FD, 0x201]]

def defaultDataSym : Vector Sym 64 :=
  ⟨(defaultDataSymRows.flatten.map (BitVec.ofNat 10)).toArray, by decide⟩

/-- The profile P-A of 95_test_vectors.md with the default fields and tables (R10's table of defaults).
DESIGN CHOICE (log 2): `regBase`, `xformBits` and `encXform`, for which the spec gives no default. Unsafe for a claim about this record alone. -/
def Cfg.profileA : Cfg where
  vSync := 2
  vBack := 3
  vActive := 4
  vFront := 1
  hFront := 1
  hSync := 2
  hBack := 1
  hActive := 2
  fieldLsb := ⟨0, 5, 11⟩
  fieldWidth := ⟨5, 6, 5⟩
  fbBase := 0x20000000
  fbStride := 8
  ctrlSym := defaultCtrlSym
  dataSym := defaultDataSym
  regBase := 0x40000000#32
  diagEn := false
  nextSrcOffset := 0
  xformBits := 32
  encXform := 1

/-- Free value: what a read of a diagnostics register answers (R28, U19: `any value`), from the draw counter and the register. Log 11. -/
opaque Config.freeDiagRead : Nat → Word → Word

/-- Free value: the elapsed time `TICK_ENTER` or `TICK_BODY` stores (R28; no time is modelled, R270). Log 11. -/
opaque Config.freeElapsed : Nat → Word

end Sys2Proof
end

