-- ==== Sys2Proof/WellFormed.lean ====
section
/-! DEFINITION. Which terms of `Instr` are legal forms: the field rules of 30_encoding.md R93 and R99 and the operand
domains of the operation rules. Every check is a `Bool`. -/

namespace Sys2Proof

/-- `COUNT` is 1..65535 (R92). -/
def countOk (count : BitVec 16) : Bool := count != 0#16

/-- `SEL` of a pattern segment is a ControlSymbol kind 0..4 (R92, R95). -/
def kindOk (sel : BitVec 3) : Bool := decide (sel.toNat ≤ 4)

/-- `RING` is the lane's (R93; so 0 and 3 are reserved). -/
def ringOk (l : Lane) (ring : BitVec 2) : Bool := ring == l.ring

/-- `COUNT` of a line-buffer segment does not exceed `H_ACTIVE` (R93). -/
def bufCountOk (c : Cfg) (count : BitVec 16) : Bool := decide (count.toNat ≤ c.hActive)

/-- A field value of `FIELD_WIDTH[l]` bits (R132). -/
def fieldValueOk (c : Cfg) (l : Lane) (f : BitVec 16) : Bool := decide (f.toNat < 2 ^ c.fieldWidth.get l)

/-- `y` in `0..SRC_LINES-1`, `b` in 0..1 (R136, R139). -/
def encodeIndexOk (c : Cfg) (y b : Nat) : Bool := decide (y < c.srcLines) && decide (b < 2)

/-- A legal form of an operation, under a configuration. -/
def Instr.wellFormed (c : Cfg) : Instr → Bool
  | .start => true
  | .stop => true
  | .segPat l sel count ring _ => countOk count && kindOk sel && ringOk l ring
  | .segBuf l _ count ring _ => countOk count && ringOk l ring && bufCountOk c count
  | .chain _ => true
  | .ctrlsym k => kindOk k
  | .datasym _ => true
  | .laneExtract _ _ => true
  | .index6 l f => fieldValueOk c l f
  | .pack2 _ _ => true
  | .encodeLine y b => encodeIndexOk c y b
  | .buildChains => true
  | .seqSlot => true
  | .tickEnter => true
  | .tickBody => true
  | .classify n => decide (n < c.vTotal)

end Sys2Proof
end

