-- ==== Sys2Proof/Decode.lean ====
section
/-! DEFINITION. The five formats (30_encoding.md R90 to R96): the decoder, total on every word and rejecting by name, and the
encoder, written from the same tables. -/

namespace Sys2Proof

/-- Why a word stands for no operation (R99). -/
inductive DecodeError where
  /-- A `CMD` word other than 1 and 2 (R91, R99 (a)). -/
  | badRequest
  /-- A `DESC` word outside the two rows of the opcode map (R98): bits [31:23], or [18:17] of a `SEG_BUF`, not zero. -/
  | badDescriptor
deriving DecidableEq, Repr

/-- A value of one of the five encoded formats (R90). A `DESC` word comes with the lane whose memory it stands in (R92). -/
inductive Encoded where
  | cmd (w : Word)
  | desc (l : Lane) (w : Word)
  | cat (c : BitVec 2)
  | kind (k : BitVec 3)
  | idx (i : BitVec 6)
deriving DecidableEq, Repr

/-- `v[lo + len - 1 : lo]` (R11). -/
def bitField (w : Word) (lo len : Nat) : BitVec len := w.extractLsb' lo len

/-- Format `CMD` (R91). -/
def decodeCmd (w : Word) : Except DecodeError Instr :=
  if w = 1#32 then .ok .start
  else if w = 2#32 then .ok .stop
  else .error .badRequest

/-- The buffer a one-bit index names. -/
def bufOfBit (b : Bool) : Buf := if b then .buf1 else .buf0

/-- Format `DESC` (R92), by the selecting bits of R98. -/
def decodeDesc (w : Word) : Except DecodeError Descriptor :=
  if bitField w 23 9 ≠ 0#9 then .error .badDescriptor
  else if w.getLsbD 19 = false then
    .ok ⟨.pat, bitField w 16 3, bitField w 0 16, bitField w 20 2, w.getLsbD 22⟩
  else if bitField w 17 2 ≠ 0#2 then .error .badDescriptor
  else .ok ⟨.buf, bitField w 16 3, bitField w 0 16, bitField w 20 2, w.getLsbD 22⟩

/-- The operation a descriptor of a lane stands for (R98). -/
def Descriptor.toInstr (l : Lane) (d : Descriptor) : Instr :=
  match d.kind with
  | .pat => .segPat l d.sel d.count d.ring d.irq
  | .buf => .segBuf l (bufOfBit (d.sel.getLsbD 0)) d.count d.ring d.irq

/-- A reserved descriptor (R99 (b)): what a fetch by lane `l` does not accept. -/
def Descriptor.reserved (c : Cfg) (l : Lane) (d : Descriptor) : Bool :=
  d.count == 0#16 || d.ring != l.ring ||
    match d.kind with
    | .pat => decide (4 < d.sel.toNat)
    | .buf => decide (1 < d.sel.toNat) || decide (c.hActive < d.count.toNat)

/-- Format `CAT` (R94). -/
def decodeCat (w : BitVec 2) : Cat :=
  if w = 0#2 then .vsync
  else if w = 1#2 then .blank
  else if w = 2#2 then .active0
  else .active1

/-- The decoder, one case per format (R90). -/
def decode : Encoded → Except DecodeError Instr
  | .cmd w => decodeCmd w
  | .desc l w => (decodeDesc w).map (Descriptor.toInstr l)
  | .cat c => .ok (.chain (decodeCat c))
  | .kind k => .ok (.ctrlsym k)
  | .idx i => .ok (.datasym i)

/-- The `KIND` bit of a descriptor (R92). -/
def kindBit : SegKind → BitVec 1
  | .pat => 0#1
  | .buf => 1#1

/-- A descriptor as its word (R92), from bit 31 down to bit 0. -/
def encodeDesc (d : Descriptor) : Word :=
  0#9 ++ BitVec.ofBool d.irq ++ d.ring ++ kindBit d.kind ++ d.sel ++ d.count

/-- The number of a category (R94). -/
def encodeCat : Cat → BitVec 2
  | .vsync => 0#2
  | .blank => 1#2
  | .active0 => 2#2
  | .active1 => 3#2

/-- The word of an operation, none for the nine operations of format `EVENT`, which have no encoding (R97). -/
def encode : Instr → Option Encoded
  | .start => some (.cmd 0x00000001#32)
  | .stop => some (.cmd 0x00000002#32)
  | .segPat l sel count ring irq => some (.desc l (encodeDesc ⟨.pat, sel, count, ring, irq⟩))
  | .segBuf l b count ring irq => some (.desc l (encodeDesc ⟨.buf, b.sel, count, ring, irq⟩))
  | .chain c => some (.cat (encodeCat c))
  | .ctrlsym k => some (.kind k)
  | .datasym i => some (.idx i)
  | .laneExtract _ _ => none
  | .index6 _ _ => none
  | .pack2 _ _ => none
  | .encodeLine _ _ => none
  | .buildChains => none
  | .seqSlot => none
  | .tickEnter => none
  | .tickBody => none
  | .classify _ => none

/-- The lane a bare descriptor word is read for: the first lane whose rings have the word's `RING` (R93), else lane 0. Log 22. -/
def tableLane (w : Word) : Lane := if bitField w 20 2 = 1#2 then .lane1 else .lane0

/-- The format a bare 32-bit word is read in: the two `CMD` words are no legal `DESC` words (their `RING` is 0), so they come first. Log 23. -/
def tableEncoded (w : Word) : Encoded :=
  if w = 1#32 ∨ w = 2#32 then .cmd w else .desc (tableLane w) w

/-- A value of `nbits` bits as the format of that length: 32 `CMD` or `DESC`, 6 (8 in whole bytes) `IDX`, 3 `KIND`, 2 `CAT`.
Nothing for another length or a value that does not fit. Log 22. -/
def tableFormat (nbits w : Nat) : Option Encoded :=
  match nbits with
  | 32 => if w < 2 ^ 32 then some (tableEncoded (BitVec.ofNat 32 w)) else none
  | 8 => if w < 2 ^ 6 then some (.idx (BitVec.ofNat 6 w)) else none
  | 6 => if w < 2 ^ 6 then some (.idx (BitVec.ofNat 6 w)) else none
  | 3 => if w < 2 ^ 3 then some (.kind (BitVec.ofNat 3 w)) else none
  | 2 => if w < 2 ^ 2 then some (.cat (BitVec.ofNat 2 w)) else none
  | _ => none

/-- The operation the decoder reads from a row's bits. -/
def decodeTableWord (nbits w : Nat) : Option Instr :=
  match tableFormat nbits w with
  | none => none
  | some e => (decode e).toOption

end Sys2Proof
end

