-- ==== Sys2Proof/Machine/State.lean ====
section
/-! DEFINITION. The state of the block (10_state.md), the environment it is read with (framebuffer, schedule), the reasons
a step can stop, and the state after reset (R38). -/

namespace Sys2Proof.Machine

/-- Why the machine stops (93_implementation_defined.md section 1, `fault`). -/
inductive Fault where
  /-- Raised by a fetch of a reserved descriptor, and by a slot whose current segment no fetch could have loaded (R99 (b), R157, U14). Safe. -/
  | badDescriptor
  /-- Raised by `CHAIN` outside the window (R162, U16). Safe. -/
  | chainOutsideWindow
  /-- Raised by a read of `LineBuf` or `Desc` before it is written, or of `Desc` by a lane that was never armed (R38, U17; log 13). Safe. -/
  | uninit
deriving DecidableEq, Repr

/-- What the model does not accept (93_implementation_defined.md section 1, `refuse`). -/
inductive Refusal where
  /-- Raised by an arm of `exec` whose operation has no meaning yet. Safe. -/
  | notModelled (mnemonic : String)
  /-- Raised by every step under a `Cfg` that breaks R10 (U11). Safe. -/
  | badCfg
  /-- Raised by a host write to `REQ` of a value other than 1 and 2, and by serving such a value (R99 (a), U4). Safe. -/
  | badRequest
  /-- Raised by a double start, a double stop, and a host write to a `REQ` that is not 0 (R204, U1, U2, U3). Safe. -/
  | lifecycleMisuse
  /-- Raised by a host access to the register block that is not an aligned 32-bit access (R63, U18). Safe. -/
  | badRegAccess
  /-- Raised by `CTRLSYM` with kind 5..7 (R99 (c), R120, U15). Safe. -/
  | badKind
  /-- Raised by `ENCODE_LINE` with an index out of range (R139, U8). Safe. -/
  | encodeIndex
  /-- Raised by `BUILD_CHAINS` while `RUN = 1` (R70, R151, U9). Safe. -/
  | buildWhileArmed
deriving DecidableEq, Repr

/-- The segment a lane is executing, the record of R33. `rem` is 1..65535 in every reachable state. -/
structure Seg where
  kind : SegKind
  sel : BitVec 3
  rem : Nat
  off : Nat
  irq : Bool
  ring : BitVec 2
deriving DecidableEq, Repr

/-- A next-read pointer `(c, i)` (R33): the place in `Desc` a lane fetches next. -/
structure Ptr where
  cat : Cat
  idx : BitVec 2
deriving DecidableEq, Repr

/-- The descriptors of one ring (R32): four places, of which lanes 1 and 2 use two; none is a place never written (R38). -/
structure Ring where
  d0 : Option Word
  d1 : Option Word
  d2 : Option Word
  d3 : Option Word
deriving DecidableEq, Repr

/-- What a step puts beside the state for an observer: the `result` of a pure operation (R120, R122, R131, R132, R134, R184),
the value of a host read (R29), or of another agent's read of `XFORM` (R138). Log 7. -/
inductive Result where
  | idle
  | word (w : Word)
  | symbol (s : Sym)
  | field (f : BitVec 16)
  | index (i : BitVec 6)
  | band (b : Band)
  | bytes (bs : List Byte)
  | xform (v : Nat)
deriving DecidableEq, Repr

/-- What happens inside one `ENCODE_LINE`, one entry after the other (R137, R138, R68): the read of a pair `(l, j)`,
a host store to the framebuffer, another agent's access to `XFORM`. Log 14. -/
inductive EncAct where
  | pair (l : Lane) (j : Nat)
  | store (a : Addr) (bytes : List Byte)
  | xformRead
  | xformWrite (v : Nat)
deriving DecidableEq, Repr

/-- An action from outside the block (R13, R35, R250). -/
inductive EnvAction where
  /-- The host reads `n` bytes at `a`. -/
  | busRead (a : Addr) (n : Nat)
  /-- The host writes bytes from `a` upwards. -/
  | busWrite (a : Addr) (bytes : List Byte)
  /-- Unrelated code reads the transformation unit. -/
  | xformRead
  /-- Unrelated code writes the transformation unit. -/
  | xformWrite (v : Nat)
  /-- The reset input. -/
  | resetInput
deriving DecidableEq, Repr

/-- One entry of the schedule: which agent moves (R13; log 3). `fetch` and an `op` that is no agent's own step are stimuli of the model,
one operation of the opcode table outside its trigger (log 6). -/
inductive Event where
  | env (a : EnvAction)
  /-- The state machine looks at `REQ` and serves the request it finds (R200). -/
  | serve
  /-- Lane `l` fetches the descriptor its pointer names (R157). -/
  | fetch (l : Lane)
  /-- The operation `i` is started. -/
  | op (i : Instr)
deriving DecidableEq, Repr

/-- The state. Registers and internal memories by their names in 10_state.md; then the framebuffer space (R61), the output
sequence (R14), and the model's own fields (log 1, 3, 7, 12, 14). -/
structure State where
  /-- `Cfg`, carried unchanged (R36; log 1). -/
  cfg : Cfg
  /-- `REQ` (R25): the two bits used. -/
  req : BitVec 2
  /-- `RUN` (R30). -/
  run : Bool
  /-- `OUT_EN` (R30). -/
  outEn : Bool
  /-- `IRQ_EN` (R30). -/
  irqEn : Bool
  /-- `IRQ_PEND` (R30). -/
  irqPend : Bool
  /-- `POLLING` (R30). -/
  polling : Bool
  /-- `LINE` (R21). -/
  line : BitVec 16
  /-- `FRAME` (R22). -/
  frame : BitVec 32
  /-- `BUFIDX` (R23). -/
  bufIdx : Buf
  /-- `cur[l]` (R33). -/
  cur : LaneMap (Option Seg)
  /-- `rdptr[l]` (R33), the program counter. -/
  rdptr : LaneMap (Option Ptr)
  /-- `LineBuf[l][b][j]` (R31): the words written, `j` strictly rising. -/
  lineBuf : LaneMap (BufMap (List (Nat × Word)))
  /-- `Desc[l][c][i]` (R32). -/
  desc : LaneMap (CatMap Ring)
  /-- `XFORM` (R35), below `2^XFORM_BITS`. -/
  xform : Nat
  /-- `XFORM_SAVE` (R35). -/
  xformSave : Nat
  /-- `DIAG_ENTRY` (R28). -/
  diagEntry : Word
  /-- `DIAG_EXIT` (R28). -/
  diagExit : Word
  /-- The framebuffer space (R60, R61): bytes that differ from what an unlisted address reads as, addresses strictly rising. -/
  mem : List Host.Cell
  /-- The word slots produced since `START`, oldest first (R14). -/
  out : List (LaneMap Word)
  /-- The last value read or computed for an observer (log 7). -/
  result : Result
  /-- The schedule (log 3). -/
  sched : List Event
  /-- What happens inside the coming `ENCODE_LINE`s, one plan each (log 14). -/
  encPlans : List (List EncAct)
  /-- How many free values have been drawn (log 12). -/
  freeCount : Nat
deriving DecidableEq, Repr

/-- A ring with nothing written. -/
def Ring.unwritten : Ring := ⟨none, none, none, none⟩

/-- The state after power-on reset (R38), for a configuration.
DESIGN CHOICE: `xform`, `xformSave` (log 10), `diagEntry`, `diagExit` (log 11) and the model's own fields hold 0 or nothing. -/
def State.resetWith (c : Cfg) : State where
  cfg := c
  req := 0#2
  run := false
  outEn := false
  irqEn := false
  irqPend := false
  polling := false
  line := 0#16
  frame := 0#32
  bufIdx := .buf0
  cur := .const none
  rdptr := .const none
  lineBuf := .const ⟨[], []⟩
  desc := .const ⟨.unwritten, .unwritten, .unwritten, .unwritten⟩
  xform := 0
  xformSave := 0
  diagEntry := 0#32
  diagExit := 0#32
  mem := []
  out := []
  result := .idle
  sched := []
  encPlans := []
  freeCount := 0

/-- The state after power-on reset (R38). DESIGN CHOICE (log 2): under the profile P-A of 95_test_vectors.md. -/
def State.reset : State := State.resetWith Cfg.profileA

end Sys2Proof.Machine
end

