-- ==== Sys2Proof/Machine/Flags.lean ====
section
/-! DEFINITION. What is computed from the flags and the sequencer's pointers: the `STATUS` word (10_state.md R26), the
remaining-count query (R34, R163), the window (R183), and when each step is enabled (R160, R181, R182, R201, R202). -/

namespace Sys2Proof.Machine

/-- `STATUS` (R26): bit 0 `RUN`, 1 `OUT_EN`, 2 `IRQ_EN`, 3 `IRQ_PEND`, 4 `BUFIDX`, 5 `POLLING`, the rest zero. -/
def statusWord (s : State) : Word :=
  0#26 ++ BitVec.ofBool s.polling ++ BitVec.ofBool (s.bufIdx == .buf1) ++ BitVec.ofBool s.irqPend ++
    BitVec.ofBool s.irqEn ++ BitVec.ofBool s.outEn ++ BitVec.ofBool s.run

/-- `fetch_rem[l]` (R34): `(2^ring - i) mod 2^ring`; nothing on a lane that is not armed. -/
def fetchRem (s : State) (l : Lane) : Option Nat :=
  match s.cur.get l, s.rdptr.get l with
  | some g, some p => some ((2 ^ g.ring.toNat - p.idx.toNat) % 2 ^ g.ring.toNat)
  | _, _ => none

/-- `rdptr[l] = (_, 0)`. -/
def atRingStart (s : State) (l : Lane) : Bool :=
  match s.rdptr.get l with
  | some p => p.idx == 0#2
  | none => false

/-- The window (R163, R183): `rdptr[l] = (_, 0)` on every lane. -/
def windowOpen (s : State) : Bool := Lane.all.all (atRingStart s)

/-- `TICK_ENTER` is enabled (R181). -/
def tickEnterEnabled (s : State) : Bool := s.run && s.irqEn && s.irqPend && !s.polling

/-- `TICK_BODY` is enabled (R182). -/
def tickBodyEnabled (s : State) : Bool := s.polling && windowOpen s

/-- Nothing of the tick stands in the way of a `STOP` (R202, R228). -/
def stopAllowed (s : State) : Bool := !s.polling && !(s.irqPend && s.irqEn)

/-- Every lane has a segment (R160). -/
def allArmed (s : State) : Bool := Lane.all.all (fun l => (s.cur.get l).isSome)

/-- `SEQ_SLOT` is enabled (R160). -/
def slotEnabled (s : State) : Bool := s.run && s.outEn && allArmed s

end Sys2Proof.Machine
end

