-- ==== Sys2Proof/Machine/Operands.lean ====
section
/-! DEFINITION. The values operations compute from their operands and `Cfg` alone: symbol tables (40_symbol_tables.md),
field extraction, index, packing, framebuffer addresses (41_line_encoder.md), band classification (43_scanline_fsm.md),
and the descriptor words of every ring (42_chain_sequencer.md). -/

namespace Sys2Proof.Machine

/-- `CTRL_SYM[kind]` (R120), nothing for the reserved kinds 5..7. -/
def ctrlSym? (c : Cfg) (k : BitVec 3) : Option Word :=
  if h : k.toNat < 5 then some c.ctrlSym[k.toNat] else none

/-- `DATA_SYM[idx]` (R122). -/
def dataSymOf (c : Cfg) (i : BitVec 6) : Sym := c.dataSym[i.toNat]

/-- The bit field of a pixel a lane takes (R131). -/
def laneField (c : Cfg) (l : Lane) (px : Pixel) : BitVec 16 :=
  (px >>> c.fieldLsb.get l) &&& BitVec.ofNat 16 (2 ^ c.fieldWidth.get l - 1)

/-- The table index of a field value (R132). The operand has `FIELD_WIDTH[l]` bits; bits above them are no part of it (log 20). -/
def fieldIndex (c : Cfg) (l : Lane) (f : BitVec 16) : BitVec 6 :=
  BitVec.ofNat 6 ((f.toNat % 2 ^ c.fieldWidth.get l) <<< (6 - c.fieldWidth.get l))

/-- Two symbols in one transmission word (R134). -/
def packSyms (s0 s1 : Sym) : Word := s0.setWidth 32 ||| (s1.setWidth 32 <<< 10)

/-- The symbol a lane sends for a pixel (R136). -/
def pixelSym (c : Cfg) (l : Lane) (px : Pixel) : Sym := dataSymOf c (fieldIndex c l (laneField c l px))

/-- The transmission word a lane sends for one memory word (R136): pixel `2j` in bits [15:0], pixel `2j + 1` in bits [31:16] (R62). -/
def encodeWord (c : Cfg) (l : Lane) (w : Word) : Word :=
  packSyms (pixelSym c l (w.extractLsb' 0 16)) (pixelSym c l (w.extractLsb' 16 16))

/-- `addr(y, j)` (R135). -/
def fbAddr (c : Cfg) (y j : Nat) : Addr := BitVec.ofNat 32 (c.fbBase + y * c.fbStride + 4 * j)

/-- The band of a line counter value (R184). -/
def classifyLine (c : Cfg) (n : Nat) : Band :=
  if 1 ≤ n ∧ n ≤ c.vSync then .vsync
  else if c.vSync + c.vBack + 1 ≤ n ∧ n ≤ c.vSync + c.vBack + c.vActive then .active
  else .blanking

/-- A pattern segment of a ring (R152, R153). -/
def segPatDesc (l : Lane) (sel : BitVec 3) (count : Nat) (irq : Bool) : Descriptor :=
  ⟨.pat, sel, BitVec.ofNat 16 count, l.ring, irq⟩

/-- A line-buffer segment of a ring (R152, R153). -/
def segBufDesc (l : Lane) (b : Buf) (count : Nat) : Descriptor :=
  ⟨.buf, b.sel, BitVec.ofNat 16 count, l.ring, false⟩

/-- The last segment of a line (R152, R153): `CTRL_SYM[2]` on a `VSYNC` line of lane 0, `CTRL_SYM[4]` on the other lines
without picture, the lane's buffer on an active line. -/
def lastDesc (c : Cfg) (l : Lane) : Cat → Descriptor
  | .vsync => segPatDesc l (match l with | .lane0 => 2#3 | .lane1 => 4#3 | .lane2 => 4#3) c.hActive false
  | .blank => segPatDesc l 4#3 c.hActive false
  | .active0 => segBufDesc l .buf0 c.hActive
  | .active1 => segBufDesc l .buf1 c.hActive

/-- The ControlSymbol kind of lane 0's porches (R152): VSync on a `VSYNC` line, else None. -/
def porchKind : Cat → BitVec 3
  | .vsync => 2#3
  | .blank => 0#3
  | .active0 => 0#3
  | .active1 => 0#3

/-- The ControlSymbol kind of lane 0's sync pulse (R152): HSyncVSync on a `VSYNC` line, else HSync. -/
def pulseKind : Cat → BitVec 3
  | .vsync => 3#3
  | .blank => 1#3
  | .active0 => 1#3
  | .active1 => 1#3

/-- The four segments of a line on lane 0 (R152). -/
def syncDescs (c : Cfg) (k : Cat) : List Descriptor :=
  [segPatDesc .lane0 (porchKind k) c.hFront false, segPatDesc .lane0 (pulseKind k) c.hSync false,
   segPatDesc .lane0 (porchKind k) c.hBack true, lastDesc c .lane0 k]

/-- The two segments of a line on lanes 1 and 2 (R153). -/
def dataDescs (c : Cfg) (l : Lane) (k : Cat) : List Descriptor :=
  [segPatDesc l 0#3 (c.hFront + c.hSync + c.hBack) false, lastDesc c l k]

/-- The segments of one line of a category on a lane (R152, R153). -/
def lineDescs (c : Cfg) (l : Lane) (k : Cat) : List Descriptor :=
  match l with
  | .lane0 => syncDescs c k
  | .lane1 => dataDescs c .lane1 k
  | .lane2 => dataDescs c .lane2 k

/-- A ring of at most four descriptors, as words. -/
def ringOfDescs (ds : List Descriptor) : Ring :=
  ⟨ds[0]?.map encodeDesc, ds[1]?.map encodeDesc, ds[2]?.map encodeDesc, ds[3]?.map encodeDesc⟩

/-- The ring of a lane and a category (R152, R153). -/
def builtRing (c : Cfg) (l : Lane) (k : Cat) : Ring := ringOfDescs (lineDescs c l k)

/-- The four rings of a lane. -/
def builtRings (c : Cfg) (l : Lane) : CatMap Ring :=
  ⟨builtRing c l .vsync, builtRing c l .blank, builtRing c l .active0, builtRing c l .active1⟩

/-- The whole descriptor memory `BUILD_CHAINS` writes (R151). -/
def builtDesc (c : Cfg) : LaneMap (CatMap Ring) :=
  ⟨builtRings c .lane0, builtRings c .lane1, builtRings c .lane2⟩

end Sys2Proof.Machine
end

