-- ==== Sys2Proof/Machine/Ops.lean ====
section
/-! DEFINITION. The shared operations: sorted lists by key, the framebuffer (20_memory.md), the line buffers and the
descriptor memory, the fetch of a descriptor (R157), the notification's raise, entry and return (60_exceptions.md R224,
R229, R230), and free values. -/

namespace Sys2Proof.Machine

/-! ### Lists of key and value, keys strictly rising -/

/-- The value at a key. -/
def Assoc.lookup {α : Type} (k : Nat) : List (Nat × α) → Option α
  | [] => none
  | (k', v) :: rest => if k = k' then some v else Assoc.lookup k rest

/-- The list with the value at a key. -/
def Assoc.insert {α : Type} (k : Nat) (v : α) : List (Nat × α) → List (Nat × α)
  | [] => [(k, v)]
  | (k', v') :: rest =>
    if k < k' then (k, v) :: (k', v') :: rest
    else if k = k' then (k, v) :: rest
    else (k', v') :: Assoc.insert k v rest

/-- The list without a key. -/
def Assoc.erase {α : Type} (k : Nat) : List (Nat × α) → List (Nat × α)
  | [] => []
  | (k', v') :: rest => if k = k' then rest else (k', v') :: Assoc.erase k rest

/-- Keys strictly rise, and each is above `lo` when there is one. -/
def Assoc.sortedFrom {α : Type} (lo : Option Nat) : List (Nat × α) → Bool
  | [] => true
  | (k, _) :: rest =>
    (match lo with
      | none => true
      | some b => decide (b < k)) && Assoc.sortedFrom (some k) rest

/-- Keys strictly rise. -/
def Assoc.sorted {α : Type} (m : List (Nat × α)) : Bool := Assoc.sortedFrom none m

/-! ### The framebuffer space (R60 to R64) -/

/-- What a framebuffer byte nobody has written reads as. DESIGN CHOICE (log 9): the spec gives no contents. Unsafe. -/
def unwrittenByte : Byte := 0#8

/-- The byte at an address. -/
def Memory.read (m : List Host.Cell) (a : Addr) : Byte := (Assoc.lookup a.toNat m).getD unwrittenByte

/-- The memory with one byte written, in canonical form. -/
def Memory.write (m : List Host.Cell) (a : Addr) (b : Byte) : List Host.Cell :=
  if b = unwrittenByte then Assoc.erase a.toNat m else Assoc.insert a.toNat b m

/-- The memory with bytes written from an address upwards, modulo 2^32. -/
def Memory.writeBytes (m : List Host.Cell) (a : Addr) : List Byte → List Host.Cell
  | [] => m
  | b :: rest => Memory.writeBytes (Memory.write m a b) (a + 1#32) rest

/-- `n` bytes from an address upwards, modulo 2^32. -/
def Memory.readBytes (m : List Host.Cell) (a : Addr) : Nat → List Byte
  | 0 => []
  | n + 1 => Memory.read m a :: Memory.readBytes m (a + 1#32) n

/-- `MemRead(a, 4)` (R62): little-endian. -/
def Memory.read32 (m : List Host.Cell) (a : Addr) : Word :=
  Memory.read m (a + 3#32) ++ Memory.read m (a + 2#32) ++ Memory.read m (a + 1#32) ++ Memory.read m a

/-- The canonical form: addresses of the space, strictly rising, none equal to what an unlisted address reads as. -/
def Memory.wf (m : List Host.Cell) : Bool :=
  Assoc.sorted m && m.all (fun e => decide (e.1 < 2 ^ 32) && decide (e.2 ≠ unwrittenByte))

/-! ### Line buffers and descriptors (R31, R32) -/

/-- `LineBuf[l][b][j]`, nothing where it was never written. -/
def readLineWord (s : State) (l : Lane) (b : Buf) (j : Nat) : Option Word :=
  Assoc.lookup j ((s.lineBuf.get l).get b)

/-- `LineBuf[l][b][j] <- w`. -/
def writeLineWord (l : Lane) (b : Buf) (j : Nat) (w : Word) (s : State) : State :=
  { s with lineBuf := s.lineBuf.set l ((s.lineBuf.get l).set b (Assoc.insert j w ((s.lineBuf.get l).get b))) }

/-- The words of one filled buffer: `H_ACTIVE` copies of `w` (R201 step 1). -/
def filledWords (n : Nat) (w : Word) : List (Nat × Word) := (List.range n).map (fun j => (j, w))

/-- Every line buffer filled with `w` (R201 step 1, R39). -/
def fillLineBufs (w : Word) (s : State) : State :=
  { s with lineBuf := .const ⟨filledWords s.cfg.hActive w, filledWords s.cfg.hActive w⟩ }

/-- The descriptor at an index of a ring. -/
def Ring.get (r : Ring) (i : BitVec 2) : Option Word :=
  if i = 0#2 then r.d0 else if i = 1#2 then r.d1 else if i = 2#2 then r.d2 else r.d3

/-- The ring with one descriptor written. -/
def Ring.set (r : Ring) (i : BitVec 2) (w : Word) : Ring :=
  if i = 0#2 then { r with d0 := some w }
  else if i = 1#2 then { r with d1 := some w }
  else if i = 2#2 then { r with d2 := some w }
  else { r with d3 := some w }

/-- `Desc[l][c][i]` at a pointer. -/
def readDesc (s : State) (l : Lane) (p : Ptr) : Option Word := ((s.desc.get l).get p.cat).get p.idx

/-- `Desc[l][c][i] <- w` at a pointer. -/
def writeDesc (l : Lane) (p : Ptr) (w : Word) (s : State) : State :=
  { s with desc := s.desc.set l ((s.desc.get l).set p.cat (((s.desc.get l).get p.cat).set p.idx w)) }

/-! ### The sequencer's registers (R33) -/

/-- `cur[l] <- g`. -/
def setCur (l : Lane) (g : Option Seg) (s : State) : State := { s with cur := s.cur.set l g }

/-- `rdptr[l] <- p`. -/
def setRdptr (l : Lane) (p : Option Ptr) (s : State) : State := { s with rdptr := s.rdptr.set l p }

/-- The record a fetch makes of a descriptor (R157). -/
def segOf (d : Descriptor) : Seg := ⟨d.kind, d.sel, d.count.toNat, 0, d.irq, d.ring⟩

/-- `(c, i)` becomes `(c, (i + 1) mod 2^ring)` (R157). -/
def Ptr.advance (p : Ptr) (ring : BitVec 2) : Ptr :=
  { p with idx := BitVec.ofNat 2 ((p.idx.toNat + 1) % 2 ^ ring.toNat) }

/-- The second half of a fetch (R157): a descriptor that is not reserved becomes lane `l`'s segment and the pointer moves on.
DESIGN CHOICE (log 33): on a lane with no pointer, where the spec gives no fetch, the segment is loaded and there is still no pointer. -/
def loadDescriptor (l : Lane) (d : Descriptor) (s : State) : Except Fault State :=
  if Descriptor.reserved s.cfg l d then .error .badDescriptor
  else .ok (setRdptr l ((s.rdptr.get l).map (Ptr.advance · d.ring)) (setCur l (some (segOf d)) s))

/-- The descriptor a lane's pointer names, decoded (R157). -/
def fetchDescriptor (s : State) (l : Lane) : Except Fault Descriptor :=
  match s.rdptr.get l with
  | none => .error .uninit
  | some p =>
    match readDesc s l p with
    | none => .error .uninit
    | some w =>
      match decodeDesc w with
      | .error _ => .error .badDescriptor
      | .ok d => .ok d

/-- The fetch of lane `l` (R157). -/
def fetchLane (l : Lane) (s : State) : Except Fault State :=
  match fetchDescriptor s l with
  | .error f => .error f
  | .ok d => loadDescriptor l d s

/-! ### The notification, the block's one interrupt -/

/-- `notify()` (R224, R225, R226): sets `IRQ_PEND` whatever `IRQ_EN` is; a second one merges. -/
def notify (s : State) : State := { s with irqPend := true }

/-- The elapsed time a diagnostics register takes when `DIAG_EN` (R28): a free value. Log 11. -/
def freeElapsed (s : State) : Word := Config.freeElapsed s.freeCount

/-- Taking the notification (R229, R181): the pending bit falls, polling begins; nothing is saved.
When `DIAG_EN`, `DIAG_ENTRY` is updated (R28). -/
def enterTick (s : State) : State :=
  if s.cfg.diagEn then
    { s with irqPend := false, polling := true, diagEntry := freeElapsed s, freeCount := s.freeCount + 1 }
  else { s with irqPend := false, polling := true }

/-- Returning from the notification (R230): polling ends; nothing is restored. When `DIAG_EN`, `DIAG_EXIT` is updated (R28). -/
def leaveTick (s : State) : State :=
  if s.cfg.diagEn then { s with polling := false, diagExit := freeElapsed s, freeCount := s.freeCount + 1 }
  else { s with polling := false }

/-! ### Outcomes -/

/-- A stop or a state as an outcome. -/
def outcomeOf : Except Fault State → Host.Outcome State Fault Refusal
  | .error f => .fault f
  | .ok s => .next s

/-- Go on from a next state. -/
def andThen (o : Host.Outcome State Fault Refusal) (f : State → Host.Outcome State Fault Refusal) :
    Host.Outcome State Fault Refusal :=
  match o with
  | .next s => f s
  | .fault r => .fault r
  | .refused r => .refused r

/-- A pure operation: only the observer's result is written (log 7). -/
def answer (r : Result) (s : State) : Host.Outcome State Fault Refusal := .next { s with result := r }

end Sys2Proof.Machine
end

