-- ==== Sys2Proof/Machine/Sequencer.lean ====
section
/-! DEFINITION. The chains and the sequencer (42_chain_sequencer.md): `BUILD_CHAINS`, `SEG_PAT`, `SEG_BUF`, `SEQ_SLOT`, `CHAIN`. -/

namespace Sys2Proof.Machine

/-- `Desc <-` the words of R152 and R153. -/
def buildChains (s : State) : State := { s with desc := builtDesc s.cfg }

/-- `BUILD_CHAINS` (R151), `refuse(build_while_armed)` while `RUN = 1` (R70). -/
def execBuildChains (s : State) : Host.Outcome State Fault Refusal :=
  if s.run then .refused .buildWhileArmed else .next (buildChains s)

/-- `SEG_PAT` on lane `l` (R155, R157): the lane starts a pattern segment. On a lane with no pointer: log 33. -/
def execSegPat (l : Lane) (sel : BitVec 3) (count : BitVec 16) (ring : BitVec 2) (irq : Bool) (s : State) :
    Host.Outcome State Fault Refusal :=
  outcomeOf (loadDescriptor l ⟨.pat, sel, count, ring, irq⟩ s)

/-- `SEG_BUF` on lane `l` (R156, R157): the lane starts a line-buffer segment. On a lane with no pointer: log 33. -/
def execSegBuf (l : Lane) (b : Buf) (count : BitVec 16) (ring : BitVec 2) (irq : Bool) (s : State) :
    Host.Outcome State Fault Refusal :=
  outcomeOf (loadDescriptor l ⟨.buf, b.sel, count, ring, irq⟩ s)

/-- The buffer a line-buffer segment reads (R156): `SEL` 0 or 1. -/
def segBuffer (g : Seg) : Option Buf :=
  if g.sel = 0#3 then some .buf0 else if g.sel = 1#3 then some .buf1 else none

/-- The word a lane sends in this slot (R160). -/
def slotWord (s : State) (l : Lane) (g : Seg) : Except Fault Word :=
  match g.kind with
  | .pat =>
    match ctrlSym? s.cfg g.sel with
    | some w => .ok w
    | none => .error .badDescriptor
  | .buf =>
    match segBuffer g with
    | none => .error .badDescriptor
    | some b =>
      match readLineWord s l b g.off with
      | some w => .ok w
      | none => .error .uninit

/-- The segment one slot later (R160). -/
def segNext (g : Seg) : Seg :=
  { g with off := (match g.kind with | .pat => g.off | .buf => g.off + 1), rem := g.rem - 1 }

/-- Completion of lane `l` (R159): the notification if the segment asks for it, then the fetch. -/
def completeLane (l : Lane) (g : Seg) (s : State) : Except Fault State :=
  fetchLane l (if g.irq then notify s else s)

/-- Lane `l` moves past this slot (R160). -/
def advanceLane (l : Lane) (g : Seg) (s : State) : Except Fault State :=
  if (segNext g).rem = 0 then completeLane l (segNext g) (setCur l (some (segNext g)) s)
  else .ok (setCur l (some (segNext g)) s)

/-- One lane's part of a slot (R160): its word and the state after it. -/
def laneSlot (l : Lane) (s : State) : Except Fault (Word × State) :=
  match s.cur.get l with
  | none => .error .uninit
  | some g =>
    match slotWord s l g with
    | .error f => .error f
    | .ok w =>
      match advanceLane l g s with
      | .error f => .error f
      | .ok t => .ok (w, t)

/-- The three words join the output (R14, R160). -/
def emitSlot (w : LaneMap Word) (s : State) : State := { s with out := s.out ++ [w] }

/-- The three lanes in the one step (R160). -/
def slotStep (s : State) : Except Fault State :=
  match laneSlot .lane0 s with
  | .error f => .error f
  | .ok (w0, s0) =>
    match laneSlot .lane1 s0 with
    | .error f => .error f
    | .ok (w1, s1) =>
      match laneSlot .lane2 s1 with
      | .error f => .error f
      | .ok (w2, s2) => .ok (emitSlot ⟨w0, w1, w2⟩ s2)

/-- `SEQ_SLOT` (R160); where it is not enabled it is not taken and nothing changes (D40). -/
def execSeqSlot (s : State) : Host.Outcome State Fault Refusal :=
  if slotEnabled s then outcomeOf (slotStep s) else .next s

/-- `rdptr[l] <- (c, 0)` on every lane (R162). -/
def pointAll (c : Cat) (s : State) : State := { s with rdptr := .const (some ⟨c, 0#2⟩) }

/-- `CHAIN c` (R162), `fault(chain_outside_window)` outside the window. -/
def execChain (c : Cat) (s : State) : Host.Outcome State Fault Refusal :=
  if windowOpen s then .next (pointAll c s) else .fault .chainOutsideWindow

end Sys2Proof.Machine
end

