-- ==== Sys2Proof/Machine/Lifecycle.lean ====
section
/-! DEFINITION. Start and stop (44_lifecycle.md): `START`, `STOP`. -/

namespace Sys2Proof.Machine

/-- `LINE <- 0 ; FRAME <- 0 ; BUFIDX <- 0` (R201 step 2). -/
def resetScan (s : State) : State := { s with line := 0#16, frame := 0#32, bufIdx := .buf0 }

/-- The word the line buffers are filled with, `CTRL_SYM[4]` (R201 step 1). -/
def fillWord (c : Cfg) : Word := c.ctrlSym[4]

/-- Arming of one lane (R165): the pointer to `(BLANK, 0)`, then one fetch. -/
def armLane (l : Lane) (s : State) : Except Fault State := fetchLane l (setRdptr l (some ⟨.blank, 0#2⟩) s)

/-- Arming of all lanes (R165). -/
def armAll (s : State) : Except Fault State :=
  match armLane .lane0 s with
  | .error f => .error f
  | .ok s0 =>
    match armLane .lane1 s0 with
    | .error f => .error f
    | .ok s1 => armLane .lane2 s1

/-- Steps 5 to 7 of `START` beside the arming: routing, enabling, acknowledgement. The output sequence is counted from here (R14; log 8). -/
def enableAll (s : State) : State :=
  { s with irqPend := false, polling := false, irqEn := true, run := true, outEn := true, req := 0#2, out := [] }

/-- `START` with its guard met (R201, steps in the source's order). -/
def startBlock (s : State) : Except Fault State :=
  match armAll (buildChains (resetScan (fillLineBufs (fillWord s.cfg) s))) with
  | .error f => .error f
  | .ok t => .ok (enableAll t)

/-- `START` (R201): enabled when `REQ = 1` and `RUN = 0`; a double start is `refuse(lifecycle_misuse)` (R204). -/
def execStart (s : State) : Host.Outcome State Fault Refusal :=
  if s.req = 1#2 then
    if s.run then .refused .lifecycleMisuse else outcomeOf (startBlock s)
  else .next s

/-- `STOP` with its guard met (R202, R40, R166). -/
def stopBlock (s : State) : State :=
  { s with outEn := false, cur := .const none, rdptr := .const none, irqEn := false, irqPend := false, run := false, req := 0#2 }

/-- `STOP` (R202): enabled when `REQ = 2`, `RUN = 1` and no tick is in progress or pending (R228);
a double stop is `refuse(lifecycle_misuse)` (R204). -/
def execStop (s : State) : Host.Outcome State Fault Refusal :=
  if s.req = 2#2 then
    if s.run then (if stopAllowed s then .next (stopBlock s) else .next s)
    else .refused .lifecycleMisuse
  else .next s

end Sys2Proof.Machine
end

