-- ==== Sys2Proof/Machine/Encoder.lean ====
section
/-! DEFINITION. The line encoder (41_line_encoder.md): `LANE_EXTRACT`, `INDEX6`, `PACK2`, `ENCODE_LINE`. -/

namespace Sys2Proof.Machine

/-- `LANE_EXTRACT l, px` (R131). -/
def execLaneExtract (l : Lane) (px : Pixel) (s : State) : Host.Outcome State Fault Refusal :=
  answer (.field (laneField s.cfg l px)) s

/-- `INDEX6 l, f` (R132). -/
def execIndex6 (l : Lane) (f : BitVec 16) (s : State) : Host.Outcome State Fault Refusal :=
  answer (.index (fieldIndex s.cfg l f)) s

/-- `PACK2 s0, s1` (R134). -/
def execPack2 (s0 s1 : Sym) (s : State) : Host.Outcome State Fault Refusal :=
  answer (.word (packSyms s0 s1)) s

/-- The word lane `l` makes of word `j` of source line `y`, from a memory (R136). -/
def lineWord (c : Cfg) (m : List Host.Cell) (y : Nat) (l : Lane) (j : Nat) : Word :=
  encodeWord c l (Memory.read32 m (fbAddr c y j))

/-- One pair of `ENCODE_LINE` (R136): one framebuffer read, one line-buffer word. -/
def encodePair (y : Nat) (b : Buf) (l : Lane) (j : Nat) (s : State) : State :=
  writeLineWord l b j (lineWord s.cfg s.mem y l j) s

/-- The value of `XFORM_BITS` bits a number stands for (R35; log 19). -/
def xformValue (c : Cfg) (v : Nat) : Nat := v % 2 ^ c.xformBits

/-- Whether an access of `n` bytes at `a` reaches the register block `REG_BASE + 0x00 .. 0xFF` (R29). DESIGN CHOICE (log 32): the block's addresses
are taken modulo 2^32, as the access's are (log 31). Unsafe for a `REG_BASE` above 2^32 - 0x100. -/
def touchesRegs (c : Cfg) (a : Addr) (n : Nat) : Bool :=
  (List.range n).any (fun k => decide ((a + BitVec.ofNat 32 k - c.regBase).toNat < 0x100))

/-- What another agent does between two reads of an `ENCODE_LINE` (R137, R138, R261). A store that reaches the register block
cannot fall inside the body (R73) and is passed over (log 14). -/
def foreignAct (a : EncAct) (s : State) : State :=
  match a with
  | .pair _ _ => s
  | .store x bs => if touchesRegs s.cfg x bs.length then s else { s with mem := Memory.writeBytes s.mem x bs }
  | .xformRead => { s with result := .xform s.xform }
  | .xformWrite v => { s with xform := xformValue s.cfg v }

/-- The acts of one `ENCODE_LINE` in order, each pair at most once (R136: every word exactly once). -/
def runActs (y : Nat) (b : Buf) : List EncAct → List (Lane × Nat) → State → State
  | [], _, s => s
  | .pair l j :: rest, done, s =>
    if (l, j) ∈ done ∨ ¬ j < s.cfg.hActive then runActs y b rest done s
    else runActs y b rest ((l, j) :: done) (encodePair y b l j s)
  | .store x bs :: rest, done, s => runActs y b rest done (foreignAct (.store x bs) s)
  | .xformRead :: rest, done, s => runActs y b rest done (foreignAct .xformRead s)
  | .xformWrite v :: rest, done, s => runActs y b rest done (foreignAct (.xformWrite v) s)

/-- All pairs of a line, lane by lane (R136). -/
def allPairs (c : Cfg) : List EncAct :=
  Lane.all.flatMap (fun l => (List.range c.hActive).map (EncAct.pair l))

/-- The first step of `ENCODE_LINE` (R138): `XFORM_SAVE <- XFORM ; XFORM <- ENC_XFORM`. The plan is used up (log 14). -/
def beginEncode (s : State) : State :=
  { s with xformSave := s.xform, xform := xformValue s.cfg s.cfg.encXform, encPlans := s.encPlans.tail }

/-- The last step of `ENCODE_LINE` (R138): `XFORM <- XFORM_SAVE`. -/
def endEncode (s : State) : State := { s with xform := s.xformSave }

/-- `ENCODE_LINE y, b` with operands in range (R136, R137): the plan's acts, then every pair the plan left out. -/
def encodeLine (y : Nat) (b : Buf) (s : State) : State :=
  endEncode (runActs y b ((s.encPlans.head?).getD [] ++ allPairs s.cfg) [] (beginEncode s))

/-- The buffer a number names (R130). -/
def bufOfNat (b : Nat) : Option Buf :=
  match b with
  | 0 => some .buf0
  | 1 => some .buf1
  | _ => none

/-- `ENCODE_LINE y, b` (R136), `refuse(encode_index)` out of range (R139). -/
def execEncodeLine (y b : Nat) (s : State) : Host.Outcome State Fault Refusal :=
  match bufOfNat b with
  | some k => if y < s.cfg.srcLines then .next (encodeLine y k s) else .refused .encodeIndex
  | none => .refused .encodeIndex

end Sys2Proof.Machine
end

