-- ==== Sys2Proof/Machine/Scanline.lean ====
section
/-! DEFINITION. The scanline state machine (43_scanline_fsm.md): `TICK_ENTER`, `TICK_BODY`, `CLASSIFY`. -/

namespace Sys2Proof.Machine

/-- `CLASSIFY n` (R184). -/
def execClassify (n : Nat) (s : State) : Host.Outcome State Fault Refusal :=
  answer (.band (classifyLine s.cfg n)) s

/-- `TICK_ENTER` (R181): takes the notification; where it is not enabled it is not taken. -/
def execTickEnter (s : State) : Host.Outcome State Fault Refusal :=
  if tickEnterEnabled s then .next (enterTick s) else .next s

/-- The line counter after the advance (R185): `LINE + 1`, or 0 where that is `V_TOTAL`. -/
def nextLine (s : State) : Nat := if s.line.toNat + 1 = s.cfg.vTotal then 0 else s.line.toNat + 1

/-- The frame counter after the advance (R185): one more, modulo 2^32, at the wrap and at no other line. -/
def nextFrame (s : State) : BitVec 32 := if s.line.toNat + 1 = s.cfg.vTotal then s.frame + 1#32 else s.frame

/-- `LINE` and `FRAME` after the advance (R185). -/
def advanceLine (s : State) : State := { s with line := BitVec.ofNat 16 (nextLine s), frame := nextFrame s }

/-- Position of a line in the Active band (R188). -/
def activePos (c : Cfg) (n : Nat) : Nat := n - (c.vSync + c.vBack + 1)

/-- The source line handed to the encoder at an even position (R190). -/
def sourceLine (c : Cfg) (p : Nat) : Nat := (p / 2 + c.nextSrcOffset.val) % c.srcLines

/-- The end of the body (R191, R230): the chain write, then the return. -/
def chainAndLeave (c : Cat) (s : State) : Host.Outcome State Fault Refusal :=
  andThen (execChain c s) (fun t => .next (leaveTick t))

/-- `BUFIDX <- 1 - BUFIDX` (R189). -/
def toggleBuf (s : State) : State := { s with bufIdx := s.bufIdx.other }

/-- The Active band's part of the body (R188 to R190): encode at even positions, toggle at odd ones. -/
def activeLine (p : Nat) (s : State) : Host.Outcome State Fault Refusal :=
  if p % 2 = 0 then
    andThen (execEncodeLine (sourceLine s.cfg p) s.bufIdx.other.num s) (fun t => chainAndLeave (Cat.active t.bufIdx) t)
  else chainAndLeave (Cat.active (toggleBuf s).bufIdx) (toggleBuf s)

/-- The body by band (R182, R186, R187): `n` is the advanced line counter. -/
def bodyOfLine (n : Nat) (s : State) : Host.Outcome State Fault Refusal :=
  match classifyLine s.cfg n with
  | .vsync => chainAndLeave .vsync s
  | .blanking => chainAndLeave .blank s
  | .active => activeLine (activePos s.cfg n) s

/-- `TICK_BODY` (R182); while its guard, the completion poll (R183), is false it is not taken. -/
def execTickBody (s : State) : Host.Outcome State Fault Refusal :=
  if tickBodyEnabled s then bodyOfLine (nextLine s) (advanceLine s) else .next s

end Sys2Proof.Machine
end

