-- ==== Sys2Proof/Machine/Symbols.lean ====
section
/-! DEFINITION. The symbol tables' operations (40_symbol_tables.md): `CTRLSYM`, `DATASYM`. -/

namespace Sys2Proof.Machine

/-- `CTRLSYM kind` (R120); kinds 5..7 are `refuse(bad_kind)` (R99). -/
def execCtrlsym (k : BitVec 3) (s : State) : Host.Outcome State Fault Refusal :=
  match ctrlSym? s.cfg k with
  | some w => answer (.word w) s
  | none => .refused .badKind

/-- `DATASYM idx` (R122). -/
def execDatasym (i : BitVec 6) (s : State) : Host.Outcome State Fault Refusal :=
  answer (.symbol (dataSymOf s.cfg i)) s

end Sys2Proof.Machine
end

