-- ==== Sys2Proof/Machine/Dispatch.lean ====
section
/-! DEFINITION. One arm per operation of the opcode table (30_encoding.md R98). -/

namespace Sys2Proof.Machine

def exec (i : Instr) (s : State) : Host.Outcome State Fault Refusal :=
  match i with
  | .start => Sys2Proof.Machine.execStart s
  | .stop => Sys2Proof.Machine.execStop s
  | .segPat l sel count ring irq => Sys2Proof.Machine.execSegPat l sel count ring irq s
  | .segBuf l b count ring irq => Sys2Proof.Machine.execSegBuf l b count ring irq s
  | .chain c => Sys2Proof.Machine.execChain c s
  | .ctrlsym k => Sys2Proof.Machine.execCtrlsym k s
  | .datasym idx => Sys2Proof.Machine.execDatasym idx s
  | .laneExtract l px => Sys2Proof.Machine.execLaneExtract l px s
  | .index6 l f => Sys2Proof.Machine.execIndex6 l f s
  | .pack2 s0 s1 => Sys2Proof.Machine.execPack2 s0 s1 s
  | .encodeLine y b => Sys2Proof.Machine.execEncodeLine y b s
  | .buildChains => Sys2Proof.Machine.execBuildChains s
  | .seqSlot => Sys2Proof.Machine.execSeqSlot s
  | .tickEnter => Sys2Proof.Machine.execTickEnter s
  | .tickBody => Sys2Proof.Machine.execTickBody s
  | .classify n => Sys2Proof.Machine.execClassify n s

end Sys2Proof.Machine
end

