-- ==== Sys2Proof/Machine/HostBus.lean ====
section
/-! DEFINITION. What comes from outside the block: the host's register and framebuffer accesses (10_state.md R29,
20_memory.md R60 to R64), other agents' accesses to `XFORM` (R35), the reset input (70_reset_and_hazards.md R250). -/

namespace Sys2Proof.Machine

/-- Offset of an address from `REG_BASE` (R29). DESIGN CHOICE (log 32): modulo 2^32, so a block that begins within 256 bytes of the top of the
address space goes on at address 0; the spec bounds `REG_BASE` nowhere. Unsafe there. -/
def regOffset (c : Cfg) (a : Addr) : Nat := (a - c.regBase).toNat

/-- An aligned 32-bit access to the register block (R63; log 16). -/
def regAccessOk (c : Cfg) (a : Addr) (n : Nat) : Bool :=
  decide (n = 4) && decide (a.toNat % 4 = 0) && decide (regOffset c a % 4 = 0)

/-- A host read of a diagnostics register (R28): any value when `DIAG_EN`, else zero. Log 11. -/
def readDiag (stored : Word) (s : State) : State :=
  if s.cfg.diagEn then { s with result := .word (Config.freeDiagRead s.freeCount stored), freeCount := s.freeCount + 1 }
  else { s with result := .word 0#32 }

/-- A host read of the register at an offset (R25 to R29). -/
def readReg (off : Nat) (s : State) : State :=
  match off with
  | 0x00 => { s with result := .word (s.req.setWidth 32) }
  | 0x04 => { s with result := .word (statusWord s) }
  | 0x08 => { s with result := .word (s.line.setWidth 32) }
  | 0x0C => { s with result := .word s.frame }
  | 0x10 => readDiag s.diagEntry s
  | 0x14 => readDiag s.diagExit s
  | _ => { s with result := .word 0#32 }

/-- Whether a request is a misuse (R203, R204): the flag is not 0, a start while running, a stop while stopped. -/
def requestMisused (w : Word) (s : State) : Bool :=
  s.req != 0#2 || (w == 1#32 && s.run) || (w == 2#32 && !s.run)

/-- A host write to `REQ` (R91, R99 (a), R203, R204). Log 17, log 18. -/
def writeReq (w : Word) (s : State) : Host.Outcome State Fault Refusal :=
  match decodeCmd w with
  | .error _ => .refused .badRequest
  | .ok _ => if requestMisused w s then .refused .lifecycleMisuse else .next { s with req := w.setWidth 2 }

/-- A host write to the register at an offset (R29): ignored but for `REQ`. -/
def writeReg (off : Nat) (w : Word) (s : State) : Host.Outcome State Fault Refusal :=
  match off with
  | 0x00 => writeReq w s
  | _ => .next s

/-- The 32-bit value four bytes make, little-endian (R62). -/
def wordOfBytes (bs : List Byte) : Word :=
  bs.getD 3 0#8 ++ bs.getD 2 0#8 ++ bs.getD 1 0#8 ++ bs.getD 0 0#8

/-- A host read (R29, R60, R61). Log 15. -/
def busRead (a : Addr) (n : Nat) (s : State) : Host.Outcome State Fault Refusal :=
  if touchesRegs s.cfg a n then
    if regAccessOk s.cfg a n then .next (readReg (regOffset s.cfg a) s) else .refused .badRegAccess
  else answer (.bytes (Memory.readBytes s.mem a n)) s

/-- A host write (R29, R60, R61). Log 15. -/
def busWrite (a : Addr) (bs : List Byte) (s : State) : Host.Outcome State Fault Refusal :=
  if touchesRegs s.cfg a bs.length then
    if regAccessOk s.cfg a bs.length then writeReg (regOffset s.cfg a) (wordOfBytes bs) s else .refused .badRegAccess
  else .next { s with mem := Memory.writeBytes s.mem a bs }

/-- The reset input (R250, R38): the block's state as after power-on. The configuration, the framebuffer (external, R61), the words
already sent and the model's own schedule, plans and draw counter stay (log 24). -/
def resetBlock (s : State) : State :=
  { State.resetWith s.cfg with
    mem := s.mem, out := s.out, sched := s.sched, encPlans := s.encPlans, freeCount := s.freeCount }

/-- One action from outside (R13, R35, R250). -/
def envStep (a : EnvAction) (s : State) : Host.Outcome State Fault Refusal :=
  match a with
  | .busRead x n => busRead x n s
  | .busWrite x bs => busWrite x bs s
  | .xformRead => answer (.xform s.xform) s
  | .xformWrite v => .next { s with xform := xformValue s.cfg v }
  | .resetInput => .next (resetBlock s)

end Sys2Proof.Machine
end

