-- ==== Sys2Proof/Machine/Fetch.lean ====
section
/-! DEFINITION. Which step is taken next: the schedule, where each format's word is fetched from (`REQ` for `CMD`, `Desc` at
`rdptr` for `DESC`), and the on-time choice where the schedule is empty (95_test_vectors.md section 3). -/

namespace Sys2Proof.Machine

/-- What the next step does, and on which state. -/
inductive Action where
  | run (i : Instr) (s : State)
  | env (a : EnvAction) (s : State)
  | idle (s : State)
  | fault (f : Fault)
  | refuse (r : Refusal)
deriving DecidableEq, Repr

/-- The state machine serves `REQ` (R200): 0 is no request; otherwise the word is decoded (R91). -/
def serveRequest (s : State) : Action :=
  if s.req = 0#2 then .idle s
  else
    match decodeCmd (s.req.setWidth 32) with
    | .ok i => .run i s
    | .error _ => .refuse .badRequest

/-- Lane `l` fetches from `Desc` (R157). -/
def fetchAction (l : Lane) (s : State) : Action :=
  match fetchDescriptor s l with
  | .error f => .fault f
  | .ok d => if Descriptor.reserved s.cfg l d then .fault .badDescriptor else .run (d.toInstr l) s

/-- One entry of the schedule. -/
def eventAction (e : Event) (s : State) : Action :=
  match e with
  | .env a => .env a s
  | .serve => serveRequest s
  | .fetch l => fetchAction l s
  | .op i => .run i s

/-- A request is waiting and may be served (R201, R202, R228). -/
def requestReady (s : State) : Bool := s.req != 0#2 && (s.req != 2#2 || stopAllowed s)

/-- The choice where the schedule is empty. DESIGN CHOICE (log 4): the on-time schedule of 95_test_vectors.md section 3, a tick before a
request (R228), a request before a slot; with nothing enabled the block waits. -/
def onTimeAction (s : State) : Action :=
  if tickBodyEnabled s then .run .tickBody s
  else if tickEnterEnabled s then .run .tickEnter s
  else if requestReady s then serveRequest s
  else if slotEnabled s then .run .seqSlot s
  else .idle s

/-- The next step: refused under a `Cfg` outside R10, else the schedule's head, else the on-time choice. -/
def nextAction (s : State) : Action :=
  if s.cfg.valid then
    match s.sched with
    | [] => onTimeAction s
    | e :: rest => eventAction e { s with sched := rest }
  else .refuse .badCfg

/-- Where a bare word's lane fetches: its pointer, or the arming pointer `(BLANK, 0)` (R165) where it has none. -/
def fetchPtr (l : Lane) (s : State) : Ptr := (s.rdptr.get l).getD ⟨.blank, 0#2⟩

/-- The state with an encoded value placed where the next step fetches it: a `CMD` word in `REQ`, a `DESC` word in `Desc` at the
lane's pointer, an operand of the other formats in the schedule (log 5). -/
def placeEncoded (e : Encoded) (s : State) : State :=
  match e with
  | .cmd w => { s with req := w.setWidth 2, sched := .serve :: s.sched }
  | .desc l w =>
    { writeDesc l (fetchPtr l s) w (setRdptr l (some (fetchPtr l s)) s) with sched := .fetch l :: s.sched }
  | .cat c => { s with sched := .op (.chain (decodeCat c)) :: s.sched }
  | .kind k => { s with sched := .op (.ctrlsym k) :: s.sched }
  | .idx i => { s with sched := .op (.datasym i) :: s.sched }

end Sys2Proof.Machine
end

