-- ==== Sys2Proof/Machine/Step.lean ====
section
/-! DEFINITION. The one step of the machine, and a word placed where it is fetched. -/

namespace Sys2Proof.Machine

/-- One step (R13): whatever `nextAction` chooses. -/
def step (s : State) : Host.Outcome State Fault Refusal :=
  match nextAction s with
  | .run i t => exec i t
  | .env a t => envStep a t
  | .idle t => .next t
  | .fault f => .fault f
  | .refuse r => .refused r

/-- The state with a table row's word placed where the next step fetches its instruction (log 5). -/
def State.withFetchWord (s : State) (nbits w : Nat) : State :=
  match tableFormat nbits w with
  | some e => placeEncoded e s
  | none => s

end Sys2Proof.Machine
end

