-- ==== Sys2Proof/Machine/Written.lean ====
section
/-! DEFINITION. The written forms of 30_encoding.md R101 and the pseudo-operations of R102: what each encodes, and which entries
of the schedule each stands for. -/

namespace Sys2Proof.Machine

/-- The written forms (R101, R102); `wholeRing l c` (written `ring l, c`) and `ticks n` are the two pseudo-operations. -/
inductive Written where
  | reqStart
  | reqStop
  | segPat (kind : BitVec 3) (count : BitVec 16) (ring : BitVec 2)
  | segPatIrq (kind : BitVec 3) (count : BitVec 16) (ring : BitVec 2)
  | segBuf (b : Buf) (count : BitVec 16) (ring : BitVec 2)
  | chain (c : Cat)
  | notify
  | slot
  | tick
  | wholeRing (l : Lane) (c : Cat)
  | ticks (n : Nat)
deriving DecidableEq, Repr

/-- The words a written form encodes (R101; R102 for `ring`), none for the events. -/
def Written.words (c : Cfg) : Written → List Word
  | .reqStart => [0x00000001#32]
  | .reqStop => [0x00000002#32]
  | .segPat kind count ring => [encodeDesc ⟨.pat, kind, count, ring, false⟩]
  | .segPatIrq kind count ring => [encodeDesc ⟨.pat, kind, count, ring, true⟩]
  | .segBuf b count ring => [encodeDesc ⟨.buf, b.sel, count, ring, false⟩]
  | .chain k => [(encodeCat k).setWidth 32]
  | .notify => []
  | .slot => []
  | .tick => []
  | .wholeRing l k => (lineDescs c l k).map encodeDesc
  | .ticks _ => []

/-- The host write of a word to `REQ` (R101: `MemWrite(REG_BASE + 0x00, 4, w)`). -/
def reqWrite (c : Cfg) (w : Word) : Event :=
  .env (.busWrite c.regBase [w.extractLsb' 0 8, w.extractLsb' 8 8, w.extractLsb' 16 8, w.extractLsb' 24 8])

/-- The schedule entries of the forms that are one or two steps (R101). -/
def Written.events (c : Cfg) : Written → List Event
  | .reqStart => [reqWrite c 0x00000001#32]
  | .reqStop => [reqWrite c 0x00000002#32]
  | .segPat _ _ _ => []
  | .segPatIrq _ _ _ => []
  | .segBuf _ _ _ => []
  | .chain k => [.op (.chain k)]
  | .notify => []
  | .slot => [.op .seqSlot]
  | .tick => [.op .tickEnter, .op .tickBody]
  | .wholeRing _ _ => []
  | .ticks _ => []

/-- `slot`, `n` times. -/
def runSlots : Nat → State → Host.Outcome State Fault Refusal
  | 0, s => .next s
  | n + 1, s => andThen (exec .seqSlot s) (runSlots n)

/-- `slot` until `IRQ_PEND = 1`, at most `fuel` times (R102). -/
def slotsUntilPending : Nat → State → Host.Outcome State Fault Refusal
  | 0, s => .next s
  | n + 1, s => if s.irqPend then .next s else andThen (exec .seqSlot s) (slotsUntilPending n)

/-- `tick` (R101): one `TICK_ENTER` followed by its `TICK_BODY`. -/
def runTick (s : State) : Host.Outcome State Fault Refusal := andThen (exec .tickEnter s) (exec .tickBody)

/-- `ticks n` (R102): `n` times, `slot` until `IRQ_PEND = 1`, then `tick`. A line is `H_TOTAL` slots (R154), so no wait is longer. -/
def runTicks : Nat → State → Host.Outcome State Fault Refusal
  | 0, s => .next s
  | n + 1, s => andThen (andThen (slotsUntilPending s.cfg.hTotal s) runTick) (runTicks n)

end Sys2Proof.Machine
end

