-- ==== Sys2Proof/Safety.lean ====
section
/-! DEFINITION. The terms claims are made in: which schedules hold only the agents' own steps, the invariants of a run, what a
line looks like on the wire (R169), and what a torn read may see (R137). -/

namespace Sys2Proof.Machine

/-! ### Schedules -/

/-- The steps the state machine and the sequencer take by themselves (R13). -/
def isAgentStep : Instr → Bool
  | .start => true
  | .stop => true
  | .segPat _ _ _ _ _ => false
  | .segBuf _ _ _ _ _ => false
  | .chain _ => false
  | .ctrlsym _ => false
  | .datasym _ => false
  | .laneExtract _ _ => false
  | .index6 _ _ => false
  | .pack2 _ _ => false
  | .encodeLine _ _ => false
  | .buildChains => false
  | .seqSlot => true
  | .tickEnter => true
  | .tickBody => true
  | .classify _ => false

/-- An entry that is a move of an agent of R13, of unrelated code on `XFORM`, or the reset input. -/
def isAgentEvent : Event → Bool
  | .env _ => true
  | .serve => true
  | .fetch _ => false
  | .op i => isAgentStep i

/-- The schedule holds no stimulus of the model (log 6). -/
def agentsOnly (s : State) : Prop := s.sched.all isAgentEvent = true

/-! ### Invariants -/

/-- Memory and line buffers are in canonical form. -/
structure Canonical (s : State) : Prop where
  mem : Memory.wf s.mem = true
  lineBuf : ∀ l b, Assoc.sorted ((s.lineBuf.get l).get b) = true

/-- The values registers hold: `REQ` is not the reserved 3 (R25), `LINE` is in `[0, V_TOTAL)` (R21), `XFORM` has `XFORM_BITS` bits (R35). -/
structure RegistersLegal (s : State) : Prop where
  req : s.req ≠ 3#2
  line : s.line.toNat < s.cfg.vTotal
  xform : s.xform < 2 ^ s.cfg.xformBits
  xformSave : s.xformSave < 2 ^ s.cfg.xformBits

/-- The flags as R39 and R40 leave them: `OUT_EN` and `IRQ_EN` follow `RUN`; nothing is pending or polling in a stopped block (R250). -/
structure FlagsFollowRun (s : State) : Prop where
  outEn : s.outEn = s.run
  irqEn : s.irqEn = s.run
  irqPend : s.run = false → s.irqPend = false
  polling : s.run = false → s.polling = false

/-- Lane `l` is `n` slots into segment `i` of a line of category `k` (R33, R152, R153, R157, R161): its record is the descriptor's with
`rem` counted down and `off` counted up, and its pointer names the segment after, in the same ring unless it is back at index 0. -/
def LaneInSegment (s : State) (l : Lane) (k : Cat) (i n : Nat) : Prop :=
  ∃ d p, (lineDescs s.cfg l k)[i]? = some d ∧ n < d.count.toNat ∧
    s.cur.get l = some { segOf d with
      rem := d.count.toNat - n, off := (match d.kind with | .pat => 0 | .buf => n) } ∧
    s.rdptr.get l = some p ∧ p.idx.toNat = (i + 1) % l.nseg ∧ (p.idx ≠ 0#2 → p.cat = k)

/-- Slots of a line before segment `i` of a lane begins (R152, R153). -/
def segStart (c : Cfg) (l : Lane) (i : Nat) : Nat :=
  (((lineDescs c l .blank).take i).map (fun d => d.count.toNat)).sum

/-- Every lane is in the same slot of its line: `pos` slots are done on each (R154, R262). -/
def LanesAt (s : State) (pos : Nat) : Prop :=
  ∀ l, ∃ k i n, LaneInSegment s l k i n ∧ segStart s.cfg l i + n = pos

/-- The sequencer between its steps: armed exactly while `RUN = 1` (R39, R40), with the built descriptors (R70), filled line
buffers (R39) and its lanes in step (R154). -/
structure Sequencing (s : State) : Prop where
  stopped : s.run = false → s.cur = .const none ∧ s.rdptr = .const none
  desc : s.run = true → s.desc = builtDesc s.cfg
  filled : s.run = true → ∀ l b j, j < s.cfg.hActive → (readLineWord s l b j).isSome = true
  lanes : s.run = true → ∃ pos, pos < s.cfg.hTotal ∧ LanesAt s pos

/-- A tick is due: its notification is pending, or taken with its body still to run (R181, R182). -/
def tickDue (s : State) : Prop := s.irqPend = true ∨ s.polling = true

/-- The deadline is missed (R254): the next step is a slot, it is the last of its line, and the tick of that line is still due. -/
def LateSlot (s : State) : Prop :=
  tickDue s ∧ LanesAt s (s.cfg.hTotal - 1) ∧ ∃ u, nextAction s = .run .seqSlot u

/-- The invariant of a run that meets every deadline (R254), whatever else is scheduled. While a tick is due the lanes are in the window of
the line that raised it, and a line buffer being sent is the one `BUFIDX` names; only one of pending and polling holds; a pointer into
an `ACTIVE` ring names `BUFIDX`. -/
structure OnTime (s : State) : Prop where
  flags : FlagsFollowRun s
  seq : Sequencing s
  one : ¬(s.irqPend = true ∧ s.polling = true)
  ptr : ∀ l p b, s.rdptr.get l = some p → p.cat = Cat.active b → b = s.bufIdx
  due : tickDue s →
    (∃ pos, s.cfg.hFront + s.cfg.hSync + s.cfg.hBack ≤ pos ∧ pos < s.cfg.hTotal ∧ LanesAt s pos) ∧
      ∀ l g, s.cur.get l = some g → g.kind = .buf → g.sel = s.bufIdx.sel

/-- Whether the coming `TICK_BODY` encodes: an even position of the active band (R190). -/
def bodyEncodes (s : State) : Prop :=
  classifyLine s.cfg (nextLine s) = .active ∧ activePos s.cfg (nextLine s) % 2 = 0

/-- What a segment loaded into lane `l` leaves (R157): its record, the pointer one further modulo `2^RING`, nothing else; a lane with no pointer
still has none (the model's choice, log 33). -/
def SegmentLoaded (s : State) (l : Lane) (d : Descriptor) (t : State) : Prop :=
  t.cur.get l = some ⟨d.kind, d.sel, d.count.toNat, 0, d.irq, d.ring⟩ ∧
  (∀ c i, s.rdptr.get l = some ⟨c, i⟩ →
    ∃ i' : BitVec 2, t.rdptr.get l = some ⟨c, i'⟩ ∧ i'.toNat = (i.toNat + 1) % 2 ^ d.ring.toNat) ∧
  (s.rdptr.get l = none → t.rdptr.get l = none) ∧
  (∀ l', l' ≠ l → t.cur.get l' = s.cur.get l' ∧ t.rdptr.get l' = s.rdptr.get l') ∧
  t = { s with cur := t.cur, rdptr := t.rdptr }

/-! ### One line on the wire (R169) -/

/-- The word lane `l` sends in slot `n` of a line of category `k` (R169), nothing where a line buffer was never written. -/
def wireWord (s : State) (k : Cat) (l : Lane) (n : Nat) : Option Word :=
  let c := s.cfg
  let pre := c.hFront + c.hSync + c.hBack
  if n < pre then
    match l with
    | .lane0 => ctrlSym? c (if c.hFront ≤ n ∧ n < c.hFront + c.hSync then pulseKind k else porchKind k)
    | .lane1 => ctrlSym? c 0#3
    | .lane2 => ctrlSym? c 0#3
  else
    match k with
    | .vsync => ctrlSym? c (match l with | .lane0 => 2#3 | .lane1 => 4#3 | .lane2 => 4#3)
    | .blank => ctrlSym? c 4#3
    | .active0 => readLineWord s l .buf0 (n - pre)
    | .active1 => readLineWord s l .buf1 (n - pre)

/-- Every lane is at the first slot of a line of category `k` (R161, R169). -/
def AtLineStart (s : State) (k : Cat) : Prop := ∀ l, LaneInSegment s l k 0 0

/-! ### Reads inside an `ENCODE_LINE` (R137) -/

/-- The plan of the next `ENCODE_LINE` (log 14). -/
def planOf (s : State) : List EncAct := (s.encPlans.head?).getD []

/-- The memories the reads of an `ENCODE_LINE` may see: the one at its start and the one after each foreign store (R68, R137). -/
def imagesOf (c : Cfg) (m : List Host.Cell) : List EncAct → List (List Host.Cell)
  | [] => [m]
  | .pair _ _ :: rest => imagesOf c m rest
  | .store a bs :: rest =>
    if touchesRegs c a bs.length then imagesOf c m rest else m :: imagesOf c (Memory.writeBytes m a bs) rest
  | .xformRead :: rest => imagesOf c m rest
  | .xformWrite _ :: rest => imagesOf c m rest

/-- No host store falls inside (R137). -/
def noStores (plan : List EncAct) : Prop := ∀ a bs, EncAct.store a bs ∉ plan

/-- No other agent reads `XFORM` inside (R138). -/
def noReads (plan : List EncAct) : Prop := EncAct.xformRead ∉ plan

/-! ### The inverse of the data symbol table (R123) -/

/-- `DATA_SYM_INV`: the index of a symbol, if it is one of the table's. -/
def dataSymInv (c : Cfg) (s : Sym) : Option (BitVec 6) :=
  ((List.range 64).map (BitVec.ofNat 6)).find? (fun i => dataSymOf c i == s)

end Sys2Proof.Machine
end

