-- ==== Sys2Proof/Certificates/Slice0/Obligations.lean ====
section
/-! DEFINITION. The statements for the provers. Each docstring names the rule of `spec/` it formalises. -/

open Sys2Proof Sys2Proof.Machine

/-! ### Encodings (30_encoding.md) -/

/-- Every legal encoded operation is read back with every operand it was written with (R91, R92, R94, R95, R96). -/
def Obligations.EncodedOperationsDecodeBack : Prop :=
  ∀ (c : Cfg) (i : Instr) (e : Encoded), i.wellFormed c = true → encode i = some e → decode e = .ok i

/-- Every word the decoder accepts has one meaning: encoding that meaning gives the word back, bit for bit (R91, R92, R94, R95, R96). -/
def Obligations.DecodedWordsEncodeBack : Prop :=
  ∀ (e : Encoded) (i : Instr), decode e = .ok i → encode i = some e

/-- The decoder reads each field of a `DESC` word from the bits R92 gives it, and accepts no word with bits [31:23] set. -/
def Obligations.DescriptorFieldsStandAtTheirBits : Prop :=
  ∀ (w : Word) (d : Descriptor), decodeDesc w = .ok d →
    d.count.toNat = w.toNat % 2 ^ 16 ∧ d.sel.toNat = w.toNat / 2 ^ 16 % 2 ^ 3 ∧
    (d.kind = .buf ↔ w.toNat / 2 ^ 19 % 2 = 1) ∧ d.ring.toNat = w.toNat / 2 ^ 20 % 2 ^ 2 ∧
    (d.irq = true ↔ w.toNat / 2 ^ 22 % 2 = 1) ∧ w.toNat / 2 ^ 23 = 0

/-- Words written out from R91, R92, R94, R95, R96 decode to what they stand for. -/
def Obligations.SampleWordsDecode : Prop :=
  decode (.cmd 0x00000001#32) = .ok .start ∧ decode (.cmd 0x00000002#32) = .ok .stop ∧
  decode (.desc .lane0 0x00620001#32) = .ok (.segPat .lane0 2#3 1#16 2#2 true) ∧
  decode (.desc .lane0 0x00290002#32) = .ok (.segBuf .lane0 .buf1 2#16 2#2 false) ∧
  decode (.desc .lane2 0x00100004#32) = .ok (.segPat .lane2 0#3 4#16 1#2 false) ∧
  decode (.cat 3#2) = .ok (.chain .active1) ∧ decode (.kind 1#3) = .ok (.ctrlsym 1#3) ∧
  decode (.idx 63#6) = .ok (.datasym 63#6)

/-- What the reserved encodings do (R99): a host write to `REQ` that is neither 1 nor 2, a fetch of a reserved descriptor,
`CTRLSYM` with kind 5..7; and `BUILD_CHAINS` makes no reserved descriptor. -/
def Obligations.ReservedEncodingsStop : Prop :=
  (∀ (s : State) (w : Word), s.cfg.regBase.toNat % 4 = 0 → w ≠ 1#32 → w ≠ 2#32 →
    envStep (.busWrite s.cfg.regBase [w.extractLsb' 0 8, w.extractLsb' 8 8, w.extractLsb' 16 8, w.extractLsb' 24 8]) s =
      .refused .badRequest) ∧
  (∀ (s : State) (l : Lane) (p : Ptr) (w : Word), s.rdptr.get l = some p → readDesc s l p = some w →
    (w.toNat % 2 ^ 16 = 0 ∨ w.toNat / 2 ^ 23 ≠ 0 ∨ w.toNat / 2 ^ 20 % 4 ≠ l.ring.toNat ∨
      (w.getLsbD 19 = false ∧ 5 ≤ w.toNat / 2 ^ 16 % 8) ∨ (w.getLsbD 19 = true ∧ 2 ≤ w.toNat / 2 ^ 16 % 8) ∨
      (w.getLsbD 19 = true ∧ s.cfg.hActive < w.toNat % 2 ^ 16)) →
    fetchLane l s = .error .badDescriptor) ∧
  (∀ (s : State) (k : BitVec 3), 5 ≤ k.toNat → exec (.ctrlsym k) s = .refused .badKind) ∧
  (∀ (c : Cfg) (l : Lane) (k : Cat) (d : Descriptor), c.valid = true → d ∈ lineDescs c l k → d.reserved c l = false)

/-! ### Registers and the host (10_state.md, 20_memory.md) -/

/-- `STATUS` (R26): a host read of it answers the six bits, the rest zero, and changes nothing else; a host write of it changes nothing. Where
`REG_BASE + 4` is past the top of the address space the spec names no address; `RegisterReadsFollowTheMap` and
`ReadOnlyRegistersIgnoreWrites` say what the model does there. -/
def Obligations.StatusBits : Prop :=
  ∀ s : State, s.cfg.regBase.toNat % 4 = 0 → s.cfg.regBase.toNat + 4 < 2 ^ 32 →
    (∃ v : Word, envStep (.busRead (s.cfg.regBase + 4#32) 4) s = .next { s with result := .word v } ∧
      v.toNat = s.run.toNat + 2 * s.outEn.toNat + 4 * s.irqEn.toNat + 8 * s.irqPend.toNat +
        16 * s.bufIdx.num + 32 * s.polling.toNat) ∧
    ∀ b0 b1 b2 b3 : Byte, envStep (.busWrite (s.cfg.regBase + 4#32) [b0, b1, b2, b3]) s = .next s

/-- What a host read of each offset of the register block answers, with nothing else changed (R25, R26, R27, R28, R29).
The two diagnostics offsets are stated for `DIAG_EN = 0`; with `DIAG_EN = 1` only that the read completes, since any value may come.
Where `REG_BASE` is so high that the block passes the top of the address space, that it goes on at address 0 is the model's choice (log 32). -/
def Obligations.RegisterReadsFollowTheMap : Prop :=
  ∀ (s : State) (n : Nat), s.cfg.regBase.toNat % 4 = 0 → n < 64 →
    ∃ v, envStep (.busRead (s.cfg.regBase + BitVec.ofNat 32 (4 * n)) 4) s =
        .next { s with
          result := .word v
          freeCount := if s.cfg.diagEn = true ∧ (n = 4 ∨ n = 5) then s.freeCount + 1 else s.freeCount } ∧
      (n = 0 → v.toNat = s.req.toNat) ∧ (n = 1 → v = statusWord s) ∧ (n = 2 → v.toNat = s.line.toNat) ∧
      (n = 3 → v = s.frame) ∧ (n = 4 ∨ n = 5 → s.cfg.diagEn = false → v = 0#32) ∧ (6 ≤ n → v = 0#32)

/-- A host write to any register but `REQ`, and to the unused offsets, changes nothing (R29). A block that passes the top of the address space
goes on at address 0 (the model's choice, log 32). -/
def Obligations.ReadOnlyRegistersIgnoreWrites : Prop :=
  ∀ (s : State) (n : Nat) (b0 b1 b2 b3 : Byte), s.cfg.regBase.toNat % 4 = 0 → 1 ≤ n → n < 64 →
    envStep (.busWrite (s.cfg.regBase + BitVec.ofNat 32 (4 * n)) [b0, b1, b2, b3]) s = .next s

/-- The register block takes aligned 32-bit accesses only (R63): another width or an address that is no multiple of 4 (log 16), reaching the block,
is refused. A block that passes the top of the address space goes on at address 0 (the model's choice, log 32). -/
def Obligations.BadRegisterAccessRefused : Prop :=
  ∀ (s : State) (off : Nat) (bs : List Byte), off < 0x100 → bs ≠ [] →
    (bs.length ≠ 4 ∨ (s.cfg.regBase + BitVec.ofNat 32 off).toNat % 4 ≠ 0) →
    envStep (.busWrite (s.cfg.regBase + BitVec.ofNat 32 off) bs) s = .refused .badRegAccess ∧
    envStep (.busRead (s.cfg.regBase + BitVec.ofNat 32 off) bs.length) s = .refused .badRegAccess

/-- A legal request: written while `REQ = 0`, 1 in a stopped block or 2 in a running one, it stands in `REQ` and changes nothing else (R203). -/
def Obligations.LegalRequestIsTaken : Prop :=
  ∀ s : State, s.cfg.regBase.toNat % 4 = 0 → s.req = 0#2 →
    (s.run = false → envStep (.busWrite s.cfg.regBase [1#8, 0#8, 0#8, 0#8]) s = .next { s with req := 1#2 }) ∧
    (s.run = true → envStep (.busWrite s.cfg.regBase [2#8, 0#8, 0#8, 0#8]) s = .next { s with req := 2#2 })

/-- Misuse of the request flag has no meaning (R203, R204): the host's write of a double start or a double stop, a host write to a `REQ` that
is not 0, a host write of another value (R99). The model's own choices: that `START` and `STOP` refuse too where a state holds such a request
(log 17), and that another value is `bad_request` also while `REQ` is not 0 (log 18). -/
def Obligations.LifecycleMisuseRefused : Prop :=
  ∀ s : State,
    (s.req = 1#2 → s.run = true → exec .start s = .refused .lifecycleMisuse) ∧
    (s.req = 2#2 → s.run = false → exec .stop s = .refused .lifecycleMisuse) ∧
    (s.cfg.regBase.toNat % 4 = 0 → s.req = 0#2 →
      (s.run = true → envStep (.busWrite s.cfg.regBase [1#8, 0#8, 0#8, 0#8]) s = .refused .lifecycleMisuse) ∧
      (s.run = false → envStep (.busWrite s.cfg.regBase [2#8, 0#8, 0#8, 0#8]) s = .refused .lifecycleMisuse)) ∧
    (s.cfg.regBase.toNat % 4 = 0 → ∀ b0 b1 b2 b3 : Byte,
      (s.req ≠ 0#2 →
        envStep (.busWrite s.cfg.regBase [b0, b1, b2, b3]) s = .refused .lifecycleMisuse ∨
        envStep (.busWrite s.cfg.regBase [b0, b1, b2, b3]) s = .refused .badRequest) ∧
      ((b3 ++ b2 ++ b1 ++ b0 : Word) ≠ 1#32 → (b3 ++ b2 ++ b1 ++ b0 : Word) ≠ 2#32 →
        envStep (.busWrite s.cfg.regBase [b0, b1, b2, b3]) s = .refused .badRequest))

/-- A host write to the framebuffer space stores its bytes and leaves every other byte and everything else alone (R60, R61, R64, R68).
That a store over the top of the address space goes on at address 0 is the model's choice (log 31). -/
def Obligations.HostStoreThenReadByte : Prop :=
  ∀ (s : State) (a : Addr) (bs : List Byte), Memory.wf s.mem = true → bs.length ≤ 2 ^ 32 →
    touchesRegs s.cfg a bs.length = false →
    ∃ t, envStep (.busWrite a bs) s = .next t ∧ t = { s with mem := t.mem } ∧
      (∀ k, ∀ h : k < bs.length, Memory.read t.mem (a + BitVec.ofNat 32 k) = bs[k]) ∧
      ∀ x : Addr, bs.length ≤ (x - a).toNat → Memory.read t.mem x = Memory.read s.mem x

/-- A host read of the framebuffer space answers its bytes (R60, R61, R64), another agent's read of `XFORM` its value and its write stores one
(R35, R138); nothing else changes, memory neither. A read over the top of the address space goes on at address 0 (the model's choice,
log 31), a value of more than `XFORM_BITS` bits is reduced to them (log 19), and an answer stands in the model's own `result` (log 7). -/
def Obligations.OutsideReadsAnswerAndXformIsWritten : Prop :=
  ∀ s : State,
    (∀ (a : Addr) (n : Nat), touchesRegs s.cfg a n = false →
      ∃ bs : List Byte, envStep (.busRead a n) s = .next { s with result := .bytes bs } ∧ bs.length = n ∧
        ∀ k, ∀ h : k < bs.length, bs[k] = Memory.read s.mem (a + BitVec.ofNat 32 k)) ∧
    envStep .xformRead s = .next { s with result := .xform s.xform } ∧
    ∀ v, envStep (.xformWrite v) s = .next { s with xform := v % 2 ^ s.cfg.xformBits }

/-- Byte order (R62): `MemRead(a, 4)` is little-endian, the pixel with the lower `x` is bits [15:0], the other bits [31:16]. -/
def Obligations.MemReadIsLittleEndian : Prop :=
  ∀ (m : List Host.Cell) (a : Addr),
    (Memory.read32 m a).toNat = (Memory.read m a).toNat + 2 ^ 8 * (Memory.read m (a + 1#32)).toNat +
      2 ^ 16 * (Memory.read m (a + 2#32)).toNat + 2 ^ 24 * (Memory.read m (a + 3#32)).toNat ∧
    ((Memory.read32 m a).extractLsb' 0 16).toNat = (Memory.read m a).toNat + 2 ^ 8 * (Memory.read m (a + 1#32)).toNat ∧
    ((Memory.read32 m a).extractLsb' 16 16).toNat =
      (Memory.read m (a + 2#32)).toNat + 2 ^ 8 * (Memory.read m (a + 3#32)).toNat

/-- Nothing from outside but the reset input writes what the block owns (R24, R232): ScanState, the flags, the sequencer, the line
buffers, the descriptors. -/
def Obligations.OutsideWritesNoBlockState : Prop :=
  ∀ (a : EnvAction) (s t : State), a ≠ .resetInput → envStep a s = .next t →
    t = { s with req := t.req, xform := t.xform, mem := t.mem, result := t.result, freeCount := t.freeCount }

/-! ### Symbol tables (40_symbol_tables.md) -/

/-- `CTRLSYM` (R120): kinds 0..4 answer their table word, whose bits [31:20] are zero, and change nothing else; kinds 5..7 are refused. -/
def Obligations.CtrlsymAnswersItsWord : Prop :=
  ∀ (s : State) (k : BitVec 3),
    (∀ h : k.toNat < 5, exec (.ctrlsym k) s = .next { s with result := .word s.cfg.ctrlSym[k.toNat] } ∧
      (s.cfg.valid = true → s.cfg.ctrlSym[k.toNat].toNat / 2 ^ 20 = 0)) ∧
    (5 ≤ k.toNat → exec (.ctrlsym k) s = .refused .badKind)

/-- `DATASYM` (R122) is total: it answers its table entry and changes nothing else. -/
def Obligations.DatasymAnswersItsSymbol : Prop :=
  ∀ (s : State) (i : BitVec 6), exec (.datasym i) s = .next { s with result := .symbol (s.cfg.dataSym[i.toNat]) }

/-! ### Line encoder (41_line_encoder.md) -/

/-- `LANE_EXTRACT` (R131): the field `(px >> FIELD_LSB) & (2^FIELD_WIDTH - 1)`, nothing else changed. -/
def Obligations.LaneExtractAnswersTheField : Prop :=
  ∀ (s : State) (l : Lane) (px : Pixel), s.cfg.valid = true →
    ∃ f : BitVec 16, exec (.laneExtract l px) s = .next { s with result := .field f } ∧
      f.toNat = px.toNat / 2 ^ s.cfg.fieldLsb.get l % 2 ^ s.cfg.fieldWidth.get l

/-- `INDEX6` (R132): the field value shifted left to six bits, nothing else changed. -/
def Obligations.Index6AnswersTheShiftedField : Prop :=
  ∀ (s : State) (l : Lane) (f : BitVec 16), s.cfg.valid = true → f.toNat < 2 ^ s.cfg.fieldWidth.get l →
    ∃ i : BitVec 6, exec (.index6 l f) s = .next { s with result := .index i } ∧
      i.toNat = f.toNat * 2 ^ (6 - s.cfg.fieldWidth.get l)

/-- `PACK2` (R134): `s0` in bits [9:0], `s1` in bits [19:10], bits [31:20] zero, nothing else changed. -/
def Obligations.Pack2PutsTheFirstSymbolLow : Prop :=
  ∀ (s : State) (s0 s1 : Sym), ∃ w : Word, exec (.pack2 s0 s1) s = .next { s with result := .word w } ∧
    w.toNat = s0.toNat + 2 ^ 10 * s1.toNat

/-- The data symbols have an inverse (R123), and the round trip of R133: from the symbol a lane sends for a pixel, the inverse table and the
shift back give the lane's field. -/
def Obligations.LaneFieldRoundTrip : Prop :=
  ∀ c : Cfg, c.valid = true →
    (∀ i : BitVec 6, dataSymInv c (dataSymOf c i) = some i) ∧
    ∀ (l : Lane) (px : Pixel), ∃ i : BitVec 6, dataSymInv c (dataSymOf c (fieldIndex c l (laneField c l px))) = some i ∧
      i.toNat / 2 ^ (6 - c.fieldWidth.get l) = (laneField c l px).toNat

/-- `ENCODE_LINE` with no host store inside (R136, R140): every word of the three lanes of buffer `b` is what the pseudocode gives; the other
buffer, `XFORM` and everything else stay. The observer's `result` is the model's own (log 7) and may change through another agent's read. -/
def Obligations.EncodeLineFillsTheBuffer : Prop :=
  ∀ (s : State) (y : Nat) (b : Buf), y < s.cfg.srcLines → noStores (planOf s) →
    ∃ t, exec (.encodeLine y b.num) s = .next t ∧
      (∀ l j, j < s.cfg.hActive →
        let w := Memory.read32 s.mem (BitVec.ofNat 32 (s.cfg.fbBase + y * s.cfg.fbStride + 4 * j))
        let i0 := fieldIndex s.cfg l (laneField s.cfg l (w.extractLsb' 0 16))
        let i1 := fieldIndex s.cfg l (laneField s.cfg l (w.extractLsb' 16 16))
        readLineWord t l b j = some (packSyms (dataSymOf s.cfg i0) (dataSymOf s.cfg i1))) ∧
      (∀ l j, s.cfg.hActive ≤ j → readLineWord t l b j = readLineWord s l b j) ∧
      (∀ l j, readLineWord t l b.other j = readLineWord s l b.other j) ∧
      t = { s with lineBuf := t.lineBuf, xformSave := s.xform, encPlans := s.encPlans.tail, result := t.result }

/-- Torn reads (R137, R68): whatever order the reads take and whatever the host stores between them, every word comes from one of the
memories the line passed through, the operation completes, every store has landed in the memory it leaves, and it changes nothing but the
words of the line in buffer `b` and what the others changed. -/
def Obligations.EncodeLineTornReads : Prop :=
  ∀ (s : State) (y : Nat) (b : Buf), y < s.cfg.srcLines →
    ∃ t, exec (.encodeLine y b.num) s = .next t ∧
      (∀ l j, j < s.cfg.hActive →
        ∃ m ∈ imagesOf s.cfg s.mem (planOf s), readLineWord t l b j = some (lineWord s.cfg m y l j)) ∧
      (∀ l j, s.cfg.hActive ≤ j → readLineWord t l b j = readLineWord s l b j) ∧
      (∀ l j, readLineWord t l b.other j = readLineWord s l b.other j) ∧
      (imagesOf s.cfg s.mem (planOf s)).getLast? = some t.mem ∧
      t = { s with
        lineBuf := t.lineBuf, mem := t.mem, xformSave := s.xform, encPlans := s.encPlans.tail, result := t.result }

/-- The shared unit (R138): after `ENCODE_LINE` `XFORM` is as at its first step, whatever others wrote in between; a read in between, where no
one has written, answers `ENC_XFORM`. -/
def Obligations.EncodeLineRestoresXform : Prop :=
  ∀ (s : State) (y : Nat) (b : Buf), y < s.cfg.srcLines →
    ∃ t, exec (.encodeLine y b.num) s = .next t ∧ t.xform = s.xform ∧ t.xformSave = s.xform ∧
      (EncAct.xformRead ∈ planOf s → (∀ v, EncAct.xformWrite v ∉ planOf s) →
        t.result = .xform (s.cfg.encXform % 2 ^ s.cfg.xformBits))

/-- `ENCODE_LINE` out of range is refused (R139). -/
def Obligations.EncodeIndexOutOfRangeRefused : Prop :=
  ∀ (s : State) (y b : Nat), s.cfg.srcLines ≤ y ∨ 2 ≤ b → exec (.encodeLine y b) s = .refused .encodeIndex

/-- A line of one colour (R141): every word of a lane is the pixel's symbol twice. -/
def Obligations.SolidColourLine : Prop :=
  ∀ (s : State) (y : Nat) (b : Buf) (px : Pixel), y < s.cfg.srcLines → noStores (planOf s) →
    (∀ j, j < s.cfg.hActive →
      Memory.read32 s.mem (BitVec.ofNat 32 (s.cfg.fbBase + y * s.cfg.fbStride + 4 * j)) = px ++ px) →
    ∃ t, exec (.encodeLine y b.num) s = .next t ∧
      ∀ l j, j < s.cfg.hActive → readLineWord t l b j =
        some (packSyms (dataSymOf s.cfg (fieldIndex s.cfg l (laneField s.cfg l px)))
          (dataSymOf s.cfg (fieldIndex s.cfg l (laneField s.cfg l px))))

/-! ### Chains and sequencer (42_chain_sequencer.md) -/

/-- `BUILD_CHAINS` in a stopped block writes the rings of R152 and R153 and nothing else; in a running one it is refused (R151). -/
def Obligations.BuildChainsWritesTheRings : Prop :=
  ∀ s : State, (s.run = true → exec .buildChains s = .refused .buildWhileArmed) ∧
    (s.run = false → ∃ t, exec .buildChains s = .next t ∧ t = { s with desc := t.desc } ∧
      let seg := fun (kind : SegKind) (sel : BitVec 3) (n : Nat) (ring : BitVec 2) (irq : Bool) =>
        some (encodeDesc ⟨kind, sel, BitVec.ofNat 16 n, ring, irq⟩)
      let ringOf := fun (l : Lane) (k : Cat) => [0#2, 1#2, 2#2, 3#2].map (fun i => readDesc t l ⟨k, i⟩)
      let f := s.cfg.hFront
      let y := s.cfg.hSync
      let b := s.cfg.hBack
      let a := s.cfg.hActive
      ringOf .lane0 .vsync = [seg .pat 2 f 2 false, seg .pat 3 y 2 false, seg .pat 2 b 2 true, seg .pat 2 a 2 false] ∧
      ringOf .lane0 .blank = [seg .pat 0 f 2 false, seg .pat 1 y 2 false, seg .pat 0 b 2 true, seg .pat 4 a 2 false] ∧
      ringOf .lane0 .active0 = [seg .pat 0 f 2 false, seg .pat 1 y 2 false, seg .pat 0 b 2 true, seg .buf 0 a 2 false] ∧
      ringOf .lane0 .active1 = [seg .pat 0 f 2 false, seg .pat 1 y 2 false, seg .pat 0 b 2 true, seg .buf 1 a 2 false] ∧
      ∀ l, l ≠ .lane0 →
        (∀ k, k = .vsync ∨ k = .blank →
          ringOf l k = [seg .pat 0 (f + y + b) 1 false, seg .pat 4 a 1 false, none, none]) ∧
        ringOf l .active0 = [seg .pat 0 (f + y + b) 1 false, seg .buf 0 a 1 false, none, none] ∧
        ringOf l .active1 = [seg .pat 0 (f + y + b) 1 false, seg .buf 1 a 1 false, none, none])

/-- Every ring of every lane lasts `H_TOTAL` slots, and its last segment begins `H_FRONT + H_SYNC + H_BACK` slots in (R154). -/
def Obligations.RingsLastOneLine : Prop :=
  ∀ (c : Cfg) (l : Lane) (k : Cat), c.valid = true →
    (lineDescs c l k).length = l.nseg ∧
    ((lineDescs c l k).map (fun d => d.count.toNat)).sum = c.hTotal ∧
    (((lineDescs c l k).take (l.nseg - 1)).map (fun d => d.count.toNat)).sum = c.hFront + c.hSync + c.hBack

/-- `SEG_PAT` and `SEG_BUF` in a legal form (R155, R156, R157): the segment becomes the lane's, the pointer advances modulo `2^RING`, the other
lanes and everything else stay. A lane with no pointer, where the spec gives no fetch, still has none (the model's choice, log 33). -/
def Obligations.SegmentLoadsIntoItsLane : Prop :=
  ∀ (s : State) (l : Lane) (sel : BitVec 3) (b : Buf) (count : BitVec 16) (ring : BitVec 2) (irq : Bool),
    ((Instr.segPat l sel count ring irq).wellFormed s.cfg = true →
      ∃ t, exec (.segPat l sel count ring irq) s = .next t ∧ SegmentLoaded s l ⟨.pat, sel, count, ring, irq⟩ t) ∧
    ((Instr.segBuf l b count ring irq).wellFormed s.cfg = true →
      ∃ t, exec (.segBuf l b count ring irq) s = .next t ∧ SegmentLoaded s l ⟨.buf, b.sel, count, ring, irq⟩ t)

/-- `SEG_PAT` and `SEG_BUF` in a reserved form are `fault(bad_descriptor)` (R99 (b), R155, R156). -/
def Obligations.ReservedSegmentFaults : Prop :=
  ∀ (s : State) (l : Lane) (sel : BitVec 3) (b : Buf) (count : BitVec 16) (ring : BitVec 2) (irq : Bool),
    ((Instr.segPat l sel count ring irq).wellFormed s.cfg = false →
      exec (.segPat l sel count ring irq) s = .fault .badDescriptor) ∧
    ((Instr.segBuf l b count ring irq).wellFormed s.cfg = false →
      exec (.segBuf l b count ring irq) s = .fault .badDescriptor)

/-- A pattern segment sends its ControlSymbol in each of its slots (R155): for as many slots as are left of it. -/
def Obligations.PatternSegmentSendsItsSymbol : Prop :=
  ∀ (n : Nat) (s t : State) (l : Lane) (g : Seg), slotEnabled s = true → s.cur.get l = some g → g.kind = .pat →
    n ≤ g.rem → runSlots n s = .next t →
    ∃ ws, t.out = s.out ++ ws ∧ ws.length = n ∧ ∀ w ∈ ws, ctrlSym? s.cfg g.sel = some (w.get l)

/-- A line-buffer segment sends its buffer word by word (R156): the `k`-th slot from here gives the word `off + k`. -/
def Obligations.BufferSegmentSendsItsWords : Prop :=
  ∀ (n : Nat) (s t : State) (l : Lane) (g : Seg) (b : Buf), slotEnabled s = true → s.cur.get l = some g → g.kind = .buf →
    g.sel = b.sel → n ≤ g.rem → runSlots n s = .next t →
    ∃ ws, t.out = s.out ++ ws ∧ ws.length = n ∧
      ∀ k, ∀ h : k < ws.length, readLineWord s l b (g.off + k) = some (ws[k].get l)

/-- `SEQ_SLOT` where it is enabled (R159, R160), for the segments `g`, words `w` and, on a lane whose segment completes, next descriptors `d`:
the words join the output, `rem` falls, `off` rises on a line buffer, a completing lane notifies if its segment asks for it and
fetches, and nothing else changes. -/
def Obligations.SeqSlotAdvancesEveryLane : Prop :=
  ∀ (s : State) (g : Lane → Seg) (w : Lane → Word) (p : Lane → Ptr) (d : Lane → Descriptor), s.run = true → s.outEn = true →
    (∀ l, s.cur.get l = some (g l) ∧ 1 ≤ (g l).rem) →
    (∀ l, ((g l).kind = .pat → ctrlSym? s.cfg (g l).sel = some (w l)) ∧
      ((g l).kind = .buf → ∃ b : Buf, (g l).sel = b.sel ∧ readLineWord s l b (g l).off = some (w l))) →
    (∀ l, (g l).rem = 1 → s.rdptr.get l = some (p l) ∧ (d l).reserved s.cfg l = false ∧
      ∃ x, readDesc s l (p l) = some x ∧ decodeDesc x = .ok (d l)) →
    ∃ t, exec .seqSlot s = .next t ∧
      t.out = s.out ++ [⟨w .lane0, w .lane1, w .lane2⟩] ∧
      (∀ l, 1 < (g l).rem → t.rdptr.get l = s.rdptr.get l ∧
        t.cur.get l = some { g l with
          rem := (g l).rem - 1, off := (match (g l).kind with | .pat => (g l).off | .buf => (g l).off + 1) }) ∧
      (∀ l, (g l).rem = 1 →
        t.cur.get l = some ⟨(d l).kind, (d l).sel, (d l).count.toNat, 0, (d l).irq, (d l).ring⟩ ∧
        ∃ i' : BitVec 2, t.rdptr.get l = some ⟨(p l).cat, i'⟩ ∧ i'.toNat = ((p l).idx.toNat + 1) % 2 ^ (d l).ring.toNat) ∧
      (t.irqPend = true ↔ s.irqPend = true ∨ ∃ l, (g l).rem = 1 ∧ (g l).irq = true) ∧
      t = { s with cur := t.cur, rdptr := t.rdptr, irqPend := t.irqPend, out := t.out }

/-- `CHAIN` (R162): in the window it points every lane at `(c, 0)` and changes nothing else, so the last of two wins and the same category again
changes nothing; outside it is `fault(chain_outside_window)`. -/
def Obligations.ChainRepointsInTheWindow : Prop :=
  ∀ (s : State) (c : Cat),
    ((∀ l, ∃ k, s.rdptr.get l = some ⟨k, 0#2⟩) →
      ∃ t, exec (.chain c) s = .next t ∧ (∀ l, t.rdptr.get l = some ⟨c, 0#2⟩) ∧ t = { s with rdptr := t.rdptr } ∧
        (∀ c', exec (.chain c') t = exec (.chain c') s) ∧ ((∀ l, s.rdptr.get l = some ⟨c, 0#2⟩) → t = s)) ∧
    ((∃ l, ∀ k, s.rdptr.get l ≠ some ⟨k, 0#2⟩) → exec (.chain c) s = .fault .chainOutsideWindow)

/-- The window (R163): a lane's `fetch_rem` is 0 exactly where its pointer is back at index 0; while the block runs, every `fetch_rem` is 0 exactly in the last `H_ACTIVE` slots of the line; before, lane 0 has 3, 2
or 1 and lanes 1 and 2 have 1. -/
def Obligations.WindowIsTheActiveWidth : Prop :=
  ∀ (s : State) (pos : Nat), s.cfg.valid = true → pos < s.cfg.hTotal → LanesAt s pos →
    (∀ l, fetchRem s l = some 0 ↔ ∃ k, s.rdptr.get l = some ⟨k, 0#2⟩) ∧
    ((∀ l, fetchRem s l = some 0) ↔ s.cfg.hFront + s.cfg.hSync + s.cfg.hBack ≤ pos) ∧
    ((∀ l, fetchRem s l = some 0) ↔ windowOpen s = true) ∧
    (pos < s.cfg.hFront + s.cfg.hSync + s.cfg.hBack →
      fetchRem s .lane1 = some 1 ∧ fetchRem s .lane2 = some 1 ∧
        (fetchRem s .lane0 = some 3 ∨ fetchRem s .lane0 = some 2 ∨ fetchRem s .lane0 = some 1))

/-! ### Scanline state machine (43_scanline_fsm.md) -/

/-- `TICK_ENTER` (R181) where it is enabled clears `IRQ_PEND` and sets `POLLING`; `DIAG_ENTRY` may change when `DIAG_EN` (R28); nothing else does. -/
def Obligations.TickEnterTakesTheNotification : Prop :=
  ∀ s : State, s.run = true → s.irqEn = true → s.irqPend = true → s.polling = false →
    ∃ t, exec .tickEnter s = .next t ∧
      t = { s with irqPend := false, polling := true, diagEntry := t.diagEntry, freeCount := t.freeCount } ∧
      (s.cfg.diagEn = false → t.diagEntry = s.diagEntry ∧ t.freeCount = s.freeCount)

/-- Steps that are not enabled produce nothing: `SEQ_SLOT` while `RUN = 0`, `OUT_EN = 0` or a lane has no segment (R160); `TICK_ENTER` while one
of its four conditions fails (R181); `TICK_BODY` while `POLLING` is not set or some lane is outside the window, the completion poll (R183); `START` while
`REQ` is not 1 (R201); `STOP` while `REQ` is not 2 (R202), and while a tick is in progress or an enabled notification is pending (R228). That such a step, when scheduled, leaves the state as it is is the model's form (log 3). -/
def Obligations.StepsNotEnabledAreNotTaken : Prop :=
  ∀ s : State,
    (s.run = false ∨ s.outEn = false ∨ (∃ l, s.cur.get l = none) → exec .seqSlot s = .next s) ∧
    (s.run = false ∨ s.irqEn = false ∨ s.irqPend = false ∨ s.polling = true → exec .tickEnter s = .next s) ∧
    (s.polling = false ∨ (∃ l, ∀ k, s.rdptr.get l ≠ some ⟨k, 0#2⟩) → exec .tickBody s = .next s) ∧
    (s.req ≠ 1#2 → exec .start s = .next s) ∧
    (s.req ≠ 2#2 → exec .stop s = .next s) ∧
    (s.req = 2#2 → s.run = true → s.polling = true ∨ (s.irqPend = true ∧ s.irqEn = true) → exec .stop s = .next s)

/-- `TICK_BODY` in the VSync and Blanking bands (R182, R185, R186, R187): the counters advance, the band's category is chained on every lane, the
tick ends, and nothing else changes but `DIAG_EXIT` when `DIAG_EN` (R28). -/
def Obligations.TickBodyOutsideTheActiveBand : Prop :=
  ∀ (s : State) (n : Nat), n = (if s.line.toNat + 1 = s.cfg.vTotal then 0 else s.line.toNat + 1) →
    s.polling = true → (∀ l, ∃ k, s.rdptr.get l = some ⟨k, 0#2⟩) → classifyLine s.cfg n ≠ .active →
    ∃ t, exec .tickBody s = .next t ∧ t.line = BitVec.ofNat 16 n ∧
      t.frame = (if s.line.toNat + 1 = s.cfg.vTotal then s.frame + 1#32 else s.frame) ∧
      (classifyLine s.cfg n = .vsync → ∀ l, t.rdptr.get l = some ⟨.vsync, 0#2⟩) ∧
      (classifyLine s.cfg n = .blanking → ∀ l, t.rdptr.get l = some ⟨.blank, 0#2⟩) ∧
      (s.cfg.diagEn = false → t.diagExit = s.diagExit ∧ t.freeCount = s.freeCount) ∧
      t = { s with
        line := t.line, frame := t.frame, rdptr := t.rdptr, polling := false, diagExit := t.diagExit, freeCount := t.freeCount }

/-- `TICK_BODY` at an even position of the active band (R182, R190, R192): source line `(p div 2 + NEXT_SRC_OFFSET) mod SRC_LINES` is encoded into
the buffer that is not `BUFIDX`, and `ACTIVE0 + BUFIDX`, the other buffer's category, is chained; with host stores inside, each word comes
from one of the memories the line passed through (R137) and every store lands, and with none the framebuffer stays. -/
def Obligations.TickBodyEncodesAtEvenPositions : Prop :=
  ∀ (s : State) (n p : Nat), s.cfg.valid = true →
    n = (if s.line.toNat + 1 = s.cfg.vTotal then 0 else s.line.toNat + 1) → p + (s.cfg.vSync + s.cfg.vBack + 1) = n →
    s.polling = true → (∀ l, ∃ k, s.rdptr.get l = some ⟨k, 0#2⟩) → classifyLine s.cfg n = .active → p % 2 = 0 →
    ∃ t, exec .tickBody s = .next t ∧ t.line = BitVec.ofNat 16 n ∧
      (∀ l, t.rdptr.get l = some ⟨Cat.active s.bufIdx, 0#2⟩) ∧
      (∀ l j, j < s.cfg.hActive → ∃ m ∈ imagesOf s.cfg s.mem (planOf s), readLineWord t l s.bufIdx.other j =
        some (lineWord s.cfg m ((p / 2 + s.cfg.nextSrcOffset.val) % s.cfg.srcLines) l j)) ∧
      (∀ l j, s.cfg.hActive ≤ j → readLineWord t l s.bufIdx.other j = readLineWord s l s.bufIdx.other j) ∧
      (∀ l j, readLineWord t l s.bufIdx j = readLineWord s l s.bufIdx j) ∧
      (imagesOf s.cfg s.mem (planOf s)).getLast? = some t.mem ∧
      (noStores (planOf s) → t.mem = s.mem ∧ ∀ l j, j < s.cfg.hActive → readLineWord t l s.bufIdx.other j =
        some (lineWord s.cfg s.mem ((p / 2 + s.cfg.nextSrcOffset.val) % s.cfg.srcLines) l j)) ∧
      (s.cfg.diagEn = false → t.diagExit = s.diagExit ∧ t.freeCount = s.freeCount) ∧
      t = { s with
        line := t.line, rdptr := t.rdptr, lineBuf := t.lineBuf, mem := t.mem, polling := false, xformSave := s.xform,
        encPlans := s.encPlans.tail, result := t.result, diagExit := t.diagExit, freeCount := t.freeCount }

/-- `TICK_BODY` at an odd position of the active band (R182, R189): no encode; `BUFIDX` is toggled and the category of the new buffer is
chained; `FRAME` stays. -/
def Obligations.TickBodyTogglesAtOddPositions : Prop :=
  ∀ (s : State) (n p : Nat),
    n = (if s.line.toNat + 1 = s.cfg.vTotal then 0 else s.line.toNat + 1) → p + (s.cfg.vSync + s.cfg.vBack + 1) = n →
    s.polling = true → (∀ l, ∃ k, s.rdptr.get l = some ⟨k, 0#2⟩) → classifyLine s.cfg n = .active → p % 2 = 1 →
    ∃ t, exec .tickBody s = .next t ∧ t.line = BitVec.ofNat 16 n ∧ t.bufIdx = s.bufIdx.other ∧
      (∀ l, t.rdptr.get l = some ⟨Cat.active s.bufIdx.other, 0#2⟩) ∧
      (s.cfg.diagEn = false → t.diagExit = s.diagExit ∧ t.freeCount = s.freeCount) ∧
      t = { s with
        line := t.line, bufIdx := t.bufIdx, rdptr := t.rdptr, polling := false, diagExit := t.diagExit, freeCount := t.freeCount }

/-- Every tick body that is enabled completes and advances the counters (R185): `LINE` by one modulo `V_TOTAL`, `FRAME` by one modulo 2^32
at the wrap and at no other tick. -/
def Obligations.EveryTickAdvancesTheCounters : Prop :=
  ∀ s : State, s.cfg.valid = true → s.line.toNat < s.cfg.vTotal → s.polling = true →
    (∀ l, ∃ k, s.rdptr.get l = some ⟨k, 0#2⟩) →
    ∃ t, exec .tickBody s = .next t ∧ t.line.toNat = (s.line.toNat + 1) % s.cfg.vTotal ∧
      t.frame.toNat = (s.frame.toNat + (if t.line.toNat = 0 then 1 else 0)) % 2 ^ 32 ∧ t.polling = false

/-- `CLASSIFY` (R184) answers the band of `n` and changes nothing else. -/
def Obligations.ClassifyAnswersTheBand : Prop :=
  ∀ (s : State) (n : Nat), n < s.cfg.vTotal →
    ∃ b : Band, exec (.classify n) s = .next { s with result := .band b } ∧
      (b = .vsync ↔ 1 ≤ n ∧ n ≤ s.cfg.vSync) ∧
      (b = .active ↔ s.cfg.vSync + s.cfg.vBack + 1 ≤ n ∧ n ≤ s.cfg.vSync + s.cfg.vBack + s.cfg.vActive)

/-- In one frame the bands occur `V_SYNC`, `V_BACK + V_FRONT` and `V_ACTIVE` times (R195). -/
def Obligations.BandsOfOneFrame : Prop :=
  ∀ c : Cfg, c.valid = true →
    (List.range c.vTotal).countP (fun n => classifyLine c n == .vsync) = c.vSync ∧
    (List.range c.vTotal).countP (fun n => classifyLine c n == .blanking) = c.vBack + c.vFront ∧
    (List.range c.vTotal).countP (fun n => classifyLine c n == .active) = c.vActive

/-- Line doubling (R193): of the positions of one frame's active band `SRC_LINES` encode and `SRC_LINES` toggle, and with either
`NEXT_SRC_OFFSET` every source line is the operand of exactly one encode. -/
def Obligations.OneEncodePerSourceLine : Prop :=
  ∀ c : Cfg, c.valid = true →
    (List.range c.vActive).countP (fun p => p % 2 == 0) = c.srcLines ∧
    (List.range c.vActive).countP (fun p => p % 2 == 1) = c.srcLines ∧
    ∀ y, y < c.srcLines →
      (List.range c.vActive).countP (fun p => p % 2 == 0 && sourceLine c p == y) = 1

/-! ### Lifecycle (44_lifecycle.md) -/

/-- `START` from a stopped block with `REQ = 1` (R201) leaves what R39 says: filled buffers, ScanState zero, the built chains (the rings
`BUILD_CHAINS` writes), every lane armed on the `BLANK` ring, the flags set, `REQ` 0; the framebuffer, `XFORM` and everything else stay.
What it does to the output sequence is not stated here. -/
def Obligations.StartLeavesTheArmedBlock : Prop :=
  ∀ s : State, s.cfg.valid = true → s.req = 1#2 → s.run = false →
    ∃ t, exec .start s = .next t ∧
      t.line = 0#16 ∧ t.frame = 0#32 ∧ t.bufIdx = .buf0 ∧
      (∀ l b j, j < s.cfg.hActive → readLineWord t l b j = some s.cfg.ctrlSym[4]) ∧
      exec .buildChains s = .next { s with desc := t.desc } ∧
      (∀ l, ∃ w d, readDesc t l ⟨.blank, 0#2⟩ = some w ∧ decodeDesc w = .ok d ∧
        t.cur.get l = some ⟨d.kind, d.sel, d.count.toNat, 0, d.irq, d.ring⟩) ∧
      (∀ l, t.rdptr.get l = some ⟨.blank, 1#2⟩) ∧
      t.irqEn = true ∧ t.irqPend = false ∧ t.polling = false ∧ t.run = true ∧ t.outEn = true ∧ t.req = 0#2 ∧
      t = { s with
        line := t.line, frame := t.frame, bufIdx := t.bufIdx, lineBuf := t.lineBuf, desc := t.desc, cur := t.cur,
        rdptr := t.rdptr, irqEn := t.irqEn, irqPend := t.irqPend, polling := t.polling, run := t.run, outEn := t.outEn,
        req := t.req, out := t.out }

/-- `STOP` of a running block with `REQ = 2` and no tick in progress or pending (R202) leaves what R40 says; ScanState, the buffers, the
descriptors and everything else stay. -/
def Obligations.StopLeavesTheIdleBlock : Prop :=
  ∀ s : State, s.req = 2#2 → s.run = true → s.polling = false → ¬(s.irqPend = true ∧ s.irqEn = true) →
    ∃ t, exec .stop s = .next t ∧ t.outEn = false ∧ (∀ l, t.cur.get l = none ∧ t.rdptr.get l = none) ∧
      t.irqEn = false ∧ t.irqPend = false ∧ t.polling = false ∧ t.run = false ∧ t.req = 0#2 ∧
      t = { s with
        outEn := t.outEn, cur := t.cur, rdptr := t.rdptr, irqEn := t.irqEn, irqPend := t.irqPend, run := t.run, req := t.req }

/-! ### Reset (70_reset_and_hazards.md) -/

/-- The state after power-on reset (R38), for every configuration, and what the reset input leaves of any state (R250). `LineBuf` and `Desc` hold
nothing: a fetch by a lane with a pointer is `fault(uninit)`; that one by a lane with none is too is the model's choice (log 13). The values of `XFORM` and the diagnostics are the model's choice (log 10, log 11) and not stated here. -/
def Obligations.ResetLeavesTheIdleBlock : Prop :=
  ∀ (s t : State), (∃ c, t = State.resetWith c) ∨ envStep .resetInput s = .next t →
    t.req = 0#2 ∧ t.run = false ∧ t.outEn = false ∧ t.irqEn = false ∧ t.irqPend = false ∧ t.polling = false ∧
    t.line = 0#16 ∧ t.frame = 0#32 ∧ t.bufIdx = .buf0 ∧
    (∀ l, t.cur.get l = none ∧ t.rdptr.get l = none) ∧
    (∀ l b j, readLineWord t l b j = none) ∧ (∀ l p, readDesc t l p = none) ∧ ∀ l p, fetchLane l (setRdptr l p t) = .error .uninit

/-! ### The whole machine -/

/-- Who may write what (R21 to R25, R31, R32, R61, R138, R224): ScanState only `START` and `TICK_BODY`; the line buffers only `START`,
`ENCODE_LINE` and `TICK_BODY`; the descriptors only `START` and `BUILD_CHAINS`; `IRQ_PEND` is set only by `SEQ_SLOT`; `REQ` is only ever
written 0; the output sequence grows in `SEQ_SLOT` alone and is counted from `START` (the model's reading of R14, log 8); `XFORM` is as before after every operation; the framebuffer is written by none, but by a host store inside an `ENCODE_LINE`. -/
def Obligations.OnlyTheNamedOperationsWrite : Prop :=
  ∀ (i : Instr) (s t : State), exec i s = .next t →
    (i ≠ .start → i ≠ .tickBody → t.line = s.line ∧ t.frame = s.frame ∧ t.bufIdx = s.bufIdx) ∧
    (i ≠ .start → i ≠ .tickBody → (∀ y b, i ≠ .encodeLine y b) → t.lineBuf = s.lineBuf) ∧
    (i ≠ .start → i ≠ .buildChains → t.desc = s.desc) ∧
    (t.irqPend = true → s.irqPend = true ∨ i = .seqSlot) ∧
    (t.req = s.req ∨ t.req = 0#2) ∧
    (t.out = s.out ∨ (i = .start ∧ t.out = []) ∨ (i = .seqSlot ∧ ∃ w, t.out = s.out ++ [w])) ∧ t.xform = s.xform ∧ t.cfg = s.cfg ∧
    (noStores (planOf s) → t.mem = s.mem)

/-- No result depends on `XFORM` (R35): from two states that differ in `XFORM` and `XFORM_SAVE` alone, with no other agent reading it inside,
every operation ends the same way, and in the same state but for the two. -/
def Obligations.NoResultDependsOnXform : Prop :=
  ∀ (i : Instr) (s : State) (x y : Nat), noReads (planOf s) →
    match exec i s, exec i { s with xform := x, xformSave := y } with
    | .next t, .next u => { t with xform := 0, xformSave := 0 } = { u with xform := 0, xformSave := 0 }
    | .fault f, .fault f' => f = f'
    | .refused r, .refused r' => r = r'
    | _, _ => False

/-- A step runs the decoded instruction: the head of the schedule as it stands; for `serve` the command in `REQ` (R91, R200); for a fetch the
descriptor at the lane's pointer (R157); the entry is used up and nothing else is touched before `exec`. An action from outside is `envStep`. -/
def Obligations.StepRunsTheDecodedInstruction : Prop :=
  ∀ (s : State) (rest : List Event), s.cfg.valid = true →
    (∀ i, s.sched = .op i :: rest → step s = exec i { s with sched := rest }) ∧
    (∀ i, s.sched = .serve :: rest → s.req ≠ 0#2 → decode (.cmd (s.req.setWidth 32)) = .ok i →
      step s = exec i { s with sched := rest }) ∧
    (∀ l p w i, s.sched = .fetch l :: rest → s.rdptr.get l = some p → readDesc s l p = some w →
      decode (.desc l w) = .ok i → i.wellFormed s.cfg = true → step s = exec i { s with sched := rest }) ∧
    (∀ a, s.sched = .env a :: rest → step s = envStep a { s with sched := rest })

/-- A `Cfg` that breaks a constraint is refused (R10), and every step keeps the `Cfg`, which is no state (R36). -/
def Obligations.BadConfigurationRefusedGoodOneKept : Prop :=
  ∀ s : State, (s.cfg.valid = false → step s = .refused .badCfg) ∧ (∀ t, step s = .next t → t.cfg = s.cfg)

/-- Every step keeps memory and line buffers in canonical form, whatever is scheduled. -/
def Obligations.StepKeepsCanonicalForm : Prop :=
  ∀ s t : State, Canonical s → step s = .next t → Canonical t

/-- Every step keeps the registers legal (R21, R25, R35) and the flags in step with `RUN` (R30, R39, R40), whatever is scheduled. -/
def Obligations.StepKeepsRegistersAndFlagsLegal : Prop :=
  ∀ s t : State, RegistersLegal s → FlagsFollowRun s → step s = .next t → RegistersLegal t ∧ FlagsFollowRun t

/-- Lane synchrony and all it rests on (R70, R154, R161, R262): every step of an agent, of unrelated code and of the reset input keeps the sequencer's
invariant, on time or late. -/
def Obligations.StepKeepsLanesInStep : Prop :=
  ∀ s t : State, agentsOnly s → FlagsFollowRun s → Sequencing s → step s = .next t → agentsOnly t ∧ Sequencing t

/-- The invariants hold after reset, under every valid configuration. -/
def Obligations.ResetMeetsTheInvariants : Prop :=
  ∀ c : Cfg, c.valid = true →
    Canonical (State.resetWith c) ∧ RegistersLegal (State.resetWith c) ∧ FlagsFollowRun (State.resetWith c) ∧
      Sequencing (State.resetWith c) ∧ agentsOnly (State.resetWith c) ∧ OnTime (State.resetWith c)

/-- In a running block every slot is taken and sends a word on every lane (R160): no reserved descriptor and no unwritten word is met. -/
def Obligations.RunningBlockAlwaysSends : Prop :=
  ∀ s : State, s.cfg.valid = true → FlagsFollowRun s → Sequencing s → s.run = true →
    ∃ t w, exec .seqSlot s = .next t ∧ t.out = s.out ++ [w]

/-- The poll is bounded by the line (R183): in a running block the window opens within `H_TOTAL` slots. -/
def Obligations.WindowOpensWithinOneLine : Prop :=
  ∀ s : State, s.cfg.valid = true → FlagsFollowRun s → Sequencing s → s.run = true →
    ∃ n t, n < s.cfg.hTotal ∧ runSlots n s = .next t ∧ windowOpen t = true

/-- One line on the wire (R169, R161, R159): from the first slot of a line of category `k`, `H_TOTAL` slots send exactly the words of R169, the
notification is raised by the slot that ends the back porch, and, nobody re-pointing the ring, the lanes stand at the first slot of such a
line again. -/
def Obligations.OneLineOnTheWire : Prop :=
  ∀ (s : State) (k : Cat), s.cfg.valid = true → FlagsFollowRun s → Sequencing s → s.run = true → AtLineStart s k →
    ∃ t ws, runSlots s.cfg.hTotal s = .next t ∧ t.out = s.out ++ ws ∧ ws.length = s.cfg.hTotal ∧
      (∀ n, ∀ h : n < ws.length, ∀ l, wireWord s k l n = some (ws[n].get l)) ∧
      (∀ n u, n ≤ s.cfg.hTotal → runSlots n s = .next u →
        (u.irqPend = true ↔ s.irqPend = true ∨ s.cfg.hFront + s.cfg.hSync + s.cfg.hBack ≤ n)) ∧
      AtLineStart t k

/-- A run that meets its deadlines keeps the invariant (R192, R254): whatever the agents, the host, unrelated code and the reset input do, as long as
no tick is still due at the last slot of its line. With nothing scheduled the deadline is never missed; that is about the model's own order of
the agents (log 4). -/
def Obligations.OnTimeRunStaysOnTime : Prop :=
  ∀ s : State, OnTime s → (s.sched = [] → ¬ LateSlot s) ∧
    ∀ t, agentsOnly s → ¬ LateSlot s → step s = .next t → OnTime t

/-- The double-buffer invariant for the sequencer (R192, under the premise of R254, which `OnTime` states): a tick body that encodes in a run that
meets its deadlines, in whichever step it runs, finds no lane sending from the buffer it writes, and leaves no lane pointed at that buffer's ring. -/
def Obligations.OnTimeEncodeNeverMeetsTheBufferBeingSent : Prop :=
  ∀ s t : State, OnTime s → tickBodyEnabled s = true → bodyEncodes s → exec .tickBody s = .next t →
    (∀ l g, s.cur.get l = some g → g.kind = .buf → g.sel ≠ s.bufIdx.other.sel) ∧
    (∀ l p, t.rdptr.get l = some p → p.cat ≠ Cat.active s.bufIdx.other) ∧ t.cur = s.cur ∧ t.bufIdx = s.bufIdx
end

