-- ==== Sys2Proof/Laws/Assoc.lean ====
section
/-! SUPPORT. Lists of key and value with strictly rising keys: reading after writing, frames, and the canonical order kept. -/

namespace Sys2Proof.Machine

variable {α : Type}

/-- Every key is above `lo` when there is one, as a proposition about the list. -/
theorem Assoc.sortedFrom_weaken {lo lo' : Nat} (h : lo' ≤ lo) :
    ∀ {m : List (Nat × α)}, Assoc.sortedFrom (some lo) m = true → Assoc.sortedFrom (some lo') m = true
  | [], _ => rfl
  | (k, _) :: rest, hm => by
    simp only [Assoc.sortedFrom, Bool.and_eq_true, decide_eq_true_eq] at hm ⊢
    exact ⟨by omega, hm.2⟩

theorem Assoc.sorted_of_sortedFrom {lo : Nat} :
    ∀ {m : List (Nat × α)}, Assoc.sortedFrom (some lo) m = true → Assoc.sorted m = true
  | [], _ => rfl
  | (k, _) :: rest, hm => by
    simp only [Assoc.sorted, Assoc.sortedFrom, Bool.and_eq_true, Bool.true_and] at hm ⊢
    exact hm.2

/-- A key at or below the bound is not listed. -/
theorem Assoc.lookup_below {lo k : Nat} (hk : k ≤ lo) :
    ∀ {m : List (Nat × α)}, Assoc.sortedFrom (some lo) m = true → Assoc.lookup k m = none
  | [], _ => rfl
  | (k', v) :: rest, hm => by
    simp only [Assoc.sortedFrom, Bool.and_eq_true, decide_eq_true_eq] at hm
    have hne : k ≠ k' := by omega
    simp only [Assoc.lookup, hne, if_false]
    exact Assoc.lookup_below (by omega) hm.2

@[simp] theorem Assoc.lookup_insert_same (k : Nat) (v : α) :
    ∀ m : List (Nat × α), Assoc.lookup k (Assoc.insert k v m) = some v
  | [] => by simp [Assoc.insert, Assoc.lookup]
  | (k', v') :: rest => by
    unfold Assoc.insert
    split_ifs with h1 h2
    · simp [Assoc.lookup]
    · simp [Assoc.lookup]
    · simp only [Assoc.lookup, h2, if_false]
      exact Assoc.lookup_insert_same k v rest

theorem Assoc.lookup_insert_ne {k j : Nat} (h : j ≠ k) (v : α) :
    ∀ m : List (Nat × α), Assoc.lookup j (Assoc.insert k v m) = Assoc.lookup j m
  | [] => by simp [Assoc.insert, Assoc.lookup, h]
  | (k', v') :: rest => by
    unfold Assoc.insert
    split_ifs with h1 h2
    · simp [Assoc.lookup, h]
    · subst h2; simp [Assoc.lookup, h]
    · simp only [Assoc.lookup]
      rw [Assoc.lookup_insert_ne h v rest]

theorem Assoc.lookup_erase_ne {k j : Nat} (h : j ≠ k) :
    ∀ m : List (Nat × α), Assoc.lookup j (Assoc.erase k m) = Assoc.lookup j m
  | [] => rfl
  | (k', v') :: rest => by
    unfold Assoc.erase
    split_ifs with h1
    · subst h1; simp [Assoc.lookup, h]
    · simp only [Assoc.lookup]
      rw [Assoc.lookup_erase_ne h rest]

theorem Assoc.sortedFrom_insert {k : Nat} (v : α) (lo : Option Nat) :
    ∀ {m : List (Nat × α)}, (∀ b, lo = some b → b < k) → Assoc.sortedFrom lo m = true →
      Assoc.sortedFrom lo (Assoc.insert k v m) = true
  | [], hlo, _ => by
    cases lo with
    | none => rfl
    | some b => simp [Assoc.insert, Assoc.sortedFrom, hlo b rfl]
  | (k', v') :: rest, hlo, hm => by
    simp only [Assoc.sortedFrom, Bool.and_eq_true] at hm
    unfold Assoc.insert
    split_ifs with h1 h2
    · simp only [Assoc.sortedFrom, Bool.and_eq_true, decide_eq_true_eq]
      refine ⟨?_, h1, hm.2⟩
      cases lo with
      | none => rfl
      | some b => simpa using hlo b rfl
    · subst h2
      simpa only [Assoc.sortedFrom, Bool.and_eq_true] using hm
    · simp only [Assoc.sortedFrom, Bool.and_eq_true]
      refine ⟨hm.1, Assoc.sortedFrom_insert v (some k') ?_ hm.2⟩
      intro b hb
      cases hb
      omega

theorem Assoc.sorted_insert (k : Nat) (v : α) {m : List (Nat × α)} (h : Assoc.sorted m = true) :
    Assoc.sorted (Assoc.insert k v m) = true :=
  Assoc.sortedFrom_insert v none (fun _ hb => by cases hb) h

theorem Assoc.sortedFrom_erase (k : Nat) (lo : Option Nat) :
    ∀ {m : List (Nat × α)}, Assoc.sortedFrom lo m = true → Assoc.sortedFrom lo (Assoc.erase k m) = true
  | [], _ => rfl
  | (k', v') :: rest, hm => by
    simp only [Assoc.sortedFrom, Bool.and_eq_true] at hm
    unfold Assoc.erase
    split_ifs with h1
    · cases lo with
      | none => exact Assoc.sorted_of_sortedFrom hm.2
      | some b => exact Assoc.sortedFrom_weaken (by simpa using (le_of_lt (by simpa using hm.1))) hm.2
    · simp only [Assoc.sortedFrom, Bool.and_eq_true]
      exact ⟨hm.1, Assoc.sortedFrom_erase k (some k') hm.2⟩

theorem Assoc.sorted_erase (k : Nat) {m : List (Nat × α)} (h : Assoc.sorted m = true) :
    Assoc.sorted (Assoc.erase k m) = true :=
  Assoc.sortedFrom_erase k none h

theorem Assoc.lookup_erase_same {k : Nat} :
    ∀ {m : List (Nat × α)}, Assoc.sorted m = true → Assoc.lookup k (Assoc.erase k m) = none
  | [], _ => rfl
  | (k', v') :: rest, hm => by
    simp only [Assoc.sorted, Assoc.sortedFrom, Bool.true_and] at hm
    unfold Assoc.erase
    split_ifs with h1
    · subst h1
      exact Assoc.lookup_below (le_refl _) hm
    · simp only [Assoc.lookup, h1, if_false]
      exact Assoc.lookup_erase_same (Assoc.sorted_of_sortedFrom hm)

/-- An entry of the list after an insertion is the inserted one or an entry from before. -/
theorem Assoc.mem_insert {k : Nat} {v : α} {e : Nat × α} :
    ∀ {m : List (Nat × α)}, e ∈ Assoc.insert k v m → e = (k, v) ∨ e ∈ m
  | [], h => by simpa [Assoc.insert] using h
  | (k', v') :: rest, h => by
    unfold Assoc.insert at h
    split_ifs at h with h1 h2
    · simpa using h
    · rcases List.mem_cons.mp h with h | h
      · exact .inl h
      · exact .inr (List.mem_cons_of_mem _ h)
    · rcases List.mem_cons.mp h with h | h
      · exact .inr (h ▸ List.mem_cons_self)
      · rcases Assoc.mem_insert h with h | h
        · exact .inl h
        · exact .inr (List.mem_cons_of_mem _ h)

/-- An entry left after an erasure was there before. -/
theorem Assoc.mem_erase {k : Nat} {e : Nat × α} : ∀ {m : List (Nat × α)}, e ∈ Assoc.erase k m → e ∈ m
  | [], h => h
  | (k', v') :: rest, h => by
    unfold Assoc.erase at h
    split_ifs at h with h1
    · exact List.mem_cons_of_mem _ h
    · rcases List.mem_cons.mp h with h | h
      · exact h ▸ List.mem_cons_self
      · exact List.mem_cons_of_mem _ (Assoc.mem_erase h)

end Sys2Proof.Machine
end

