-- ==== Sys2Proof/Laws/Config.lean ====
section
/-! SUPPORT. What a valid configuration gives (R10), constraint by constraint. -/

namespace Sys2Proof

variable {c : Cfg}

theorem Cfg.valid_parts (h : c.valid = true) :
    c.vertOk = true ∧ c.horOk = true ∧ (∀ l, c.fieldOk l = true) ∧ c.fbOk = true ∧ c.tablesOk = true := by
  simp only [Cfg.valid, Bool.and_eq_true, List.all_eq_true] at h
  exact ⟨h.1.1.1.1, h.1.1.1.2, fun l => h.1.1.2 l (by cases l <;> decide), h.1.2, h.2⟩

theorem Cfg.valid_vert (h : c.valid = true) :
    1 ≤ c.vSync ∧ 1 ≤ c.vFront ∧ 2 ≤ c.vActive ∧ c.vActive % 2 = 0 ∧ c.vTotal ≤ 65535 := by
  have := (Cfg.valid_parts h).1
  simp only [Cfg.vertOk, Bool.and_eq_true, decide_eq_true_eq] at this
  exact ⟨this.1.1.1.1, this.1.1.1.2, this.1.1.2, this.1.2, this.2⟩

theorem Cfg.valid_hor (h : c.valid = true) :
    (1 ≤ c.hFront ∧ c.hFront ≤ 65535) ∧ (1 ≤ c.hSync ∧ c.hSync ≤ 65535) ∧ (1 ≤ c.hBack ∧ c.hBack ≤ 65535) ∧
      (1 ≤ c.hActive ∧ c.hActive ≤ 65535) ∧ c.hFront + c.hSync + c.hBack ≤ 65535 := by
  have := (Cfg.valid_parts h).2.1
  simp only [Cfg.horOk, Bool.and_eq_true, decide_eq_true_eq] at this
  exact ⟨this.1.1.1.1, this.1.1.1.2, this.1.1.2, this.1.2, this.2⟩

theorem Cfg.valid_field (h : c.valid = true) (l : Lane) :
    1 ≤ c.fieldWidth.get l ∧ c.fieldWidth.get l ≤ 6 ∧ c.fieldLsb.get l + c.fieldWidth.get l ≤ 16 := by
  have := (Cfg.valid_parts h).2.2.1 l
  simp only [Cfg.fieldOk, Bool.and_eq_true, decide_eq_true_eq] at this
  exact ⟨this.1.1, this.1.2, this.2⟩

theorem Cfg.valid_srcLines (h : c.valid = true) : 1 ≤ c.srcLines ∧ 2 * c.srcLines = c.vActive := by
  have := Cfg.valid_vert h
  unfold Cfg.srcLines
  omega

/-- The data symbols are pairwise distinct (R10, R123). -/
theorem Cfg.valid_dataSym (h : c.valid = true) {i j : BitVec 6}
    (e : Machine.dataSymOf c i = Machine.dataSymOf c j) : i = j := by
  have := (Cfg.valid_parts h).2.2.2.2
  simp only [Cfg.tablesOk, Bool.and_eq_true, decide_eq_true_eq] at this
  have hn := this.2
  unfold Machine.dataSymOf at e
  have hi : i.toNat < (c.dataSym.toList.map BitVec.toNat).length := by simpa using i.isLt
  have hj : j.toNat < (c.dataSym.toList.map BitVec.toNat).length := by simpa using j.isLt
  have key := (List.Nodup.getElem_inj_iff hn (hi := hi) (hj := hj)).mp (by simpa using congrArg BitVec.toNat e)
  exact BitVec.eq_of_toNat_eq key

end Sys2Proof
end

