-- ==== Sys2Proof/Laws/Maps.lean ====
section
/-! SUPPORT. Reading and writing the small maps: per lane, per buffer, per category, per ring index. -/

namespace Sys2Proof

@[simp] theorem LaneMap.get_set_same {α : Type} (m : LaneMap α) (l : Lane) (v : α) : (m.set l v).get l = v := by
  cases l <;> rfl

theorem LaneMap.get_set_ne {α : Type} (m : LaneMap α) (l l' : Lane) (v : α) (h : l' ≠ l) :
    (m.set l v).get l' = m.get l' := by
  cases l <;> cases l' <;> first | rfl | exact absurd rfl h

@[simp] theorem LaneMap.get_const {α : Type} (v : α) (l : Lane) : (LaneMap.const v).get l = v := by
  cases l <;> rfl

theorem LaneMap.ext_get {α : Type} {m m' : LaneMap α} (h : ∀ l, m.get l = m'.get l) : m = m' := by
  cases m; cases m'
  have h0 := h .lane0
  have h1 := h .lane1
  have h2 := h .lane2
  simp only [LaneMap.get] at h0 h1 h2
  simp [h0, h1, h2]

@[simp] theorem BufMap.get_set_same {α : Type} (m : BufMap α) (b : Buf) (v : α) : (m.set b v).get b = v := by
  cases b <;> rfl

theorem BufMap.get_set_ne {α : Type} (m : BufMap α) (b b' : Buf) (v : α) (h : b' ≠ b) :
    (m.set b v).get b' = m.get b' := by
  cases b <;> cases b' <;> first | rfl | exact absurd rfl h

@[simp] theorem CatMap.get_set_same {α : Type} (m : CatMap α) (c : Cat) (v : α) : (m.set c v).get c = v := by
  cases c <;> rfl

theorem CatMap.get_set_ne {α : Type} (m : CatMap α) (c c' : Cat) (v : α) (h : c' ≠ c) :
    (m.set c v).get c' = m.get c' := by
  cases c <;> cases c' <;> first | rfl | exact absurd rfl h

@[simp] theorem Buf.other_other (b : Buf) : b.other.other = b := by cases b <;> rfl

@[simp] theorem Buf.other_ne (b : Buf) : b.other ≠ b := by cases b <;> decide

theorem Buf.sel_injective {a b : Buf} (h : a.sel = b.sel) : a = b := by
  cases a <;> cases b <;> first | rfl | exact absurd h (by decide)

theorem Cat.active_injective {a b : Buf} (h : Cat.active a = Cat.active b) : a = b := by
  cases a <;> cases b <;> first | rfl | exact absurd h (by decide)

@[simp] theorem Lane.all_mem (l : Lane) : l ∈ Lane.all := by cases l <;> decide

theorem Lane.all_true {p : Lane → Bool} : Lane.all.all p = true ↔ ∀ l, p l = true := by
  constructor
  · intro h l
    exact List.all_eq_true.mp h l (Lane.all_mem l)
  · intro h
    exact List.all_eq_true.mpr (fun l _ => h l)

theorem Lane.ring_pow (l : Lane) : 2 ^ l.ring.toNat = l.nseg := by cases l <;> decide

namespace Machine

@[simp] theorem Ring.get_set_same (r : Ring) (i : BitVec 2) (w : Word) : (r.set i w).get i = some w := by
  unfold Ring.set Ring.get
  split_ifs <;> rfl

theorem Ring.get_set_ne (r : Ring) (i j : BitVec 2) (w : Word) (h : j ≠ i) : (r.set i w).get j = r.get j := by
  unfold Ring.set Ring.get
  split_ifs <;> first | rfl | (exfalso; bv_omega)

@[simp] theorem Ring.get_unwritten (i : BitVec 2) : Ring.unwritten.get i = none := by
  unfold Ring.get Ring.unwritten
  split_ifs <;> rfl

@[simp] theorem bufOfNat_num (b : Buf) : bufOfNat b.num = some b := by cases b <;> rfl

end Machine

end Sys2Proof
end

