-- ==== Sys2Proof/Laws/Decode.lean ====
section
/-! SUPPORT. The descriptor word: its value as a sum over its fields (R92), and what the decoder reads from it. -/

namespace Sys2Proof

theorem toNat_append {n m : Nat} (a : BitVec n) (b : BitVec m) : (a ++ b).toNat = a.toNat * 2 ^ m + b.toNat := by
  rw [BitVec.toNat_append, Nat.shiftLeft_eq, Nat.mul_comm a.toNat, ← Nat.two_pow_add_eq_or_of_lt b.isLt]

/-- A descriptor word as a number. -/
theorem encodeDesc_toNat (d : Descriptor) : (encodeDesc d).toNat =
    d.count.toNat + 2 ^ 16 * d.sel.toNat + 2 ^ 19 * (kindBit d.kind).toNat + 2 ^ 20 * d.ring.toNat +
      2 ^ 22 * d.irq.toNat := by
  unfold encodeDesc
  simp only [toNat_append]
  cases d.kind <;> cases d.irq <;> simp [kindBit] <;> omega

theorem bitField_toNat (w : Word) (lo len : Nat) : (bitField w lo len).toNat = w.toNat / 2 ^ lo % 2 ^ len := by
  simp [bitField, BitVec.extractLsb'_toNat, Nat.shiftRight_eq_div_pow]

theorem getLsbD_eq_div (w : Word) (i : Nat) : w.getLsbD i = decide (w.toNat / 2 ^ i % 2 = 1) := by
  simp only [BitVec.getLsbD, Nat.testBit_eq_decide_div_mod_eq]

section Fields

variable (d : Descriptor)

theorem encodeDesc_count : bitField (encodeDesc d) 0 16 = d.count := by
  apply BitVec.eq_of_toNat_eq
  rw [bitField_toNat, encodeDesc_toNat]
  have h := d.count.isLt
  omega

theorem encodeDesc_sel : bitField (encodeDesc d) 16 3 = d.sel := by
  apply BitVec.eq_of_toNat_eq
  rw [bitField_toNat, encodeDesc_toNat]
  have h1 := d.count.isLt
  have h2 := d.sel.isLt
  omega

theorem encodeDesc_ring : bitField (encodeDesc d) 20 2 = d.ring := by
  apply BitVec.eq_of_toNat_eq
  rw [bitField_toNat, encodeDesc_toNat]
  have h1 := d.count.isLt
  have h2 := d.sel.isLt
  have h3 := d.ring.isLt
  have h4 := (kindBit d.kind).isLt
  omega

theorem encodeDesc_top : bitField (encodeDesc d) 23 9 = 0#9 := by
  apply BitVec.eq_of_toNat_eq
  rw [bitField_toNat, encodeDesc_toNat]
  have h1 := d.count.isLt
  have h2 := d.sel.isLt
  have h3 := d.ring.isLt
  have h4 := (kindBit d.kind).isLt
  have h5 := d.irq.toNat_lt
  simp only [BitVec.toNat_ofNat]
  omega

theorem encodeDesc_selHigh : (bitField (encodeDesc d) 17 2).toNat = d.sel.toNat / 2 := by
  rw [bitField_toNat, encodeDesc_toNat]
  have h1 := d.count.isLt
  have h2 := d.sel.isLt
  omega

theorem encodeDesc_irq : (encodeDesc d).getLsbD 22 = d.irq := by
  rw [getLsbD_eq_div, encodeDesc_toNat]
  have h1 := d.count.isLt
  have h2 := d.sel.isLt
  have h3 := d.ring.isLt
  have h4 := (kindBit d.kind).isLt
  cases d.irq <;> simp only [Bool.toNat_true, Bool.toNat_false, decide_eq_true_eq, decide_eq_false_iff_not] <;> omega

theorem encodeDesc_kind : (encodeDesc d).getLsbD 19 = decide (d.kind = .buf) := by
  rw [getLsbD_eq_div, encodeDesc_toNat]
  have h1 := d.count.isLt
  have h2 := d.sel.isLt
  cases d.kind <;> simp [kindBit] <;> omega

end Fields

/-- The decoder reads from a descriptor's word the descriptor, if a line-buffer segment names a buffer 0 or 1. -/
theorem decodeDesc_encodeDesc (d : Descriptor) (h : d.kind = .buf → d.sel.toNat < 2) :
    decodeDesc (encodeDesc d) = .ok d := by
  unfold decodeDesc
  rw [encodeDesc_count, encodeDesc_sel, encodeDesc_ring, encodeDesc_top, encodeDesc_irq, encodeDesc_kind]
  have hs := encodeDesc_selHigh d
  obtain ⟨k, sel, count, ring, irq⟩ := d
  cases k with
  | pat => simp
  | buf =>
    have hz : bitField (encodeDesc ⟨.buf, sel, count, ring, irq⟩) 17 2 = 0#2 := by
      apply BitVec.eq_of_toNat_eq
      have := h rfl
      simp only at this hs
      rw [hs]; simp; omega
    simp [hz]

/-- A decoded line-buffer segment names a buffer 0 or 1 (R98). -/
theorem decodeDesc_sel {w : Word} {d : Descriptor} (h : decodeDesc w = .ok d) (hk : d.kind = .buf) : d.sel.toNat < 2 := by
  unfold decodeDesc at h
  split_ifs at h with h1 h2 h3
  · cases h; cases hk
  · cases h
    have h3 := congrArg BitVec.toNat (not_not.mp h3)
    rw [bitField_toNat] at h3
    simp only [BitVec.toNat_ofNat] at h3
    rw [bitField_toNat]
    omega

@[simp] theorem Buf.sel_toNat (b : Buf) : b.sel.toNat = b.num := by cases b <;> rfl

theorem Buf.num_lt (b : Buf) : b.num < 2 := by cases b <;> decide

theorem bufOfBit_sel (b : Buf) : bufOfBit (b.sel[0]) = b := by cases b <;> rfl

theorem sel_bufOfBit (x : BitVec 3) (h : x.toNat < 2) : (bufOfBit x[0]).sel = x := by
  revert x; decide

end Sys2Proof
end

