-- ==== Sys2Proof/Laws/State.lean ====
section
/-! SUPPORT. What each named update does to each field of the state: one lemma per field per update. -/

namespace Sys2Proof.Machine

variable (s : State)

/-! `setCur` -/

@[simp] theorem setCur_cfg (l : Lane) (g : Option Seg) : (setCur l g s).cfg = s.cfg := rfl
@[simp] theorem setCur_req (l : Lane) (g : Option Seg) : (setCur l g s).req = s.req := rfl
@[simp] theorem setCur_run (l : Lane) (g : Option Seg) : (setCur l g s).run = s.run := rfl
@[simp] theorem setCur_outEn (l : Lane) (g : Option Seg) : (setCur l g s).outEn = s.outEn := rfl
@[simp] theorem setCur_irqEn (l : Lane) (g : Option Seg) : (setCur l g s).irqEn = s.irqEn := rfl
@[simp] theorem setCur_irqPend (l : Lane) (g : Option Seg) : (setCur l g s).irqPend = s.irqPend := rfl
@[simp] theorem setCur_polling (l : Lane) (g : Option Seg) : (setCur l g s).polling = s.polling := rfl
@[simp] theorem setCur_line (l : Lane) (g : Option Seg) : (setCur l g s).line = s.line := rfl
@[simp] theorem setCur_frame (l : Lane) (g : Option Seg) : (setCur l g s).frame = s.frame := rfl
@[simp] theorem setCur_bufIdx (l : Lane) (g : Option Seg) : (setCur l g s).bufIdx = s.bufIdx := rfl
@[simp] theorem setCur_cur (l : Lane) (g : Option Seg) : (setCur l g s).cur = s.cur.set l g := rfl
@[simp] theorem setCur_rdptr (l : Lane) (g : Option Seg) : (setCur l g s).rdptr = s.rdptr := rfl
@[simp] theorem setCur_lineBuf (l : Lane) (g : Option Seg) : (setCur l g s).lineBuf = s.lineBuf := rfl
@[simp] theorem setCur_desc (l : Lane) (g : Option Seg) : (setCur l g s).desc = s.desc := rfl
@[simp] theorem setCur_xform (l : Lane) (g : Option Seg) : (setCur l g s).xform = s.xform := rfl
@[simp] theorem setCur_xformSave (l : Lane) (g : Option Seg) : (setCur l g s).xformSave = s.xformSave := rfl
@[simp] theorem setCur_diagEntry (l : Lane) (g : Option Seg) : (setCur l g s).diagEntry = s.diagEntry := rfl
@[simp] theorem setCur_diagExit (l : Lane) (g : Option Seg) : (setCur l g s).diagExit = s.diagExit := rfl
@[simp] theorem setCur_mem (l : Lane) (g : Option Seg) : (setCur l g s).mem = s.mem := rfl
@[simp] theorem setCur_out (l : Lane) (g : Option Seg) : (setCur l g s).out = s.out := rfl
@[simp] theorem setCur_result (l : Lane) (g : Option Seg) : (setCur l g s).result = s.result := rfl
@[simp] theorem setCur_sched (l : Lane) (g : Option Seg) : (setCur l g s).sched = s.sched := rfl
@[simp] theorem setCur_encPlans (l : Lane) (g : Option Seg) : (setCur l g s).encPlans = s.encPlans := rfl
@[simp] theorem setCur_freeCount (l : Lane) (g : Option Seg) : (setCur l g s).freeCount = s.freeCount := rfl

/-! `setRdptr` -/

@[simp] theorem setRdptr_cfg (l : Lane) (p : Option Ptr) : (setRdptr l p s).cfg = s.cfg := rfl
@[simp] theorem setRdptr_req (l : Lane) (p : Option Ptr) : (setRdptr l p s).req = s.req := rfl
@[simp] theorem setRdptr_run (l : Lane) (p : Option Ptr) : (setRdptr l p s).run = s.run := rfl
@[simp] theorem setRdptr_outEn (l : Lane) (p : Option Ptr) : (setRdptr l p s).outEn = s.outEn := rfl
@[simp] theorem setRdptr_irqEn (l : Lane) (p : Option Ptr) : (setRdptr l p s).irqEn = s.irqEn := rfl
@[simp] theorem setRdptr_irqPend (l : Lane) (p : Option Ptr) : (setRdptr l p s).irqPend = s.irqPend := rfl
@[simp] theorem setRdptr_polling (l : Lane) (p : Option Ptr) : (setRdptr l p s).polling = s.polling := rfl
@[simp] theorem setRdptr_line (l : Lane) (p : Option Ptr) : (setRdptr l p s).line = s.line := rfl
@[simp] theorem setRdptr_frame (l : Lane) (p : Option Ptr) : (setRdptr l p s).frame = s.frame := rfl
@[simp] theorem setRdptr_bufIdx (l : Lane) (p : Option Ptr) : (setRdptr l p s).bufIdx = s.bufIdx := rfl
@[simp] theorem setRdptr_cur (l : Lane) (p : Option Ptr) : (setRdptr l p s).cur = s.cur := rfl
@[simp] theorem setRdptr_rdptr (l : Lane) (p : Option Ptr) : (setRdptr l p s).rdptr = s.rdptr.set l p := rfl
@[simp] theorem setRdptr_lineBuf (l : Lane) (p : Option Ptr) : (setRdptr l p s).lineBuf = s.lineBuf := rfl
@[simp] theorem setRdptr_desc (l : Lane) (p : Option Ptr) : (setRdptr l p s).desc = s.desc := rfl
@[simp] theorem setRdptr_xform (l : Lane) (p : Option Ptr) : (setRdptr l p s).xform = s.xform := rfl
@[simp] theorem setRdptr_xformSave (l : Lane) (p : Option Ptr) : (setRdptr l p s).xformSave = s.xformSave := rfl
@[simp] theorem setRdptr_diagEntry (l : Lane) (p : Option Ptr) : (setRdptr l p s).diagEntry = s.diagEntry := rfl
@[simp] theorem setRdptr_diagExit (l : Lane) (p : Option Ptr) : (setRdptr l p s).diagExit = s.diagExit := rfl
@[simp] theorem setRdptr_mem (l : Lane) (p : Option Ptr) : (setRdptr l p s).mem = s.mem := rfl
@[simp] theorem setRdptr_out (l : Lane) (p : Option Ptr) : (setRdptr l p s).out = s.out := rfl
@[simp] theorem setRdptr_result (l : Lane) (p : Option Ptr) : (setRdptr l p s).result = s.result := rfl
@[simp] theorem setRdptr_sched (l : Lane) (p : Option Ptr) : (setRdptr l p s).sched = s.sched := rfl
@[simp] theorem setRdptr_encPlans (l : Lane) (p : Option Ptr) : (setRdptr l p s).encPlans = s.encPlans := rfl
@[simp] theorem setRdptr_freeCount (l : Lane) (p : Option Ptr) : (setRdptr l p s).freeCount = s.freeCount := rfl

/-! `notify` -/

@[simp] theorem notify_cfg : (notify s).cfg = s.cfg := rfl
@[simp] theorem notify_req : (notify s).req = s.req := rfl
@[simp] theorem notify_run : (notify s).run = s.run := rfl
@[simp] theorem notify_outEn : (notify s).outEn = s.outEn := rfl
@[simp] theorem notify_irqEn : (notify s).irqEn = s.irqEn := rfl
@[simp] theorem notify_irqPend : (notify s).irqPend = true := rfl
@[simp] theorem notify_polling : (notify s).polling = s.polling := rfl
@[simp] theorem notify_line : (notify s).line = s.line := rfl
@[simp] theorem notify_frame : (notify s).frame = s.frame := rfl
@[simp] theorem notify_bufIdx : (notify s).bufIdx = s.bufIdx := rfl
@[simp] theorem notify_cur : (notify s).cur = s.cur := rfl
@[simp] theorem notify_rdptr : (notify s).rdptr = s.rdptr := rfl
@[simp] theorem notify_lineBuf : (notify s).lineBuf = s.lineBuf := rfl
@[simp] theorem notify_desc : (notify s).desc = s.desc := rfl
@[simp] theorem notify_xform : (notify s).xform = s.xform := rfl
@[simp] theorem notify_xformSave : (notify s).xformSave = s.xformSave := rfl
@[simp] theorem notify_diagEntry : (notify s).diagEntry = s.diagEntry := rfl
@[simp] theorem notify_diagExit : (notify s).diagExit = s.diagExit := rfl
@[simp] theorem notify_mem : (notify s).mem = s.mem := rfl
@[simp] theorem notify_out : (notify s).out = s.out := rfl
@[simp] theorem notify_result : (notify s).result = s.result := rfl
@[simp] theorem notify_sched : (notify s).sched = s.sched := rfl
@[simp] theorem notify_encPlans : (notify s).encPlans = s.encPlans := rfl
@[simp] theorem notify_freeCount : (notify s).freeCount = s.freeCount := rfl

/-! `writeLineWord` -/

@[simp] theorem writeLineWord_cfg (l : Lane) (b : Buf) (j : Nat) (w : Word) : (writeLineWord l b j w s).cfg = s.cfg := rfl
@[simp] theorem writeLineWord_req (l : Lane) (b : Buf) (j : Nat) (w : Word) : (writeLineWord l b j w s).req = s.req := rfl
@[simp] theorem writeLineWord_run (l : Lane) (b : Buf) (j : Nat) (w : Word) : (writeLineWord l b j w s).run = s.run := rfl
@[simp] theorem writeLineWord_outEn (l : Lane) (b : Buf) (j : Nat) (w : Word) : (writeLineWord l b j w s).outEn = s.outEn := rfl
@[simp] theorem writeLineWord_irqEn (l : Lane) (b : Buf) (j : Nat) (w : Word) : (writeLineWord l b j w s).irqEn = s.irqEn := rfl
@[simp] theorem writeLineWord_irqPend (l : Lane) (b : Buf) (j : Nat) (w : Word) : (writeLineWord l b j w s).irqPend = s.irqPend := rfl
@[simp] theorem writeLineWord_polling (l : Lane) (b : Buf) (j : Nat) (w : Word) : (writeLineWord l b j w s).polling = s.polling := rfl
@[simp] theorem writeLineWord_line (l : Lane) (b : Buf) (j : Nat) (w : Word) : (writeLineWord l b j w s).line = s.line := rfl
@[simp] theorem writeLineWord_frame (l : Lane) (b : Buf) (j : Nat) (w : Word) : (writeLineWord l b j w s).frame = s.frame := rfl
@[simp] theorem writeLineWord_bufIdx (l : Lane) (b : Buf) (j : Nat) (w : Word) : (writeLineWord l b j w s).bufIdx = s.bufIdx := rfl
@[simp] theorem writeLineWord_cur (l : Lane) (b : Buf) (j : Nat) (w : Word) : (writeLineWord l b j w s).cur = s.cur := rfl
@[simp] theorem writeLineWord_rdptr (l : Lane) (b : Buf) (j : Nat) (w : Word) : (writeLineWord l b j w s).rdptr = s.rdptr := rfl
@[simp] theorem writeLineWord_lineBuf (l : Lane) (b : Buf) (j : Nat) (w : Word) : (writeLineWord l b j w s).lineBuf = s.lineBuf.set l ((s.lineBuf.get l).set b (Assoc.insert j w ((s.lineBuf.get l).get b))) := rfl
@[simp] theorem writeLineWord_desc (l : Lane) (b : Buf) (j : Nat) (w : Word) : (writeLineWord l b j w s).desc = s.desc := rfl
@[simp] theorem writeLineWord_xform (l : Lane) (b : Buf) (j : Nat) (w : Word) : (writeLineWord l b j w s).xform = s.xform := rfl
@[simp] theorem writeLineWord_xformSave (l : Lane) (b : Buf) (j : Nat) (w : Word) : (writeLineWord l b j w s).xformSave = s.xformSave := rfl
@[simp] theorem writeLineWord_diagEntry (l : Lane) (b : Buf) (j : Nat) (w : Word) : (writeLineWord l b j w s).diagEntry = s.diagEntry := rfl
@[simp] theorem writeLineWord_diagExit (l : Lane) (b : Buf) (j : Nat) (w : Word) : (writeLineWord l b j w s).diagExit = s.diagExit := rfl
@[simp] theorem writeLineWord_mem (l : Lane) (b : Buf) (j : Nat) (w : Word) : (writeLineWord l b j w s).mem = s.mem := rfl
@[simp] theorem writeLineWord_out (l : Lane) (b : Buf) (j : Nat) (w : Word) : (writeLineWord l b j w s).out = s.out := rfl
@[simp] theorem writeLineWord_result (l : Lane) (b : Buf) (j : Nat) (w : Word) : (writeLineWord l b j w s).result = s.result := rfl
@[simp] theorem writeLineWord_sched (l : Lane) (b : Buf) (j : Nat) (w : Word) : (writeLineWord l b j w s).sched = s.sched := rfl
@[simp] theorem writeLineWord_encPlans (l : Lane) (b : Buf) (j : Nat) (w : Word) : (writeLineWord l b j w s).encPlans = s.encPlans := rfl
@[simp] theorem writeLineWord_freeCount (l : Lane) (b : Buf) (j : Nat) (w : Word) : (writeLineWord l b j w s).freeCount = s.freeCount := rfl

/-! `fillLineBufs` -/

@[simp] theorem fillLineBufs_cfg (w : Word) : (fillLineBufs w s).cfg = s.cfg := rfl
@[simp] theorem fillLineBufs_req (w : Word) : (fillLineBufs w s).req = s.req := rfl
@[simp] theorem fillLineBufs_run (w : Word) : (fillLineBufs w s).run = s.run := rfl
@[simp] theorem fillLineBufs_outEn (w : Word) : (fillLineBufs w s).outEn = s.outEn := rfl
@[simp] theorem fillLineBufs_irqEn (w : Word) : (fillLineBufs w s).irqEn = s.irqEn := rfl
@[simp] theorem fillLineBufs_irqPend (w : Word) : (fillLineBufs w s).irqPend = s.irqPend := rfl
@[simp] theorem fillLineBufs_polling (w : Word) : (fillLineBufs w s).polling = s.polling := rfl
@[simp] theorem fillLineBufs_line (w : Word) : (fillLineBufs w s).line = s.line := rfl
@[simp] theorem fillLineBufs_frame (w : Word) : (fillLineBufs w s).frame = s.frame := rfl
@[simp] theorem fillLineBufs_bufIdx (w : Word) : (fillLineBufs w s).bufIdx = s.bufIdx := rfl
@[simp] theorem fillLineBufs_cur (w : Word) : (fillLineBufs w s).cur = s.cur := rfl
@[simp] theorem fillLineBufs_rdptr (w : Word) : (fillLineBufs w s).rdptr = s.rdptr := rfl
@[simp] theorem fillLineBufs_lineBuf (w : Word) : (fillLineBufs w s).lineBuf = .const ⟨filledWords s.cfg.hActive w, filledWords s.cfg.hActive w⟩ := rfl
@[simp] theorem fillLineBufs_desc (w : Word) : (fillLineBufs w s).desc = s.desc := rfl
@[simp] theorem fillLineBufs_xform (w : Word) : (fillLineBufs w s).xform = s.xform := rfl
@[simp] theorem fillLineBufs_xformSave (w : Word) : (fillLineBufs w s).xformSave = s.xformSave := rfl
@[simp] theorem fillLineBufs_diagEntry (w : Word) : (fillLineBufs w s).diagEntry = s.diagEntry := rfl
@[simp] theorem fillLineBufs_diagExit (w : Word) : (fillLineBufs w s).diagExit = s.diagExit := rfl
@[simp] theorem fillLineBufs_mem (w : Word) : (fillLineBufs w s).mem = s.mem := rfl
@[simp] theorem fillLineBufs_out (w : Word) : (fillLineBufs w s).out = s.out := rfl
@[simp] theorem fillLineBufs_result (w : Word) : (fillLineBufs w s).result = s.result := rfl
@[simp] theorem fillLineBufs_sched (w : Word) : (fillLineBufs w s).sched = s.sched := rfl
@[simp] theorem fillLineBufs_encPlans (w : Word) : (fillLineBufs w s).encPlans = s.encPlans := rfl
@[simp] theorem fillLineBufs_freeCount (w : Word) : (fillLineBufs w s).freeCount = s.freeCount := rfl

/-! `buildChains` -/

@[simp] theorem buildChains_cfg : (buildChains s).cfg = s.cfg := rfl
@[simp] theorem buildChains_req : (buildChains s).req = s.req := rfl
@[simp] theorem buildChains_run : (buildChains s).run = s.run := rfl
@[simp] theorem buildChains_outEn : (buildChains s).outEn = s.outEn := rfl
@[simp] theorem buildChains_irqEn : (buildChains s).irqEn = s.irqEn := rfl
@[simp] theorem buildChains_irqPend : (buildChains s).irqPend = s.irqPend := rfl
@[simp] theorem buildChains_polling : (buildChains s).polling = s.polling := rfl
@[simp] theorem buildChains_line : (buildChains s).line = s.line := rfl
@[simp] theorem buildChains_frame : (buildChains s).frame = s.frame := rfl
@[simp] theorem buildChains_bufIdx : (buildChains s).bufIdx = s.bufIdx := rfl
@[simp] theorem buildChains_cur : (buildChains s).cur = s.cur := rfl
@[simp] theorem buildChains_rdptr : (buildChains s).rdptr = s.rdptr := rfl
@[simp] theorem buildChains_lineBuf : (buildChains s).lineBuf = s.lineBuf := rfl
@[simp] theorem buildChains_desc : (buildChains s).desc = builtDesc s.cfg := rfl
@[simp] theorem buildChains_xform : (buildChains s).xform = s.xform := rfl
@[simp] theorem buildChains_xformSave : (buildChains s).xformSave = s.xformSave := rfl
@[simp] theorem buildChains_diagEntry : (buildChains s).diagEntry = s.diagEntry := rfl
@[simp] theorem buildChains_diagExit : (buildChains s).diagExit = s.diagExit := rfl
@[simp] theorem buildChains_mem : (buildChains s).mem = s.mem := rfl
@[simp] theorem buildChains_out : (buildChains s).out = s.out := rfl
@[simp] theorem buildChains_result : (buildChains s).result = s.result := rfl
@[simp] theorem buildChains_sched : (buildChains s).sched = s.sched := rfl
@[simp] theorem buildChains_encPlans : (buildChains s).encPlans = s.encPlans := rfl
@[simp] theorem buildChains_freeCount : (buildChains s).freeCount = s.freeCount := rfl

/-! `emitSlot` -/

@[simp] theorem emitSlot_cfg (w : LaneMap Word) : (emitSlot w s).cfg = s.cfg := rfl
@[simp] theorem emitSlot_req (w : LaneMap Word) : (emitSlot w s).req = s.req := rfl
@[simp] theorem emitSlot_run (w : LaneMap Word) : (emitSlot w s).run = s.run := rfl
@[simp] theorem emitSlot_outEn (w : LaneMap Word) : (emitSlot w s).outEn = s.outEn := rfl
@[simp] theorem emitSlot_irqEn (w : LaneMap Word) : (emitSlot w s).irqEn = s.irqEn := rfl
@[simp] theorem emitSlot_irqPend (w : LaneMap Word) : (emitSlot w s).irqPend = s.irqPend := rfl
@[simp] theorem emitSlot_polling (w : LaneMap Word) : (emitSlot w s).polling = s.polling := rfl
@[simp] theorem emitSlot_line (w : LaneMap Word) : (emitSlot w s).line = s.line := rfl
@[simp] theorem emitSlot_frame (w : LaneMap Word) : (emitSlot w s).frame = s.frame := rfl
@[simp] theorem emitSlot_bufIdx (w : LaneMap Word) : (emitSlot w s).bufIdx = s.bufIdx := rfl
@[simp] theorem emitSlot_cur (w : LaneMap Word) : (emitSlot w s).cur = s.cur := rfl
@[simp] theorem emitSlot_rdptr (w : LaneMap Word) : (emitSlot w s).rdptr = s.rdptr := rfl
@[simp] theorem emitSlot_lineBuf (w : LaneMap Word) : (emitSlot w s).lineBuf = s.lineBuf := rfl
@[simp] theorem emitSlot_desc (w : LaneMap Word) : (emitSlot w s).desc = s.desc := rfl
@[simp] theorem emitSlot_xform (w : LaneMap Word) : (emitSlot w s).xform = s.xform := rfl
@[simp] theorem emitSlot_xformSave (w : LaneMap Word) : (emitSlot w s).xformSave = s.xformSave := rfl
@[simp] theorem emitSlot_diagEntry (w : LaneMap Word) : (emitSlot w s).diagEntry = s.diagEntry := rfl
@[simp] theorem emitSlot_diagExit (w : LaneMap Word) : (emitSlot w s).diagExit = s.diagExit := rfl
@[simp] theorem emitSlot_mem (w : LaneMap Word) : (emitSlot w s).mem = s.mem := rfl
@[simp] theorem emitSlot_out (w : LaneMap Word) : (emitSlot w s).out = s.out ++ [w] := rfl
@[simp] theorem emitSlot_result (w : LaneMap Word) : (emitSlot w s).result = s.result := rfl
@[simp] theorem emitSlot_sched (w : LaneMap Word) : (emitSlot w s).sched = s.sched := rfl
@[simp] theorem emitSlot_encPlans (w : LaneMap Word) : (emitSlot w s).encPlans = s.encPlans := rfl
@[simp] theorem emitSlot_freeCount (w : LaneMap Word) : (emitSlot w s).freeCount = s.freeCount := rfl

/-! `pointAll` -/

@[simp] theorem pointAll_cfg (c : Cat) : (pointAll c s).cfg = s.cfg := rfl
@[simp] theorem pointAll_req (c : Cat) : (pointAll c s).req = s.req := rfl
@[simp] theorem pointAll_run (c : Cat) : (pointAll c s).run = s.run := rfl
@[simp] theorem pointAll_outEn (c : Cat) : (pointAll c s).outEn = s.outEn := rfl
@[simp] theorem pointAll_irqEn (c : Cat) : (pointAll c s).irqEn = s.irqEn := rfl
@[simp] theorem pointAll_irqPend (c : Cat) : (pointAll c s).irqPend = s.irqPend := rfl
@[simp] theorem pointAll_polling (c : Cat) : (pointAll c s).polling = s.polling := rfl
@[simp] theorem pointAll_line (c : Cat) : (pointAll c s).line = s.line := rfl
@[simp] theorem pointAll_frame (c : Cat) : (pointAll c s).frame = s.frame := rfl
@[simp] theorem pointAll_bufIdx (c : Cat) : (pointAll c s).bufIdx = s.bufIdx := rfl
@[simp] theorem pointAll_cur (c : Cat) : (pointAll c s).cur = s.cur := rfl
@[simp] theorem pointAll_rdptr (c : Cat) : (pointAll c s).rdptr = .const (some ⟨c, 0#2⟩) := rfl
@[simp] theorem pointAll_lineBuf (c : Cat) : (pointAll c s).lineBuf = s.lineBuf := rfl
@[simp] theorem pointAll_desc (c : Cat) : (pointAll c s).desc = s.desc := rfl
@[simp] theorem pointAll_xform (c : Cat) : (pointAll c s).xform = s.xform := rfl
@[simp] theorem pointAll_xformSave (c : Cat) : (pointAll c s).xformSave = s.xformSave := rfl
@[simp] theorem pointAll_diagEntry (c : Cat) : (pointAll c s).diagEntry = s.diagEntry := rfl
@[simp] theorem pointAll_diagExit (c : Cat) : (pointAll c s).diagExit = s.diagExit := rfl
@[simp] theorem pointAll_mem (c : Cat) : (pointAll c s).mem = s.mem := rfl
@[simp] theorem pointAll_out (c : Cat) : (pointAll c s).out = s.out := rfl
@[simp] theorem pointAll_result (c : Cat) : (pointAll c s).result = s.result := rfl
@[simp] theorem pointAll_sched (c : Cat) : (pointAll c s).sched = s.sched := rfl
@[simp] theorem pointAll_encPlans (c : Cat) : (pointAll c s).encPlans = s.encPlans := rfl
@[simp] theorem pointAll_freeCount (c : Cat) : (pointAll c s).freeCount = s.freeCount := rfl

/-! `resetScan` -/

@[simp] theorem resetScan_cfg : (resetScan s).cfg = s.cfg := rfl
@[simp] theorem resetScan_req : (resetScan s).req = s.req := rfl
@[simp] theorem resetScan_run : (resetScan s).run = s.run := rfl
@[simp] theorem resetScan_outEn : (resetScan s).outEn = s.outEn := rfl
@[simp] theorem resetScan_irqEn : (resetScan s).irqEn = s.irqEn := rfl
@[simp] theorem resetScan_irqPend : (resetScan s).irqPend = s.irqPend := rfl
@[simp] theorem resetScan_polling : (resetScan s).polling = s.polling := rfl
@[simp] theorem resetScan_line : (resetScan s).line = 0#16 := rfl
@[simp] theorem resetScan_frame : (resetScan s).frame = 0#32 := rfl
@[simp] theorem resetScan_bufIdx : (resetScan s).bufIdx = .buf0 := rfl
@[simp] theorem resetScan_cur : (resetScan s).cur = s.cur := rfl
@[simp] theorem resetScan_rdptr : (resetScan s).rdptr = s.rdptr := rfl
@[simp] theorem resetScan_lineBuf : (resetScan s).lineBuf = s.lineBuf := rfl
@[simp] theorem resetScan_desc : (resetScan s).desc = s.desc := rfl
@[simp] theorem resetScan_xform : (resetScan s).xform = s.xform := rfl
@[simp] theorem resetScan_xformSave : (resetScan s).xformSave = s.xformSave := rfl
@[simp] theorem resetScan_diagEntry : (resetScan s).diagEntry = s.diagEntry := rfl
@[simp] theorem resetScan_diagExit : (resetScan s).diagExit = s.diagExit := rfl
@[simp] theorem resetScan_mem : (resetScan s).mem = s.mem := rfl
@[simp] theorem resetScan_out : (resetScan s).out = s.out := rfl
@[simp] theorem resetScan_result : (resetScan s).result = s.result := rfl
@[simp] theorem resetScan_sched : (resetScan s).sched = s.sched := rfl
@[simp] theorem resetScan_encPlans : (resetScan s).encPlans = s.encPlans := rfl
@[simp] theorem resetScan_freeCount : (resetScan s).freeCount = s.freeCount := rfl

/-! `advanceLine` -/

@[simp] theorem advanceLine_cfg : (advanceLine s).cfg = s.cfg := rfl
@[simp] theorem advanceLine_req : (advanceLine s).req = s.req := rfl
@[simp] theorem advanceLine_run : (advanceLine s).run = s.run := rfl
@[simp] theorem advanceLine_outEn : (advanceLine s).outEn = s.outEn := rfl
@[simp] theorem advanceLine_irqEn : (advanceLine s).irqEn = s.irqEn := rfl
@[simp] theorem advanceLine_irqPend : (advanceLine s).irqPend = s.irqPend := rfl
@[simp] theorem advanceLine_polling : (advanceLine s).polling = s.polling := rfl
@[simp] theorem advanceLine_line : (advanceLine s).line = BitVec.ofNat 16 (nextLine s) := rfl
@[simp] theorem advanceLine_frame : (advanceLine s).frame = nextFrame s := rfl
@[simp] theorem advanceLine_bufIdx : (advanceLine s).bufIdx = s.bufIdx := rfl
@[simp] theorem advanceLine_cur : (advanceLine s).cur = s.cur := rfl
@[simp] theorem advanceLine_rdptr : (advanceLine s).rdptr = s.rdptr := rfl
@[simp] theorem advanceLine_lineBuf : (advanceLine s).lineBuf = s.lineBuf := rfl
@[simp] theorem advanceLine_desc : (advanceLine s).desc = s.desc := rfl
@[simp] theorem advanceLine_xform : (advanceLine s).xform = s.xform := rfl
@[simp] theorem advanceLine_xformSave : (advanceLine s).xformSave = s.xformSave := rfl
@[simp] theorem advanceLine_diagEntry : (advanceLine s).diagEntry = s.diagEntry := rfl
@[simp] theorem advanceLine_diagExit : (advanceLine s).diagExit = s.diagExit := rfl
@[simp] theorem advanceLine_mem : (advanceLine s).mem = s.mem := rfl
@[simp] theorem advanceLine_out : (advanceLine s).out = s.out := rfl
@[simp] theorem advanceLine_result : (advanceLine s).result = s.result := rfl
@[simp] theorem advanceLine_sched : (advanceLine s).sched = s.sched := rfl
@[simp] theorem advanceLine_encPlans : (advanceLine s).encPlans = s.encPlans := rfl
@[simp] theorem advanceLine_freeCount : (advanceLine s).freeCount = s.freeCount := rfl

/-! `toggleBuf` -/

@[simp] theorem toggleBuf_cfg : (toggleBuf s).cfg = s.cfg := rfl
@[simp] theorem toggleBuf_req : (toggleBuf s).req = s.req := rfl
@[simp] theorem toggleBuf_run : (toggleBuf s).run = s.run := rfl
@[simp] theorem toggleBuf_outEn : (toggleBuf s).outEn = s.outEn := rfl
@[simp] theorem toggleBuf_irqEn : (toggleBuf s).irqEn = s.irqEn := rfl
@[simp] theorem toggleBuf_irqPend : (toggleBuf s).irqPend = s.irqPend := rfl
@[simp] theorem toggleBuf_polling : (toggleBuf s).polling = s.polling := rfl
@[simp] theorem toggleBuf_line : (toggleBuf s).line = s.line := rfl
@[simp] theorem toggleBuf_frame : (toggleBuf s).frame = s.frame := rfl
@[simp] theorem toggleBuf_bufIdx : (toggleBuf s).bufIdx = s.bufIdx.other := rfl
@[simp] theorem toggleBuf_cur : (toggleBuf s).cur = s.cur := rfl
@[simp] theorem toggleBuf_rdptr : (toggleBuf s).rdptr = s.rdptr := rfl
@[simp] theorem toggleBuf_lineBuf : (toggleBuf s).lineBuf = s.lineBuf := rfl
@[simp] theorem toggleBuf_desc : (toggleBuf s).desc = s.desc := rfl
@[simp] theorem toggleBuf_xform : (toggleBuf s).xform = s.xform := rfl
@[simp] theorem toggleBuf_xformSave : (toggleBuf s).xformSave = s.xformSave := rfl
@[simp] theorem toggleBuf_diagEntry : (toggleBuf s).diagEntry = s.diagEntry := rfl
@[simp] theorem toggleBuf_diagExit : (toggleBuf s).diagExit = s.diagExit := rfl
@[simp] theorem toggleBuf_mem : (toggleBuf s).mem = s.mem := rfl
@[simp] theorem toggleBuf_out : (toggleBuf s).out = s.out := rfl
@[simp] theorem toggleBuf_result : (toggleBuf s).result = s.result := rfl
@[simp] theorem toggleBuf_sched : (toggleBuf s).sched = s.sched := rfl
@[simp] theorem toggleBuf_encPlans : (toggleBuf s).encPlans = s.encPlans := rfl
@[simp] theorem toggleBuf_freeCount : (toggleBuf s).freeCount = s.freeCount := rfl

/-! `beginEncode` -/

@[simp] theorem beginEncode_cfg : (beginEncode s).cfg = s.cfg := rfl
@[simp] theorem beginEncode_req : (beginEncode s).req = s.req := rfl
@[simp] theorem beginEncode_run : (beginEncode s).run = s.run := rfl
@[simp] theorem beginEncode_outEn : (beginEncode s).outEn = s.outEn := rfl
@[simp] theorem beginEncode_irqEn : (beginEncode s).irqEn = s.irqEn := rfl
@[simp] theorem beginEncode_irqPend : (beginEncode s).irqPend = s.irqPend := rfl
@[simp] theorem beginEncode_polling : (beginEncode s).polling = s.polling := rfl
@[simp] theorem beginEncode_line : (beginEncode s).line = s.line := rfl
@[simp] theorem beginEncode_frame : (beginEncode s).frame = s.frame := rfl
@[simp] theorem beginEncode_bufIdx : (beginEncode s).bufIdx = s.bufIdx := rfl
@[simp] theorem beginEncode_cur : (beginEncode s).cur = s.cur := rfl
@[simp] theorem beginEncode_rdptr : (beginEncode s).rdptr = s.rdptr := rfl
@[simp] theorem beginEncode_lineBuf : (beginEncode s).lineBuf = s.lineBuf := rfl
@[simp] theorem beginEncode_desc : (beginEncode s).desc = s.desc := rfl
@[simp] theorem beginEncode_xform : (beginEncode s).xform = xformValue s.cfg s.cfg.encXform := rfl
@[simp] theorem beginEncode_xformSave : (beginEncode s).xformSave = s.xform := rfl
@[simp] theorem beginEncode_diagEntry : (beginEncode s).diagEntry = s.diagEntry := rfl
@[simp] theorem beginEncode_diagExit : (beginEncode s).diagExit = s.diagExit := rfl
@[simp] theorem beginEncode_mem : (beginEncode s).mem = s.mem := rfl
@[simp] theorem beginEncode_out : (beginEncode s).out = s.out := rfl
@[simp] theorem beginEncode_result : (beginEncode s).result = s.result := rfl
@[simp] theorem beginEncode_sched : (beginEncode s).sched = s.sched := rfl
@[simp] theorem beginEncode_encPlans : (beginEncode s).encPlans = s.encPlans.tail := rfl
@[simp] theorem beginEncode_freeCount : (beginEncode s).freeCount = s.freeCount := rfl

/-! `endEncode` -/

@[simp] theorem endEncode_cfg : (endEncode s).cfg = s.cfg := rfl
@[simp] theorem endEncode_req : (endEncode s).req = s.req := rfl
@[simp] theorem endEncode_run : (endEncode s).run = s.run := rfl
@[simp] theorem endEncode_outEn : (endEncode s).outEn = s.outEn := rfl
@[simp] theorem endEncode_irqEn : (endEncode s).irqEn = s.irqEn := rfl
@[simp] theorem endEncode_irqPend : (endEncode s).irqPend = s.irqPend := rfl
@[simp] theorem endEncode_polling : (endEncode s).polling = s.polling := rfl
@[simp] theorem endEncode_line : (endEncode s).line = s.line := rfl
@[simp] theorem endEncode_frame : (endEncode s).frame = s.frame := rfl
@[simp] theorem endEncode_bufIdx : (endEncode s).bufIdx = s.bufIdx := rfl
@[simp] theorem endEncode_cur : (endEncode s).cur = s.cur := rfl
@[simp] theorem endEncode_rdptr : (endEncode s).rdptr = s.rdptr := rfl
@[simp] theorem endEncode_lineBuf : (endEncode s).lineBuf = s.lineBuf := rfl
@[simp] theorem endEncode_desc : (endEncode s).desc = s.desc := rfl
@[simp] theorem endEncode_xform : (endEncode s).xform = s.xformSave := rfl
@[simp] theorem endEncode_xformSave : (endEncode s).xformSave = s.xformSave := rfl
@[simp] theorem endEncode_diagEntry : (endEncode s).diagEntry = s.diagEntry := rfl
@[simp] theorem endEncode_diagExit : (endEncode s).diagExit = s.diagExit := rfl
@[simp] theorem endEncode_mem : (endEncode s).mem = s.mem := rfl
@[simp] theorem endEncode_out : (endEncode s).out = s.out := rfl
@[simp] theorem endEncode_result : (endEncode s).result = s.result := rfl
@[simp] theorem endEncode_sched : (endEncode s).sched = s.sched := rfl
@[simp] theorem endEncode_encPlans : (endEncode s).encPlans = s.encPlans := rfl
@[simp] theorem endEncode_freeCount : (endEncode s).freeCount = s.freeCount := rfl

/-! `enableAll` -/

@[simp] theorem enableAll_cfg : (enableAll s).cfg = s.cfg := rfl
@[simp] theorem enableAll_req : (enableAll s).req = 0#2 := rfl
@[simp] theorem enableAll_run : (enableAll s).run = true := rfl
@[simp] theorem enableAll_outEn : (enableAll s).outEn = true := rfl
@[simp] theorem enableAll_irqEn : (enableAll s).irqEn = true := rfl
@[simp] theorem enableAll_irqPend : (enableAll s).irqPend = false := rfl
@[simp] theorem enableAll_polling : (enableAll s).polling = false := rfl
@[simp] theorem enableAll_line : (enableAll s).line = s.line := rfl
@[simp] theorem enableAll_frame : (enableAll s).frame = s.frame := rfl
@[simp] theorem enableAll_bufIdx : (enableAll s).bufIdx = s.bufIdx := rfl
@[simp] theorem enableAll_cur : (enableAll s).cur = s.cur := rfl
@[simp] theorem enableAll_rdptr : (enableAll s).rdptr = s.rdptr := rfl
@[simp] theorem enableAll_lineBuf : (enableAll s).lineBuf = s.lineBuf := rfl
@[simp] theorem enableAll_desc : (enableAll s).desc = s.desc := rfl
@[simp] theorem enableAll_xform : (enableAll s).xform = s.xform := rfl
@[simp] theorem enableAll_xformSave : (enableAll s).xformSave = s.xformSave := rfl
@[simp] theorem enableAll_diagEntry : (enableAll s).diagEntry = s.diagEntry := rfl
@[simp] theorem enableAll_diagExit : (enableAll s).diagExit = s.diagExit := rfl
@[simp] theorem enableAll_mem : (enableAll s).mem = s.mem := rfl
@[simp] theorem enableAll_out : (enableAll s).out = [] := rfl
@[simp] theorem enableAll_result : (enableAll s).result = s.result := rfl
@[simp] theorem enableAll_sched : (enableAll s).sched = s.sched := rfl
@[simp] theorem enableAll_encPlans : (enableAll s).encPlans = s.encPlans := rfl
@[simp] theorem enableAll_freeCount : (enableAll s).freeCount = s.freeCount := rfl

/-! `stopBlock` -/

@[simp] theorem stopBlock_cfg : (stopBlock s).cfg = s.cfg := rfl
@[simp] theorem stopBlock_req : (stopBlock s).req = 0#2 := rfl
@[simp] theorem stopBlock_run : (stopBlock s).run = false := rfl
@[simp] theorem stopBlock_outEn : (stopBlock s).outEn = false := rfl
@[simp] theorem stopBlock_irqEn : (stopBlock s).irqEn = false := rfl
@[simp] theorem stopBlock_irqPend : (stopBlock s).irqPend = false := rfl
@[simp] theorem stopBlock_polling : (stopBlock s).polling = s.polling := rfl
@[simp] theorem stopBlock_line : (stopBlock s).line = s.line := rfl
@[simp] theorem stopBlock_frame : (stopBlock s).frame = s.frame := rfl
@[simp] theorem stopBlock_bufIdx : (stopBlock s).bufIdx = s.bufIdx := rfl
@[simp] theorem stopBlock_cur : (stopBlock s).cur = .const none := rfl
@[simp] theorem stopBlock_rdptr : (stopBlock s).rdptr = .const none := rfl
@[simp] theorem stopBlock_lineBuf : (stopBlock s).lineBuf = s.lineBuf := rfl
@[simp] theorem stopBlock_desc : (stopBlock s).desc = s.desc := rfl
@[simp] theorem stopBlock_xform : (stopBlock s).xform = s.xform := rfl
@[simp] theorem stopBlock_xformSave : (stopBlock s).xformSave = s.xformSave := rfl
@[simp] theorem stopBlock_diagEntry : (stopBlock s).diagEntry = s.diagEntry := rfl
@[simp] theorem stopBlock_diagExit : (stopBlock s).diagExit = s.diagExit := rfl
@[simp] theorem stopBlock_mem : (stopBlock s).mem = s.mem := rfl
@[simp] theorem stopBlock_out : (stopBlock s).out = s.out := rfl
@[simp] theorem stopBlock_result : (stopBlock s).result = s.result := rfl
@[simp] theorem stopBlock_sched : (stopBlock s).sched = s.sched := rfl
@[simp] theorem stopBlock_encPlans : (stopBlock s).encPlans = s.encPlans := rfl
@[simp] theorem stopBlock_freeCount : (stopBlock s).freeCount = s.freeCount := rfl

/-! Taking and leaving a tick; the diagnostics fields are the only ones that depend on `DIAG_EN` (R28). -/

@[simp] theorem enterTick_cfg : (enterTick s).cfg = s.cfg := by unfold enterTick; split <;> rfl
@[simp] theorem enterTick_req : (enterTick s).req = s.req := by unfold enterTick; split <;> rfl
@[simp] theorem enterTick_run : (enterTick s).run = s.run := by unfold enterTick; split <;> rfl
@[simp] theorem enterTick_outEn : (enterTick s).outEn = s.outEn := by unfold enterTick; split <;> rfl
@[simp] theorem enterTick_irqEn : (enterTick s).irqEn = s.irqEn := by unfold enterTick; split <;> rfl
@[simp] theorem enterTick_irqPend : (enterTick s).irqPend = false := by unfold enterTick; split <;> rfl
@[simp] theorem enterTick_polling : (enterTick s).polling = true := by unfold enterTick; split <;> rfl
@[simp] theorem enterTick_line : (enterTick s).line = s.line := by unfold enterTick; split <;> rfl
@[simp] theorem enterTick_frame : (enterTick s).frame = s.frame := by unfold enterTick; split <;> rfl
@[simp] theorem enterTick_bufIdx : (enterTick s).bufIdx = s.bufIdx := by unfold enterTick; split <;> rfl
@[simp] theorem enterTick_cur : (enterTick s).cur = s.cur := by unfold enterTick; split <;> rfl
@[simp] theorem enterTick_rdptr : (enterTick s).rdptr = s.rdptr := by unfold enterTick; split <;> rfl
@[simp] theorem enterTick_lineBuf : (enterTick s).lineBuf = s.lineBuf := by unfold enterTick; split <;> rfl
@[simp] theorem enterTick_desc : (enterTick s).desc = s.desc := by unfold enterTick; split <;> rfl
@[simp] theorem enterTick_xform : (enterTick s).xform = s.xform := by unfold enterTick; split <;> rfl
@[simp] theorem enterTick_xformSave : (enterTick s).xformSave = s.xformSave := by unfold enterTick; split <;> rfl
@[simp] theorem enterTick_diagExit : (enterTick s).diagExit = s.diagExit := by unfold enterTick; split <;> rfl
@[simp] theorem enterTick_mem : (enterTick s).mem = s.mem := by unfold enterTick; split <;> rfl
@[simp] theorem enterTick_out : (enterTick s).out = s.out := by unfold enterTick; split <;> rfl
@[simp] theorem enterTick_result : (enterTick s).result = s.result := by unfold enterTick; split <;> rfl
@[simp] theorem enterTick_sched : (enterTick s).sched = s.sched := by unfold enterTick; split <;> rfl
@[simp] theorem enterTick_encPlans : (enterTick s).encPlans = s.encPlans := by unfold enterTick; split <;> rfl
@[simp] theorem leaveTick_cfg : (leaveTick s).cfg = s.cfg := by unfold leaveTick; split <;> rfl
@[simp] theorem leaveTick_req : (leaveTick s).req = s.req := by unfold leaveTick; split <;> rfl
@[simp] theorem leaveTick_run : (leaveTick s).run = s.run := by unfold leaveTick; split <;> rfl
@[simp] theorem leaveTick_outEn : (leaveTick s).outEn = s.outEn := by unfold leaveTick; split <;> rfl
@[simp] theorem leaveTick_irqEn : (leaveTick s).irqEn = s.irqEn := by unfold leaveTick; split <;> rfl
@[simp] theorem leaveTick_irqPend : (leaveTick s).irqPend = s.irqPend := by unfold leaveTick; split <;> rfl
@[simp] theorem leaveTick_polling : (leaveTick s).polling = false := by unfold leaveTick; split <;> rfl
@[simp] theorem leaveTick_line : (leaveTick s).line = s.line := by unfold leaveTick; split <;> rfl
@[simp] theorem leaveTick_frame : (leaveTick s).frame = s.frame := by unfold leaveTick; split <;> rfl
@[simp] theorem leaveTick_bufIdx : (leaveTick s).bufIdx = s.bufIdx := by unfold leaveTick; split <;> rfl
@[simp] theorem leaveTick_cur : (leaveTick s).cur = s.cur := by unfold leaveTick; split <;> rfl
@[simp] theorem leaveTick_rdptr : (leaveTick s).rdptr = s.rdptr := by unfold leaveTick; split <;> rfl
@[simp] theorem leaveTick_lineBuf : (leaveTick s).lineBuf = s.lineBuf := by unfold leaveTick; split <;> rfl
@[simp] theorem leaveTick_desc : (leaveTick s).desc = s.desc := by unfold leaveTick; split <;> rfl
@[simp] theorem leaveTick_xform : (leaveTick s).xform = s.xform := by unfold leaveTick; split <;> rfl
@[simp] theorem leaveTick_xformSave : (leaveTick s).xformSave = s.xformSave := by unfold leaveTick; split <;> rfl
@[simp] theorem leaveTick_diagEntry : (leaveTick s).diagEntry = s.diagEntry := by unfold leaveTick; split <;> rfl
@[simp] theorem leaveTick_mem : (leaveTick s).mem = s.mem := by unfold leaveTick; split <;> rfl
@[simp] theorem leaveTick_out : (leaveTick s).out = s.out := by unfold leaveTick; split <;> rfl
@[simp] theorem leaveTick_result : (leaveTick s).result = s.result := by unfold leaveTick; split <;> rfl
@[simp] theorem leaveTick_sched : (leaveTick s).sched = s.sched := by unfold leaveTick; split <;> rfl
@[simp] theorem leaveTick_encPlans : (leaveTick s).encPlans = s.encPlans := by unfold leaveTick; split <;> rfl

theorem enterTick_quiet (h : s.cfg.diagEn = false) : enterTick s = { s with irqPend := false, polling := true } := by
  simp [enterTick, h]

theorem leaveTick_quiet (h : s.cfg.diagEn = false) : leaveTick s = { s with polling := false } := by
  simp [leaveTick, h]

/-- `enterTick` as one record update. -/
theorem enterTick_eq : enterTick s =
    { s with
      irqPend := false, polling := true, diagEntry := (enterTick s).diagEntry, freeCount := (enterTick s).freeCount } := by
  unfold enterTick; split <;> rfl

/-- `leaveTick` as one record update. -/
theorem leaveTick_eq : leaveTick s =
    { s with polling := false, diagExit := (leaveTick s).diagExit, freeCount := (leaveTick s).freeCount } := by
  unfold leaveTick; split <;> rfl

end Sys2Proof.Machine
end

