-- ==== Sys2Proof/Laws/Sequencer.lean ====
section
/-! SUPPORT. What loading a descriptor, fetching, and one slot do, once: a lane's part of a slot as a value (`laneMove`) that depends
on the lane alone, and the slot as the three moves. -/

namespace Sys2Proof

theorem LaneMap.set_get {α : Type} (m : LaneMap α) (l : Lane) : m.set l (m.get l) = m := by cases l <;> rfl

theorem LaneMap.set_set {α : Type} (m : LaneMap α) (l : Lane) (v w : α) : (m.set l v).set l w = m.set l w := by
  cases l <;> rfl

namespace Machine

/-- A load that succeeds: the descriptor was not reserved; the lane's segment and pointer are written. -/
theorem loadDescriptor_ok {l : Lane} {d : Descriptor} {s t : State} (h : loadDescriptor l d s = .ok t) :
    d.reserved s.cfg l = false ∧
      t = { s with cur := s.cur.set l (some (segOf d)), rdptr := s.rdptr.set l ((s.rdptr.get l).map (Ptr.advance · d.ring)) } := by
  unfold loadDescriptor at h
  split_ifs at h with hr
  cases h
  exact ⟨by simpa using hr, rfl⟩

theorem loadDescriptor_of {l : Lane} {d : Descriptor} {s : State} (h : d.reserved s.cfg l = false) :
    loadDescriptor l d s = .ok
      { s with cur := s.cur.set l (some (segOf d)), rdptr := s.rdptr.set l ((s.rdptr.get l).map (Ptr.advance · d.ring)) } := by
  unfold loadDescriptor
  rw [if_neg (by simp [h])]
  rfl

/-- The fetch's operand depends on the lane's pointer and the descriptor memory alone. -/
theorem fetchDescriptor_congr {s s' : State} {l : Lane} (hp : s'.rdptr.get l = s.rdptr.get l) (hd : s'.desc = s.desc) :
    fetchDescriptor s' l = fetchDescriptor s l := by
  unfold fetchDescriptor readDesc
  rw [hp, hd]

/-- What a fetch reads: the pointer, the word, the decoded descriptor. -/
theorem fetchDescriptor_ok {s : State} {l : Lane} {d : Descriptor} (h : fetchDescriptor s l = .ok d) :
    ∃ p w, s.rdptr.get l = some p ∧ readDesc s l p = some w ∧ decodeDesc w = .ok d := by
  unfold fetchDescriptor at h
  split at h
  · cases h
  · rename_i p hp
    split at h
    · cases h
    · rename_i w hw
      split at h
      · cases h
      · rename_i d' hd
        cases h
        exact ⟨p, w, hp, hw, hd⟩

theorem fetchDescriptor_of {s : State} {l : Lane} {d : Descriptor} {p : Ptr} {w : Word} (hp : s.rdptr.get l = some p)
    (hw : readDesc s l p = some w) (hd : decodeDesc w = .ok d) : fetchDescriptor s l = .ok d := by
  simp only [fetchDescriptor, hp, hw, hd]

/-- One lane's part of a slot, as a value: the word, the segment and pointer after it, and whether it notifies. -/
structure Move where
  word : Word
  seg : Seg
  ptr : Option Ptr
  irq : Bool

/-- A lane's move in this slot (R159, R160). -/
def laneMove (s : State) (l : Lane) : Except Fault Move :=
  match s.cur.get l with
  | none => .error .uninit
  | some g =>
    match slotWord s l g with
    | .error f => .error f
    | .ok w =>
      if (segNext g).rem = 0 then
        match fetchDescriptor s l with
        | .error f => .error f
        | .ok d =>
          if d.reserved s.cfg l then .error .badDescriptor
          else .ok ⟨w, segOf d, (s.rdptr.get l).map (Ptr.advance · d.ring), g.irq⟩
      else .ok ⟨w, segNext g, s.rdptr.get l, false⟩

/-- The state with a lane's move made. -/
def applyMove (l : Lane) (m : Move) (s : State) : State :=
  { s with cur := s.cur.set l (some m.seg), rdptr := s.rdptr.set l m.ptr, irqPend := s.irqPend || m.irq }

theorem laneSlot_eq (l : Lane) (s : State) :
    laneSlot l s = (laneMove s l).map (fun m => (m.word, applyMove l m s)) := by
  unfold laneSlot laneMove
  cases hc : s.cur.get l with
  | none => rfl
  | some g =>
    dsimp only
    cases hw : slotWord s l g with
    | error f => rfl
    | ok w =>
      dsimp only
      unfold advanceLane
      by_cases hr : (segNext g).rem = 0
      · rw [if_pos hr, if_pos hr]
        unfold completeLane fetchLane
        cases hi : g.irq with
        | true =>
          have hi' : (segNext g).irq = true := hi
          rw [if_pos hi']
          rw [fetchDescriptor_congr (s := s) (by rfl) (by rfl)]
          cases hd : fetchDescriptor s l with
          | error f => rfl
          | ok d =>
            dsimp only
            by_cases hres : d.reserved s.cfg l = true
            · simp [loadDescriptor, hres, Except.map]
            · simp only [Bool.not_eq_true] at hres
              rw [loadDescriptor_of (by simpa using hres)]
              simp [hres, Except.map, applyMove, LaneMap.set_set]
        | false =>
          have hi' : ¬ (segNext g).irq = true := by simp [segNext, hi]
          rw [if_neg hi']
          rw [fetchDescriptor_congr (s := s) (by rfl) (by rfl)]
          cases hd : fetchDescriptor s l with
          | error f => rfl
          | ok d =>
            dsimp only
            by_cases hres : d.reserved s.cfg l = true
            · simp [loadDescriptor, hres, Except.map]
            · simp only [Bool.not_eq_true] at hres
              rw [loadDescriptor_of (by simpa using hres)]
              simp [hres, Except.map, applyMove, LaneMap.set_set]
      · rw [if_neg hr, if_neg hr]
        simp [Except.map, applyMove, LaneMap.set_get, setCur]

/-- A move depends on the configuration, the line buffers, the descriptors and the lane's own registers. -/
theorem laneMove_congr {s s' : State} {l : Lane} (hc : s'.cfg = s.cfg) (hb : s'.lineBuf = s.lineBuf) (hd : s'.desc = s.desc)
    (hg : s'.cur.get l = s.cur.get l) (hp : s'.rdptr.get l = s.rdptr.get l) : laneMove s' l = laneMove s l := by
  have hf : fetchDescriptor s' l = fetchDescriptor s l := fetchDescriptor_congr hp hd
  have hw : ∀ g, slotWord s' l g = slotWord s l g := fun g => by
    unfold slotWord readLineWord
    rw [hc, hb]
  unfold laneMove
  rw [hg, hf, hc, hp]
  simp only [hw]

theorem laneMove_applyMove {s : State} {l l' : Lane} {m : Move} (h : l' ≠ l) :
    laneMove (applyMove l m s) l' = laneMove s l' :=
  laneMove_congr rfl rfl rfl (LaneMap.get_set_ne _ _ _ _ h) (LaneMap.get_set_ne _ _ _ _ h)

/-- The state after a slot in which the lanes make the moves `m`. -/
def slotResult (m : Lane → Move) (s : State) : State :=
  { s with
    cur := ⟨some (m .lane0).seg, some (m .lane1).seg, some (m .lane2).seg⟩
    rdptr := ⟨(m .lane0).ptr, (m .lane1).ptr, (m .lane2).ptr⟩
    irqPend := s.irqPend || (m .lane0).irq || (m .lane1).irq || (m .lane2).irq
    out := s.out ++ [⟨(m .lane0).word, (m .lane1).word, (m .lane2).word⟩] }

/-- A slot in which every lane can move. -/
theorem slotStep_of {s : State} {m : Lane → Move} (h : ∀ l, laneMove s l = .ok (m l)) :
    slotStep s = .ok (slotResult m s) := by
  unfold slotStep
  rw [laneSlot_eq, h .lane0]
  simp only [Except.map]
  rw [laneSlot_eq, laneMove_applyMove (by decide), h .lane1]
  simp only [Except.map]
  rw [laneSlot_eq, laneMove_applyMove (by decide), laneMove_applyMove (by decide), h .lane2]
  rfl

/-- A slot that succeeds is three moves. -/
theorem slotStep_ok {s t : State} (h : slotStep s = .ok t) :
    ∃ m : Lane → Move, (∀ l, laneMove s l = .ok (m l)) ∧ t = slotResult m s := by
  have key : ∀ l, ∃ m, laneMove s l = .ok m := by
    unfold slotStep at h
    rw [laneSlot_eq] at h
    cases h0 : laneMove s .lane0 with
    | error f => rw [h0] at h; cases h
    | ok m0 =>
      rw [h0] at h
      simp only [Except.map] at h
      rw [laneSlot_eq, laneMove_applyMove (by decide)] at h
      cases h1 : laneMove s .lane1 with
      | error f => rw [h1] at h; cases h
      | ok m1 =>
        rw [h1] at h
        simp only [Except.map] at h
        rw [laneSlot_eq, laneMove_applyMove (by decide), laneMove_applyMove (by decide)] at h
        cases h2 : laneMove s .lane2 with
        | error f => rw [h2] at h; cases h
        | ok m2 =>
          intro l
          cases l
          · exact ⟨m0, h0⟩
          · exact ⟨m1, h1⟩
          · exact ⟨m2, h2⟩
  choose m hm using key
  refine ⟨m, hm, ?_⟩
  rw [slotStep_of hm] at h
  cases h
  rfl

/-- What a move that succeeds is made of. -/
theorem laneMove_ok {s : State} {l : Lane} {m : Move} (h : laneMove s l = .ok m) :
    ∃ g, s.cur.get l = some g ∧ slotWord s l g = .ok m.word ∧
      ((g.rem - 1 ≠ 0 ∧ m.seg = segNext g ∧ m.ptr = s.rdptr.get l ∧ m.irq = false) ∨
        (g.rem - 1 = 0 ∧ ∃ d p, fetchDescriptor s l = .ok d ∧ d.reserved s.cfg l = false ∧ s.rdptr.get l = some p ∧
          m.seg = segOf d ∧ m.ptr = some (p.advance d.ring) ∧ m.irq = g.irq)) := by
  unfold laneMove at h
  split at h
  · cases h
  · rename_i g hg
    split at h
    · cases h
    · rename_i w hw
      split_ifs at h with hr
      · split at h
        · cases h
        · rename_i d hd
          split_ifs at h with hres
          cases h
          obtain ⟨p, _, hp, -, -⟩ := fetchDescriptor_ok hd
          exact ⟨g, hg, hw, .inr ⟨hr, d, p, hd, by simpa using hres, hp, rfl, by rw [hp]; rfl, rfl⟩⟩
      · cases h
        exact ⟨g, hg, hw, .inl ⟨hr, rfl, rfl, rfl⟩⟩

/-- A slot never changes the category a lane's pointer names (R157). -/
theorem laneMove_cat {s : State} {l : Lane} {m : Move} (h : laneMove s l = .ok m) :
    m.ptr.map Ptr.cat = (s.rdptr.get l).map Ptr.cat := by
  obtain ⟨g, -, -, ⟨-, -, hp, -⟩ | ⟨-, d, p, -, -, hp, -, hm, -⟩⟩ := laneMove_ok h
  · rw [hp]
  · rw [hp, hm]
    rfl

/-- A slot that is enabled and succeeds, or one that is not enabled. -/
theorem execSeqSlot_next {s t : State} (h : exec .seqSlot s = .next t) :
    (slotEnabled s = false ∧ t = s) ∨
      (slotEnabled s = true ∧ ∃ m : Lane → Move, (∀ l, laneMove s l = .ok (m l)) ∧ t = slotResult m s) := by
  simp only [exec, execSeqSlot] at h
  split_ifs at h with he
  · right
    refine ⟨he, ?_⟩
    cases hs : slotStep s with
    | error f => rw [hs] at h; cases h
    | ok u =>
      rw [hs] at h
      cases h
      exact slotStep_ok hs
  · left
    cases h
    exact ⟨by simpa using he, rfl⟩

theorem execSeqSlot_of {s : State} {m : Lane → Move} (he : slotEnabled s = true) (h : ∀ l, laneMove s l = .ok (m l)) :
    exec .seqSlot s = .next (slotResult m s) := by
  simp only [exec, execSeqSlot, if_pos he, slotStep_of h, outcomeOf]

/-- The segment of a lane after a slot. -/
theorem slotResult_cur (m : Lane → Move) (s : State) (l : Lane) : (slotResult m s).cur.get l = some (m l).seg := by
  cases l <;> rfl

theorem slotResult_rdptr (m : Lane → Move) (s : State) (l : Lane) : (slotResult m s).rdptr.get l = (m l).ptr := by
  cases l <;> rfl

theorem slotEnabled_iff {s : State} :
    slotEnabled s = true ↔ s.run = true ∧ s.outEn = true ∧ ∀ l, (s.cur.get l).isSome = true := by
  simp only [slotEnabled, allArmed, Bool.and_eq_true, Lane.all_true, and_assoc]

/-- After a slot every lane still has a segment and the block still runs. -/
theorem slotResult_enabled {m : Lane → Move} {s : State} (h : slotEnabled s = true) :
    slotEnabled (slotResult m s) = true := by
  rw [slotEnabled_iff] at h ⊢
  exact ⟨h.1, h.2.1, fun l => by rw [slotResult_cur]; rfl⟩

theorem windowOpen_iff {s : State} : windowOpen s = true ↔ ∀ l, ∃ k, s.rdptr.get l = some ⟨k, 0#2⟩ := by
  unfold windowOpen
  rw [Lane.all_true]
  refine forall_congr' fun l => ?_
  unfold atRingStart
  constructor
  · intro h
    split at h
    · rename_i p hp
      obtain ⟨k, i⟩ := p
      simp only [beq_iff_eq] at h
      subst h
      exact ⟨k, hp⟩
    · cases h
  · rintro ⟨k, hk⟩
    simp [hk]

end Machine

end Sys2Proof
end

