-- ==== Sys2Proof/Laws/Chains.lean ====
section
/-! SUPPORT. The built rings (R152, R153), segment by segment: what a fetch reads from them, and in which slot of a line each
segment begins. -/

namespace Sys2Proof.Machine

variable {c : Cfg} {l : Lane} {k : Cat}

/-- Reading the built descriptor memory. -/
theorem readDesc_built {s : State} (h : s.desc = builtDesc s.cfg) (l : Lane) (p : Ptr) :
    readDesc s l p = ((lineDescs s.cfg l p.cat)[p.idx.toNat]?).map encodeDesc := by
  obtain ⟨k, i⟩ := p
  have hi : i = 0#2 ∨ i = 1#2 ∨ i = 2#2 ∨ i = 3#2 := by
    revert i; decide
  unfold readDesc
  rw [h]
  rcases hi with rfl | rfl | rfl | rfl <;> cases l <;> cases k <;> rfl

/-- A segment of lane 0. -/
theorem mem_syncDescs {d : Descriptor} (h : d ∈ lineDescs c .lane0 k) :
    d = segPatDesc .lane0 (porchKind k) c.hFront false ∨ d = segPatDesc .lane0 (pulseKind k) c.hSync false ∨
      d = segPatDesc .lane0 (porchKind k) c.hBack true ∨ d = lastDesc c .lane0 k := by
  simpa [lineDescs, syncDescs] using h

theorem count_segPatDesc {sel : BitVec 3} {n : Nat} {irq : Bool} (h : n ≤ 65535) :
    (segPatDesc l sel n irq).count.toNat = n := by
  simp only [segPatDesc, BitVec.toNat_ofNat]
  omega

theorem count_lastDesc (h : c.hActive ≤ 65535) : (lastDesc c l k).count.toNat = c.hActive := by
  cases k <;> simp only [lastDesc, segPatDesc, segBufDesc, BitVec.toNat_ofNat] <;> omega

theorem reserved_segPatDesc {sel : BitVec 3} {n : Nat} {irq : Bool} (h1 : 1 ≤ n) (h : n ≤ 65535) (hs : sel.toNat ≤ 4) :
    (segPatDesc l sel n irq).reserved c l = false := by
  have hc := count_segPatDesc (l := l) (sel := sel) (irq := irq) h
  simp only [Descriptor.reserved, Bool.or_eq_false_iff, beq_eq_false_iff_ne, ne_eq]
  refine ⟨⟨fun e => ?_, by simp [segPatDesc]⟩, by
    show decide (4 < sel.toNat) = false
    simpa using hs⟩
  rw [e] at hc
  simp at hc
  omega

theorem reserved_lastDesc (h1 : 1 ≤ c.hActive) (h : c.hActive ≤ 65535) : (lastDesc c l k).reserved c l = false := by
  have hc := count_lastDesc (l := l) (k := k) h
  have hn : (lastDesc c l k).count ≠ 0#16 := fun e => by
    rw [e] at hc
    simp at hc
    omega
  have hr : (lastDesc c l k).ring = l.ring := by cases k <;> rfl
  simp only [Descriptor.reserved, Bool.or_eq_false_iff, beq_eq_false_iff_ne, ne_eq]
  refine ⟨⟨hn, by simp [hr]⟩, ?_⟩
  rw [hc]
  cases k <;> cases l <;> simp [lastDesc, segPatDesc, segBufDesc, Buf.sel]

/-- What every segment of a built ring is: legal, at least one slot long, its lane's `RING`. -/
theorem lineDescs_legal (hv : c.valid = true) {d : Descriptor} (h : d ∈ lineDescs c l k) :
    d.reserved c l = false ∧ 1 ≤ d.count.toNat ∧ d.ring = l.ring ∧ (d.kind = .buf → d.sel.toNat < 2) := by
  obtain ⟨⟨f1, f2⟩, ⟨s1, s2⟩, ⟨b1, b2⟩, ⟨a1, a2⟩, hp⟩ := Cfg.valid_hor hv
  have hpk : (porchKind k).toNat ≤ 4 := by cases k <;> decide
  have huk : (pulseKind k).toNat ≤ 4 := by cases k <;> decide
  have last : ∀ l, (lastDesc c l k).reserved c l = false ∧ 1 ≤ (lastDesc c l k).count.toNat ∧ (lastDesc c l k).ring = l.ring ∧
      ((lastDesc c l k).kind = .buf → (lastDesc c l k).sel.toNat < 2) := fun l =>
    ⟨reserved_lastDesc a1 a2, by rw [count_lastDesc a2]; omega, by cases k <;> rfl,
      fun h => by cases k <;> cases l <;> first | exact (by decide : (0 : Nat) < 2) | exact (by decide : (1 : Nat) < 2) | cases h⟩
  have pat : ∀ (l : Lane) (sel : BitVec 3) (n : Nat) (irq : Bool), 1 ≤ n → n ≤ 65535 → sel.toNat ≤ 4 →
      (segPatDesc l sel n irq).reserved c l = false ∧ 1 ≤ (segPatDesc l sel n irq).count.toNat ∧
        (segPatDesc l sel n irq).ring = l.ring ∧
        ((segPatDesc l sel n irq).kind = .buf → (segPatDesc l sel n irq).sel.toNat < 2) := fun l sel n irq h1 h2 h3 =>
    ⟨reserved_segPatDesc h1 h2 h3, by rw [count_segPatDesc h2]; omega, rfl, fun h => by cases h⟩
  cases l with
  | lane0 =>
    rcases mem_syncDescs h with rfl | rfl | rfl | rfl
    · exact pat _ _ _ _ f1 f2 hpk
    · exact pat _ _ _ _ s1 s2 huk
    · exact pat _ _ _ _ b1 b2 hpk
    · exact last _
  | lane1 =>
    rcases (by simpa [lineDescs, dataDescs] using h : d = segPatDesc .lane1 0#3 (c.hFront + c.hSync + c.hBack) false ∨
      d = lastDesc c .lane1 k) with rfl | rfl
    · exact pat _ _ _ _ (by omega) (by omega) (by decide)
    · exact last _
  | lane2 =>
    rcases (by simpa [lineDescs, dataDescs] using h : d = segPatDesc .lane2 0#3 (c.hFront + c.hSync + c.hBack) false ∨
      d = lastDesc c .lane2 k) with rfl | rfl
    · exact pat _ _ _ _ (by omega) (by omega) (by decide)
    · exact last _

theorem lineDescs_length (c : Cfg) (l : Lane) (k : Cat) : (lineDescs c l k).length = l.nseg := by cases l <;> rfl

/-- There is a segment at every index of the ring. -/
theorem lineDescs_get {i : Nat} (h : i < l.nseg) : ∃ d, (lineDescs c l k)[i]? = some d :=
  ⟨_, List.getElem?_eq_getElem (by rwa [lineDescs_length])⟩

/-- A fetch from the built rings decodes to the segment at its index (R157). -/
theorem fetchDescriptor_built {s : State} {p : Ptr} {d : Descriptor} (hv : s.cfg.valid = true) (hd : s.desc = builtDesc s.cfg)
    (hp : s.rdptr.get l = some p) (h : (lineDescs s.cfg l p.cat)[p.idx.toNat]? = some d) : fetchDescriptor s l = .ok d := by
  refine fetchDescriptor_of hp (w := encodeDesc d) ?_ ?_
  · rw [readDesc_built hd, h]; rfl
  · exact decodeDesc_encodeDesc d (lineDescs_legal hv (List.mem_of_getElem? h)).2.2.2

/-- The lengths of the segments of a lane, in slots: the same in every category (R154). -/
def segLen (c : Cfg) (l : Lane) (i : Nat) : Nat :=
  match l, i with
  | .lane0, 0 => c.hFront
  | .lane0, 1 => c.hSync
  | .lane0, 2 => c.hBack
  | .lane0, _ => c.hActive
  | .lane1, 0 => c.hFront + c.hSync + c.hBack
  | .lane1, _ => c.hActive
  | .lane2, 0 => c.hFront + c.hSync + c.hBack
  | .lane2, _ => c.hActive

theorem count_lineDescs (hv : c.valid = true) {i : Nat} {d : Descriptor} (h : (lineDescs c l k)[i]? = some d) :
    i < l.nseg ∧ d.count.toNat = segLen c l i := by
  obtain ⟨⟨f1, f2⟩, ⟨s1, s2⟩, ⟨b1, b2⟩, ⟨a1, a2⟩, hp⟩ := Cfg.valid_hor hv
  have hi : i < l.nseg := by
    rw [← lineDescs_length c l k]
    exact (List.getElem?_eq_some_iff.mp h).1
  refine ⟨hi, ?_⟩
  cases l with
  | lane0 =>
    have : i = 0 ∨ i = 1 ∨ i = 2 ∨ i = 3 := by simp only [Lane.nseg] at hi; omega
    rcases this with rfl | rfl | rfl | rfl <;> cases h
    · exact count_segPatDesc f2
    · exact count_segPatDesc s2
    · exact count_segPatDesc b2
    · exact count_lastDesc a2
  | lane1 =>
    have : i = 0 ∨ i = 1 := by simp only [Lane.nseg] at hi; omega
    rcases this with rfl | rfl <;> cases h
    · exact count_segPatDesc hp
    · exact count_lastDesc a2
  | lane2 =>
    have : i = 0 ∨ i = 1 := by simp only [Lane.nseg] at hi; omega
    rcases this with rfl | rfl <;> cases h
    · exact count_segPatDesc hp
    · exact count_lastDesc a2

/-- Where each segment of a lane begins, as `segStart` counts it, by the lengths. -/
def segBegin (c : Cfg) (l : Lane) (i : Nat) : Nat :=
  match l, i with
  | _, 0 => 0
  | .lane0, 1 => c.hFront
  | .lane0, 2 => c.hFront + c.hSync
  | _, _ => c.hFront + c.hSync + c.hBack

theorem segStart_eq (hv : c.valid = true) {i : Nat} (hi : i < l.nseg) : segStart c l i = segBegin c l i := by
  obtain ⟨⟨f1, f2⟩, ⟨s1, s2⟩, ⟨b1, b2⟩, ⟨a1, a2⟩, hp⟩ := Cfg.valid_hor hv
  cases l with
  | lane0 =>
    have : i = 0 ∨ i = 1 ∨ i = 2 ∨ i = 3 := by simp only [Lane.nseg] at hi; omega
    rcases this with rfl | rfl | rfl | rfl <;>
      simp [segStart, segBegin, lineDescs, syncDescs, segPatDesc] <;> omega
  | lane1 =>
    have : i = 0 ∨ i = 1 := by simp only [Lane.nseg] at hi; omega
    rcases this with rfl | rfl <;> simp [segStart, segBegin, lineDescs, dataDescs, segPatDesc]; omega
  | lane2 =>
    have : i = 0 ∨ i = 1 := by simp only [Lane.nseg] at hi; omega
    rcases this with rfl | rfl <;> simp [segStart, segBegin, lineDescs, dataDescs, segPatDesc]; omega

/-- A segment begins where the one before ends; the last one ends the line (R154). -/
theorem segBegin_succ (c : Cfg) (l : Lane) {i : Nat} (hi : i < l.nseg) :
    segBegin c l i + segLen c l i = if i + 1 = l.nseg then c.hTotal else segBegin c l (i + 1) := by
  cases l with
  | lane0 =>
    have : i = 0 ∨ i = 1 ∨ i = 2 ∨ i = 3 := by simp only [Lane.nseg] at hi; omega
    rcases this with rfl | rfl | rfl | rfl <;> simp [segBegin, segLen, Lane.nseg, Cfg.hTotal]
  | lane1 =>
    have : i = 0 ∨ i = 1 := by simp only [Lane.nseg] at hi; omega
    rcases this with rfl | rfl <;> simp [segBegin, segLen, Lane.nseg, Cfg.hTotal]
  | lane2 =>
    have : i = 0 ∨ i = 1 := by simp only [Lane.nseg] at hi; omega
    rcases this with rfl | rfl <;> simp [segBegin, segLen, Lane.nseg, Cfg.hTotal]

end Sys2Proof.Machine
end

