-- ==== Sys2Proof/Laws/Memory.lean ====
section
/-! SUPPORT. The framebuffer space and the line buffers: reading after writing, frames, and the canonical form kept. -/

namespace Sys2Proof.Machine

theorem Memory.wf_sorted {m : List Host.Cell} (h : Memory.wf m = true) : Assoc.sorted m = true := by
  simp only [Memory.wf, Bool.and_eq_true] at h
  exact h.1

theorem Memory.wf_nil : Memory.wf [] = true := rfl

/-- Writing a byte keeps the canonical form. -/
theorem Memory.wf_write {m : List Host.Cell} (a : Addr) (b : Byte) (h : Memory.wf m = true) :
    Memory.wf (Memory.write m a b) = true := by
  simp only [Memory.wf, Bool.and_eq_true, List.all_eq_true] at h ⊢
  unfold Memory.write
  split_ifs with hb
  · exact ⟨Assoc.sorted_erase _ h.1, fun e he => h.2 e (Assoc.mem_erase he)⟩
  · refine ⟨Assoc.sorted_insert _ _ h.1, fun e he => ?_⟩
    rcases Assoc.mem_insert he with rfl | he
    · exact ⟨decide_eq_true a.isLt, decide_eq_true hb⟩
    · exact h.2 e he

/-- Writing bytes keeps the canonical form. -/
theorem Memory.wf_writeBytes : ∀ (bs : List Byte) {m : List Host.Cell} (a : Addr), Memory.wf m = true →
    Memory.wf (Memory.writeBytes m a bs) = true
  | [], _, _, h => h
  | _ :: rest, _, a, h => Memory.wf_writeBytes rest (a + 1#32) (Memory.wf_write a _ h)

/-- A byte read where it was just written, in a canonical memory. -/
theorem Memory.read_write_same {m : List Host.Cell} (a : Addr) (b : Byte) (h : Assoc.sorted m = true) :
    Memory.read (Memory.write m a b) a = b := by
  unfold Memory.read Memory.write
  split_ifs with hb
  · rw [Assoc.lookup_erase_same h, hb]; rfl
  · rw [Assoc.lookup_insert_same]; rfl

/-- A write leaves every other byte alone. -/
theorem Memory.read_write_ne (m : List Host.Cell) (a x : Addr) (b : Byte) (h : x ≠ a) :
    Memory.read (Memory.write m a b) x = Memory.read m x := by
  have hn : x.toNat ≠ a.toNat := fun he => h (BitVec.eq_of_toNat_eq he)
  unfold Memory.read Memory.write
  split_ifs with hb
  · rw [Assoc.lookup_erase_ne hn]
  · rw [Assoc.lookup_insert_ne hn]

/-- A word of a line buffer read where it was just written. -/
@[simp] theorem readLineWord_write_same (s : State) (l : Lane) (b : Buf) (j : Nat) (w : Word) :
    readLineWord (writeLineWord l b j w s) l b j = some w := by
  simp [readLineWord, writeLineWord]

/-- A write of a line-buffer word leaves every other word alone. -/
theorem readLineWord_write_ne (s : State) (l l' : Lane) (b b' : Buf) (j j' : Nat) (w : Word)
    (h : ¬(l' = l ∧ b' = b ∧ j' = j)) :
    readLineWord (writeLineWord l b j w s) l' b' j' = readLineWord s l' b' j' := by
  unfold readLineWord writeLineWord
  by_cases hl : l' = l
  · subst hl
    rw [LaneMap.get_set_same]
    by_cases hb : b' = b
    · subst hb
      rw [BufMap.get_set_same]
      exact Assoc.lookup_insert_ne (fun hj => h ⟨rfl, rfl, hj⟩) w _
    · rw [BufMap.get_set_ne _ _ _ _ hb]
  · rw [LaneMap.get_set_ne _ _ _ _ hl]

/-- Line buffers stay in canonical order under a write. -/
theorem sorted_writeLineWord {s : State} (l : Lane) (b : Buf) (j : Nat) (w : Word)
    (h : ∀ l b, Assoc.sorted ((s.lineBuf.get l).get b) = true) :
    ∀ l' b', Assoc.sorted (((writeLineWord l b j w s).lineBuf.get l').get b') = true := by
  intro l' b'
  unfold writeLineWord
  by_cases hl : l' = l
  · subst hl
    rw [LaneMap.get_set_same]
    by_cases hb : b' = b
    · subst hb
      rw [BufMap.get_set_same]
      exact Assoc.sorted_insert _ _ (h _ _)
    · rw [BufMap.get_set_ne _ _ _ _ hb]
      exact h _ _
  · rw [LaneMap.get_set_ne _ _ _ _ hl]
    exact h _ _

theorem sortedFrom_filled (w : Word) : ∀ (n k : Nat) (lo : Option Nat), (∀ b, lo = some b → b < k) →
    Assoc.sortedFrom lo ((List.range' k n).map (fun j => (j, w))) = true
  | 0, _, _, _ => rfl
  | n + 1, k, lo, h => by
    simp only [List.range'_succ, List.map_cons, Assoc.sortedFrom, Bool.and_eq_true]
    refine ⟨?_, sortedFrom_filled w n (k + 1) (some k) (fun b hb => by cases hb; omega)⟩
    cases lo with
    | none => rfl
    | some b => simpa using h b rfl

/-- A filled buffer is in canonical order. -/
theorem sorted_filledWords (n : Nat) (w : Word) : Assoc.sorted (filledWords n w) = true := by
  unfold filledWords Assoc.sorted
  rw [List.range_eq_range']
  exact sortedFrom_filled w n 0 none (fun _ hb => by cases hb)

theorem lookup_filled (w : Word) : ∀ (n k j : Nat),
    Assoc.lookup j ((List.range' k n).map (fun j => (j, w))) = if k ≤ j ∧ j < k + n then some w else none
  | 0, k, j => by
    simp only [List.range'_zero, List.map_nil, Assoc.lookup]
    rw [if_neg (by omega)]
  | n + 1, k, j => by
    simp only [List.range'_succ, List.map_cons, Assoc.lookup]
    rw [lookup_filled w n (k + 1) j]
    by_cases h : j = k
    · subst h; rw [if_pos rfl, if_pos (by omega)]
    · rw [if_neg h]
      by_cases h2 : k + 1 ≤ j ∧ j < k + 1 + n
      · rw [if_pos h2, if_pos (by omega)]
      · rw [if_neg h2, if_neg (by omega)]

/-- What a filled buffer holds: `w` at each of its `n` places and nothing beyond. -/
theorem lookup_filledWords (n j : Nat) (w : Word) :
    Assoc.lookup j (filledWords n w) = if j < n then some w else none := by
  unfold filledWords
  rw [List.range_eq_range', lookup_filled w n 0 j]
  simp

/-- A filled line buffer answers the fill word (R39). -/
theorem readLineWord_fill (s : State) (w : Word) (l : Lane) (b : Buf) (j : Nat) :
    readLineWord (fillLineBufs w s) l b j = if j < s.cfg.hActive then some w else none := by
  unfold readLineWord fillLineBufs
  rw [LaneMap.get_const]
  cases b <;> exact lookup_filledWords _ _ _

/-- A read of `n` bytes answers `n` bytes, the `k`-th from the `k`-th address. -/
@[simp] theorem Memory.readBytes_length (m : List Host.Cell) : ∀ (n : Nat) (a : Addr), (Memory.readBytes m a n).length = n
  | 0, _ => rfl
  | n + 1, a => by simp [Memory.readBytes, Memory.readBytes_length m n]

theorem Memory.readBytes_getElem (m : List Host.Cell) : ∀ (n : Nat) (a : Addr) (k : Nat) (h : k < (Memory.readBytes m a n).length),
    (Memory.readBytes m a n)[k] = Memory.read m (a + BitVec.ofNat 32 k)
  | 0, _, _, h => absurd h (Nat.not_lt_zero _)
  | n + 1, a, 0, _ => by simp [Memory.readBytes]
  | n + 1, a, k + 1, h => by
    simp only [Memory.readBytes, List.getElem_cons_succ]
    rw [Memory.readBytes_getElem m n, show a + 1#32 + BitVec.ofNat 32 k = a + BitVec.ofNat 32 (k + 1) from
      BitVec.eq_of_toNat_eq (by simp [BitVec.toNat_add]; omega)]

end Sys2Proof.Machine
end

