-- ==== Sys2Proof/Laws/Encoder.lean ====
section
/-! SUPPORT. What one `ENCODE_LINE` does, once: the acts it runs, their frame, the words they write, the memories they see. -/

namespace Sys2Proof.Machine

/-- What an act of another agent leaves alone. -/
theorem foreignAct_frame (a : EncAct) (s : State) :
    foreignAct a s =
      { s with mem := (foreignAct a s).mem, xform := (foreignAct a s).xform, result := (foreignAct a s).result } := by
  cases a with
  | pair l j => rfl
  | store x bs => unfold foreignAct; dsimp only; split <;> rfl
  | xformRead => rfl
  | xformWrite v => rfl

@[simp] theorem foreignAct_cfg (a : EncAct) (s : State) : (foreignAct a s).cfg = s.cfg := by
  rw [foreignAct_frame]

@[simp] theorem readLineWord_foreignAct (a : EncAct) (s : State) (l : Lane) (b : Buf) (j : Nat) :
    readLineWord (foreignAct a s) l b j = readLineWord s l b j := by
  rw [foreignAct_frame]; rfl

/-- The acts of an `ENCODE_LINE`, one rule for reads and one for the rest. -/
theorem runActs_pair (y : Nat) (b : Buf) (l : Lane) (j : Nat) (rest : List EncAct) (done : List (Lane × Nat)) (s : State) :
    runActs y b (.pair l j :: rest) done s =
      if (l, j) ∈ done ∨ ¬ j < s.cfg.hActive then runActs y b rest done s
      else runActs y b rest ((l, j) :: done) (encodePair y b l j s) := rfl

theorem runActs_foreign (y : Nat) (b : Buf) {a : EncAct} (ha : ∀ l j, a ≠ .pair l j) (rest : List EncAct)
    (done : List (Lane × Nat)) (s : State) :
    runActs y b (a :: rest) done s = runActs y b rest done (foreignAct a s) := by
  cases a with
  | pair l j => exact absurd rfl (ha l j)
  | store x bs => rfl
  | xformRead => rfl
  | xformWrite v => rfl

/-- The acts change the line buffers, the memory, `XFORM` and the observer's result, and nothing else. -/
theorem runActs_frame (y : Nat) (b : Buf) : ∀ (acts : List EncAct) (done : List (Lane × Nat)) (s : State),
    runActs y b acts done s =
      { s with
        lineBuf := (runActs y b acts done s).lineBuf, mem := (runActs y b acts done s).mem,
        xform := (runActs y b acts done s).xform, result := (runActs y b acts done s).result }
  | [], _, _ => rfl
  | a :: rest, done, s => by
    by_cases ha : ∃ l j, a = .pair l j
    · obtain ⟨l, j, rfl⟩ := ha
      rw [runActs_pair]
      split_ifs
      · exact runActs_frame y b rest done s
      · rw [runActs_frame y b rest _ (encodePair y b l j s)]
        rfl
    · have ha' : ∀ l j, a ≠ .pair l j := fun l j he => ha ⟨l, j, he⟩
      rw [runActs_foreign y b ha', runActs_frame y b rest done (foreignAct a s), foreignAct_frame]

@[simp] theorem runActs_cfg (y : Nat) (b : Buf) (acts : List EncAct) (done : List (Lane × Nat)) (s : State) :
    (runActs y b acts done s).cfg = s.cfg := by rw [runActs_frame]

/-- A word that is done, outside the line, or of another buffer is left alone. -/
theorem runActs_keeps (y : Nat) (b : Buf) (l : Lane) (b' : Buf) (j : Nat) :
    ∀ (acts : List EncAct) (done : List (Lane × Nat)) (s : State),
      b' ≠ b ∨ (l, j) ∈ done ∨ s.cfg.hActive ≤ j →
      readLineWord (runActs y b acts done s) l b' j = readLineWord s l b' j
  | [], _, _, _ => rfl
  | a :: rest, done, s, h => by
    by_cases ha : ∃ l j, a = .pair l j
    · obtain ⟨l', j', rfl⟩ := ha
      rw [runActs_pair]
      split_ifs with hd
      · exact runActs_keeps y b l b' j rest done s h
      · push Not at hd
        rw [runActs_keeps y b l b' j rest _ (encodePair y b l' j' s)
          (by rcases h with h | h | h
              · exact .inl h
              · exact .inr (.inl (List.mem_cons_of_mem _ h))
              · exact .inr (.inr h))]
        unfold encodePair
        refine readLineWord_write_ne _ _ _ _ _ _ _ _ ?_
        rintro ⟨rfl, rfl, rfl⟩
        rcases h with h | h | h
        · exact h rfl
        · exact hd.1 h
        · omega
    · have ha' : ∀ l j, a ≠ .pair l j := fun l j he => ha ⟨l, j, he⟩
      rw [runActs_foreign y b ha', runActs_keeps y b l b' j rest done _ (by simpa using h), readLineWord_foreignAct]

theorem imagesOf_head (c : Cfg) : ∀ (m : List Host.Cell) (acts : List EncAct), m ∈ imagesOf c m acts
  | _, [] => List.mem_singleton.mpr rfl
  | m, .pair _ _ :: rest => imagesOf_head c m rest
  | m, .xformRead :: rest => imagesOf_head c m rest
  | m, .xformWrite _ :: rest => imagesOf_head c m rest
  | m, .store a bs :: rest => by
    unfold imagesOf
    split_ifs
    · exact imagesOf_head c m rest
    · exact List.mem_cons_self

/-- The images after an act of another agent are among the images before it. -/
theorem imagesOf_foreign {c : Cfg} {a : EncAct} (ha : ∀ l j, a ≠ .pair l j) {rest : List EncAct} {s : State} {m : List Host.Cell}
    (hc : s.cfg = c) (h : m ∈ imagesOf c (foreignAct a s).mem rest) : m ∈ imagesOf c s.mem (a :: rest) := by
  cases a with
  | pair l j => exact absurd rfl (ha l j)
  | xformRead => exact h
  | xformWrite v => exact h
  | store x bs =>
    unfold imagesOf
    unfold foreignAct at h
    dsimp only at h
    rw [hc] at h
    split_ifs at h ⊢
    · exact h
    · exact List.mem_cons_of_mem _ h

/-- No images is never the case, so the last is not changed by one more before it. -/
theorem imagesOf_getLast_cons (c : Cfg) (m m' : List Host.Cell) (acts : List EncAct) :
    (m :: imagesOf c m' acts).getLast? = (imagesOf c m' acts).getLast? :=
  List.getLast?_cons_of_ne_nil (List.ne_nil_of_mem (imagesOf_head c m' acts))

/-- The memory at the end is the last image: every store has landed (R68). -/
theorem runActs_mem_last (y : Nat) (b : Buf) : ∀ (acts : List EncAct) (done : List (Lane × Nat)) (s : State),
    (imagesOf s.cfg s.mem acts).getLast? = some (runActs y b acts done s).mem
  | [], _, _ => rfl
  | .pair l j :: rest, done, s => by
    rw [runActs_pair]
    split_ifs
    · exact runActs_mem_last y b rest done s
    · exact runActs_mem_last y b rest _ (encodePair y b l j s)
  | .xformRead :: rest, done, s => runActs_mem_last y b rest done (foreignAct .xformRead s)
  | .xformWrite v :: rest, done, s => runActs_mem_last y b rest done (foreignAct (.xformWrite v) s)
  | .store x bs :: rest, done, s => by
    have ih := runActs_mem_last y b rest done (foreignAct (.store x bs) s)
    have he : imagesOf s.cfg s.mem (.store x bs :: rest) = if touchesRegs s.cfg x bs.length then imagesOf s.cfg s.mem rest
      else s.mem :: imagesOf s.cfg (Memory.writeBytes s.mem x bs) rest := rfl
    rw [runActs_foreign y b (fun _ _ h => by cases h), ← ih, he]
    simp only [foreignAct]
    split_ifs
    · rfl
    · exact imagesOf_getLast_cons _ _ _ _

/-- A pair of the line that is among the acts and not done is written, from one of the images. -/
theorem runActs_writes (y : Nat) (b : Buf) (l : Lane) (j : Nat) :
    ∀ (acts : List EncAct) (done : List (Lane × Nat)) (s : State),
      EncAct.pair l j ∈ acts → (l, j) ∉ done → j < s.cfg.hActive →
      ∃ m ∈ imagesOf s.cfg s.mem acts, readLineWord (runActs y b acts done s) l b j = some (lineWord s.cfg m y l j)
  | [], _, _, h, _, _ => by simp at h
  | a :: rest, done, s, h, hn, hj => by
    by_cases ha : ∃ l j, a = .pair l j
    · obtain ⟨l', j', rfl⟩ := ha
      rw [runActs_pair]
      by_cases he : l' = l ∧ j' = j
      · obtain ⟨rfl, rfl⟩ := he
        rw [if_neg (by push Not; exact ⟨hn, hj⟩)]
        refine ⟨s.mem, imagesOf_head _ _ _, ?_⟩
        rw [runActs_keeps y b l' b j' rest _ _ (.inr (.inl List.mem_cons_self))]
        exact readLineWord_write_same _ _ _ _ _
      · have hr : EncAct.pair l j ∈ rest := by
          rcases List.mem_cons.mp h with h | h
          · cases h; exact absurd ⟨rfl, rfl⟩ he
          · exact h
        split_ifs
        · exact runActs_writes y b l j rest done s hr hn hj
        · exact runActs_writes y b l j rest _ (encodePair y b l' j' s) hr
            (by simp only [List.mem_cons, Prod.mk.injEq, not_or]; exact ⟨fun h => he ⟨h.1.symm, h.2.symm⟩, hn⟩) hj
    · have ha' : ∀ l j, a ≠ .pair l j := fun l j he => ha ⟨l, j, he⟩
      have hr : EncAct.pair l j ∈ rest := by
        rcases List.mem_cons.mp h with h | h
        · exact absurd h.symm (ha' l j)
        · exact h
      rw [runActs_foreign y b ha']
      obtain ⟨m, hm, hw⟩ := runActs_writes y b l j rest done (foreignAct a s) hr hn (by simpa using hj)
      exact ⟨m, imagesOf_foreign ha' rfl (by simpa using hm), by simpa using hw⟩

/-- Every pair of the line is among `allPairs`. -/
theorem mem_allPairs {c : Cfg} {l : Lane} {j : Nat} (h : j < c.hActive) : EncAct.pair l j ∈ allPairs c := by
  unfold allPairs
  rw [List.mem_flatMap]
  exact ⟨l, Lane.all_mem l, List.mem_map.mpr ⟨j, List.mem_range.mpr h, rfl⟩⟩

theorem allPairs_are_pairs {c : Cfg} {a : EncAct} (h : a ∈ allPairs c) : ∃ l j, a = .pair l j := by
  unfold allPairs at h
  rw [List.mem_flatMap] at h
  obtain ⟨l, _, h⟩ := h
  obtain ⟨j, _, rfl⟩ := List.mem_map.mp h
  exact ⟨l, j, rfl⟩

/-- Acts that hold no store add no image. -/
theorem imagesOf_pairs (c : Cfg) : ∀ (ps : List EncAct) (m : List Host.Cell), (∀ a ∈ ps, ∃ l j, a = .pair l j) →
    imagesOf c m ps = [m]
  | [], _, _ => rfl
  | a :: rest, m, h => by
    obtain ⟨l, j, rfl⟩ := h a List.mem_cons_self
    exact imagesOf_pairs c rest m (fun a ha => h a (List.mem_cons_of_mem _ ha))

theorem imagesOf_append_pairs (c : Cfg) (ps : List EncAct) (hp : ∀ a ∈ ps, ∃ l j, a = .pair l j) :
    ∀ (plan : List EncAct) (m : List Host.Cell), imagesOf c m (plan ++ ps) = imagesOf c m plan
  | [], m => by rw [List.nil_append, imagesOf_pairs c ps m hp]; rfl
  | .pair _ _ :: rest, m => imagesOf_append_pairs c ps hp rest m
  | .xformRead :: rest, m => imagesOf_append_pairs c ps hp rest m
  | .xformWrite _ :: rest, m => imagesOf_append_pairs c ps hp rest m
  | .store a bs :: rest, m => by
    simp only [List.cons_append, imagesOf, imagesOf_append_pairs c ps hp rest]

theorem imagesOf_noStores (c : Cfg) : ∀ (plan : List EncAct) (m : List Host.Cell), noStores plan → imagesOf c m plan = [m]
  | [], _, _ => rfl
  | .pair _ _ :: rest, m, h => imagesOf_noStores c rest m (fun a bs hm => h a bs (List.mem_cons_of_mem _ hm))
  | .xformRead :: rest, m, h => imagesOf_noStores c rest m (fun a bs hm => h a bs (List.mem_cons_of_mem _ hm))
  | .xformWrite _ :: rest, m, h => imagesOf_noStores c rest m (fun a bs hm => h a bs (List.mem_cons_of_mem _ hm))
  | .store a bs :: _, _, h => absurd List.mem_cons_self (h a bs)

/-- The acts of one `ENCODE_LINE`. -/
def encodeActs (s : State) : List EncAct := planOf s ++ allPairs s.cfg

theorem encodeLine_eq (y : Nat) (b : Buf) (s : State) :
    encodeLine y b s = endEncode (runActs y b (encodeActs s) [] (beginEncode s)) := rfl

/-- What one `ENCODE_LINE` leaves alone (R136, R138, R140). -/
theorem encodeLine_frame (y : Nat) (b : Buf) (s : State) : encodeLine y b s =
    { s with
      lineBuf := (encodeLine y b s).lineBuf, mem := (encodeLine y b s).mem, xformSave := s.xform,
      encPlans := s.encPlans.tail, result := (encodeLine y b s).result } := by
  rw [encodeLine_eq, runActs_frame]
  rfl

/-- The words one `ENCODE_LINE` writes, each from one of the memories it passed through (R137). -/
theorem encodeLine_writes (y : Nat) (b : Buf) (s : State) (l : Lane) (j : Nat) (hj : j < s.cfg.hActive) :
    ∃ m ∈ imagesOf s.cfg s.mem (planOf s), readLineWord (encodeLine y b s) l b j = some (lineWord s.cfg m y l j) := by
  obtain ⟨m, hm, hw⟩ := runActs_writes y b l j (encodeActs s) [] (beginEncode s)
    (List.mem_append_right _ (mem_allPairs hj)) List.not_mem_nil hj
  refine ⟨m, ?_, hw⟩
  rw [← imagesOf_append_pairs s.cfg (allPairs s.cfg) (fun _ h => allPairs_are_pairs h)]
  exact hm

/-- Words beyond the line and the other buffer are left alone (R140). -/
theorem encodeLine_keeps (y : Nat) (b : Buf) (s : State) (l : Lane) (b' : Buf) (j : Nat)
    (h : b' ≠ b ∨ s.cfg.hActive ≤ j) : readLineWord (encodeLine y b s) l b' j = readLineWord s l b' j :=
  runActs_keeps y b l b' j (encodeActs s) [] (beginEncode s) (h.imp_right .inr)

/-- Every store inside has landed in the memory an `ENCODE_LINE` leaves (R68). -/
theorem encodeLine_mem_last (y : Nat) (b : Buf) (s : State) :
    (imagesOf s.cfg s.mem (planOf s)).getLast? = some (encodeLine y b s).mem := by
  rw [← imagesOf_append_pairs s.cfg (allPairs s.cfg) (fun _ h => allPairs_are_pairs h)]
  exact runActs_mem_last y b (encodeActs s) [] (beginEncode s)

/-- The memory at the end is one of the images. -/
theorem encodeLine_mem (y : Nat) (b : Buf) (s : State) : (encodeLine y b s).mem ∈ imagesOf s.cfg s.mem (planOf s) :=
  List.mem_of_getLast? (encodeLine_mem_last y b s)

/-- With no host store inside, the memory stays (R140). -/
theorem encodeLine_mem_noStores (y : Nat) (b : Buf) {s : State} (h : noStores (planOf s)) : (encodeLine y b s).mem = s.mem := by
  have := encodeLine_mem y b s
  rw [imagesOf_noStores _ _ _ h] at this
  exact List.mem_singleton.mp this

end Sys2Proof.Machine
end

