-- ==== Sys2Proof/Laws/HostBus.lean ====
section
/-! SUPPORT. Host accesses: which reach the register block, and what an aligned 32-bit one does. -/

namespace Sys2Proof.Machine

/-- An access of at least one byte whose address is inside the register block reaches it. -/
theorem touchesRegs_of_offset {c : Cfg} {a : Addr} {n : Nat} (hn : 0 < n) (h : regOffset c a < 0x100) :
    touchesRegs c a n = true := by
  unfold touchesRegs
  rw [List.any_eq_true]
  refine ⟨0, List.mem_range.mpr hn, ?_⟩
  simpa [regOffset] using h

theorem regOffset_base (c : Cfg) (off : Nat) (h : off < 2 ^ 32) : regOffset c (c.regBase + BitVec.ofNat 32 off) = off := by
  unfold regOffset
  rw [show c.regBase + BitVec.ofNat 32 off - c.regBase = BitVec.ofNat 32 off from by ring]
  simpa using Nat.mod_eq_of_lt h

/-- An aligned offset from an aligned base is an aligned address. -/
theorem regAccessOk_base {c : Cfg} {off : Nat} (hb : c.regBase.toNat % 4 = 0) (h4 : off % 4 = 0) (h : off < 0x100) :
    regAccessOk c (c.regBase + BitVec.ofNat 32 off) 4 = true := by
  have ho := regOffset_base c off (by omega)
  simp only [regAccessOk, ho, Bool.and_eq_true, decide_eq_true_eq, true_and]
  refine ⟨?_, h4⟩
  simp only [BitVec.toNat_add, BitVec.toNat_ofNat]
  omega

/-- A host read of a register (R29). -/
theorem busRead_reg {s : State} {off : Nat} (hb : s.cfg.regBase.toNat % 4 = 0) (h4 : off % 4 = 0) (h : off < 0x100) :
    busRead (s.cfg.regBase + BitVec.ofNat 32 off) 4 s = .next (readReg off s) := by
  have ho := regOffset_base s.cfg off (by omega)
  unfold busRead
  rw [if_pos (touchesRegs_of_offset (by omega) (by omega)), if_pos (regAccessOk_base hb h4 h), ho]

/-- A host write to a register (R29). -/
theorem busWrite_reg {s : State} {off : Nat} (b0 b1 b2 b3 : Byte) (hb : s.cfg.regBase.toNat % 4 = 0) (h4 : off % 4 = 0)
    (h : off < 0x100) :
    busWrite (s.cfg.regBase + BitVec.ofNat 32 off) [b0, b1, b2, b3] s = writeReg off (b3 ++ b2 ++ b1 ++ b0) s := by
  have ho := regOffset_base s.cfg off (by omega)
  have hl : [b0, b1, b2, b3].length = 4 := rfl
  unfold busWrite
  rw [if_pos (touchesRegs_of_offset (by simp) (by omega)), if_pos (hl ▸ regAccessOk_base hb h4 h), ho]
  rfl

/-- A host write to `REQ` (R29). -/
theorem busWrite_req {s : State} (b0 b1 b2 b3 : Byte) (hb : s.cfg.regBase.toNat % 4 = 0) :
    busWrite s.cfg.regBase [b0, b1, b2, b3] s = writeReq (b3 ++ b2 ++ b1 ++ b0) s := by
  have h := busWrite_reg (s := s) (off := 0) b0 b1 b2 b3 hb rfl (by omega)
  rwa [BitVec.add_zero] at h

theorem Memory.sorted_writeBytes : ∀ (bs : List Byte) {m : List Host.Cell} (a : Addr), Assoc.sorted m = true →
    Assoc.sorted (Memory.writeBytes m a bs) = true
  | [], _, _, h => h
  | b :: rest, m, a, h => by
    refine Memory.sorted_writeBytes rest (a + 1#32) ?_
    unfold Memory.write
    split_ifs
    · exact Assoc.sorted_erase _ h
    · exact Assoc.sorted_insert _ _ h

/-- A store of bytes leaves every byte outside it alone. -/
theorem Memory.read_writeBytes_outside : ∀ (bs : List Byte) (m : List Host.Cell) (a x : Addr), bs.length ≤ (x - a).toNat →
    Memory.read (Memory.writeBytes m a bs) x = Memory.read m x
  | [], _, _, _, _ => rfl
  | b :: rest, m, a, x, h => by
    simp only [List.length_cons] at h
    have hx : x ≠ a := by
      intro he
      subst he
      simp at h
    have hlt := (x - (a + 1#32)).isLt
    have hsub : (x - (a + 1#32)).toNat = (x - a).toNat - 1 := by
      have e : x - (a + 1#32) = (x - a) - 1#32 := by ring
      rw [e]
      have hp := (x - a).isLt
      rw [BitVec.toNat_sub]
      simp only [BitVec.toNat_ofNat]
      omega
    rw [Memory.writeBytes, Memory.read_writeBytes_outside rest _ _ x (by omega), Memory.read_write_ne _ _ _ _ hx]

/-- A store of bytes, at most the whole space, is read back byte by byte. -/
theorem Memory.read_writeBytes_inside : ∀ (bs : List Byte) (m : List Host.Cell) (a : Addr) (k : Nat) (h : k < bs.length),
    bs.length ≤ 2 ^ 32 → Assoc.sorted m = true →
    Memory.read (Memory.writeBytes m a bs) (a + BitVec.ofNat 32 k) = bs[k]
  | [], _, _, _, h, _, _ => by simp at h
  | b :: rest, m, a, 0, _, hl, hs => by
    simp only [List.length_cons] at hl
    have hd : rest.length ≤ (a - (a + 1#32)).toNat := by
      have e : a - (a + 1#32) = -1#32 := by ring
      rw [e]
      simp
      omega
    simp only [Memory.writeBytes, BitVec.add_zero, List.getElem_cons_zero]
    rw [Memory.read_writeBytes_outside rest _ _ a hd, Memory.read_write_same _ _ hs]
  | b :: rest, m, a, k + 1, h, hl, hs => by
    simp only [List.length_cons] at h hl
    have e : a + BitVec.ofNat 32 (k + 1) = (a + 1#32) + BitVec.ofNat 32 k := by
      rw [show BitVec.ofNat 32 (k + 1) = BitVec.ofNat 32 k + 1#32 from by
        apply BitVec.eq_of_toNat_eq; simp]
      ring
    simp only [Memory.writeBytes, List.getElem_cons_succ]
    rw [e]
    refine Memory.read_writeBytes_inside rest _ (a + 1#32) k (by omega) (by omega) ?_
    unfold Memory.write
    split_ifs
    · exact Assoc.sorted_erase _ hs
    · exact Assoc.sorted_insert _ _ hs

end Sys2Proof.Machine
end

