-- ==== Sys2Proof/Laws/Lifecycle.lean ====
section
/-! SUPPORT. What one `START` and one `STOP` do, once. -/

namespace Sys2Proof.Machine

variable {s t : State}

/-- A fetch that succeeds writes the lane's two registers and nothing else (R157). -/
theorem fetchLane_ok {l : Lane} (h : fetchLane l s = .ok t) :
    ∃ d, fetchDescriptor s l = .ok d ∧ d.reserved s.cfg l = false ∧
      t = { s with cur := s.cur.set l (some (segOf d)), rdptr := s.rdptr.set l ((s.rdptr.get l).map (Ptr.advance · d.ring)) } := by
  unfold fetchLane at h
  cases hd : fetchDescriptor s l with
  | error f => rw [hd] at h; cases h
  | ok d =>
    rw [hd] at h
    exact ⟨d, rfl, loadDescriptor_ok h⟩

theorem fetchLane_of {l : Lane} {d : Descriptor} (hd : fetchDescriptor s l = .ok d) (hr : d.reserved s.cfg l = false) :
    fetchLane l s = .ok
      { s with cur := s.cur.set l (some (segOf d)), rdptr := s.rdptr.set l ((s.rdptr.get l).map (Ptr.advance · d.ring)) } := by
  unfold fetchLane
  rw [hd]
  exact loadDescriptor_of hr

/-- Arming of one lane (R165) writes that lane's two registers and nothing else. -/
theorem armLane_ok {l : Lane} (h : armLane l s = .ok t) :
    t = { s with cur := t.cur, rdptr := t.rdptr } := by
  obtain ⟨d, -, -, rfl⟩ := fetchLane_ok h
  rfl

theorem armAll_ok (h : armAll s = .ok t) : t = { s with cur := t.cur, rdptr := t.rdptr } := by
  unfold armAll at h
  cases h0 : armLane .lane0 s with
  | error f => rw [h0] at h; cases h
  | ok s0 =>
    rw [h0] at h
    dsimp only at h
    cases h1 : armLane .lane1 s0 with
    | error f => rw [h1] at h; cases h
    | ok s1 =>
      rw [h1] at h
      dsimp only at h
      have e2 := armLane_ok h
      have e1 := armLane_ok h1
      have e0 := armLane_ok h0
      rw [e2, e1, e0]

/-- The first segment of the `BLANK` ring (R165). -/
def firstDesc (c : Cfg) (l : Lane) : Descriptor :=
  match l with
  | .lane0 => segPatDesc .lane0 0#3 c.hFront false
  | .lane1 => segPatDesc .lane1 0#3 (c.hFront + c.hSync + c.hBack) false
  | .lane2 => segPatDesc .lane2 0#3 (c.hFront + c.hSync + c.hBack) false

theorem firstDesc_get (c : Cfg) (l : Lane) : (lineDescs c l .blank)[0]? = some (firstDesc c l) := by cases l <;> rfl

/-- Arming of one lane of the built rings (R165). -/
theorem armLane_of (hv : s.cfg.valid = true) (hd : s.desc = builtDesc s.cfg) (l : Lane) :
    armLane l s = .ok
      { s with cur := s.cur.set l (some (segOf (firstDesc s.cfg l))), rdptr := s.rdptr.set l (some ⟨.blank, 1#2⟩) } := by
  have hf : fetchDescriptor (setRdptr l (some ⟨.blank, 0#2⟩) s) l = .ok (firstDesc s.cfg l) :=
    fetchDescriptor_built (s := setRdptr l (some ⟨.blank, 0#2⟩) s) (p := ⟨.blank, 0#2⟩) hv hd
      (LaneMap.get_set_same _ _ _) (firstDesc_get s.cfg l)
  have hr := (lineDescs_legal hv (List.mem_of_getElem? (firstDesc_get s.cfg l))).1
  unfold armLane
  rw [fetchLane_of hf hr]
  have hp : ((setRdptr l (some ⟨.blank, 0#2⟩) s).rdptr.get l).map (Ptr.advance · (firstDesc s.cfg l).ring) =
      some ⟨.blank, 1#2⟩ := by
    rw [show (setRdptr l (some ⟨.blank, 0#2⟩) s).rdptr.get l = some ⟨.blank, 0#2⟩ from LaneMap.get_set_same _ _ _]
    cases l <;> rfl
  rw [hp]
  simp [setRdptr, LaneMap.set_set]

/-- The state every lane is armed in (R39, R165). -/
def armed (s : State) : State :=
  { s with
    cur := ⟨some (segOf (firstDesc s.cfg .lane0)), some (segOf (firstDesc s.cfg .lane1)), some (segOf (firstDesc s.cfg .lane2))⟩
    rdptr := .const (some ⟨.blank, 1#2⟩) }

theorem armAll_of (hv : s.cfg.valid = true) (hd : s.desc = builtDesc s.cfg) : armAll s = .ok (armed s) := by
  unfold armAll
  rw [armLane_of hv hd]
  dsimp only
  rw [armLane_of (s := { s with
    cur := s.cur.set .lane0 (some (segOf (firstDesc s.cfg .lane0))), rdptr := s.rdptr.set .lane0 (some ⟨.blank, 1#2⟩) }) hv hd]
  dsimp only
  refine (armLane_of ?_ ?_ .lane2).trans ?_
  · exact hv
  · exact hd
  · rfl

/-- The state `START` leaves (R39). -/
def started (s : State) : State :=
  enableAll (armed (buildChains (resetScan (fillLineBufs (fillWord s.cfg) s))))

/-- `START` under a valid configuration (R201). -/
theorem startBlock_of (hv : s.cfg.valid = true) : startBlock s = .ok (started s) := by
  unfold startBlock
  rw [armAll_of (s := buildChains (resetScan (fillLineBufs (fillWord s.cfg) s))) hv rfl]
  rfl

/-- What every `START` that succeeds writes. -/
theorem startBlock_ok (h : startBlock s = .ok t) :
    t = enableAll { buildChains (resetScan (fillLineBufs (fillWord s.cfg) s)) with cur := t.cur, rdptr := t.rdptr } := by
  unfold startBlock at h
  cases ha : armAll (buildChains (resetScan (fillLineBufs (fillWord s.cfg) s))) with
  | error f => rw [ha] at h; cases h
  | ok u =>
    rw [ha] at h
    cases h
    have := armAll_ok ha
    rw [show enableAll u = enableAll { buildChains (resetScan (fillLineBufs (fillWord s.cfg) s)) with
      cur := u.cur, rdptr := u.rdptr } from congrArg enableAll this]
    rfl

theorem execStart_next (h : exec .start s = .next t) :
    (s.req ≠ 1#2 ∧ t = s) ∨ (s.req = 1#2 ∧ s.run = false ∧ startBlock s = .ok t) := by
  simp only [exec, execStart] at h
  split_ifs at h with h1 h2
  · right
    refine ⟨h1, by simpa using h2, ?_⟩
    cases hs : startBlock s with
    | error f => rw [hs] at h; cases h
    | ok u => rw [hs] at h; cases h; rfl
  · cases h; exact .inl ⟨h1, rfl⟩

theorem execStop_next (h : exec .stop s = .next t) :
    t = s ∨ (s.req = 2#2 ∧ s.run = true ∧ stopAllowed s = true ∧ t = stopBlock s) := by
  simp only [exec, execStop] at h
  split_ifs at h with h1 h2 h3
  · cases h; exact .inr ⟨h1, h2, h3, rfl⟩
  · cases h; exact .inl rfl
  · cases h; exact .inl rfl

end Sys2Proof.Machine
end

