-- ==== Sys2Proof/Laws/Line.lean ====
section
/-! SUPPORT. One slot of a lane that walks the built rings: the word it sends, the segment it is in afterwards, when it notifies;
and the three lanes together. -/

namespace Sys2Proof.Machine

variable {s t : State} {l : Lane} {k : Cat} {i n : Nat}

/-- The claim about a lane depends on the configuration and the lane's two registers. -/
theorem LaneInSegment.congr (hc : t.cfg = s.cfg) (hg : t.cur.get l = s.cur.get l) (hp : t.rdptr.get l = s.rdptr.get l)
    (h : LaneInSegment s l k i n) : LaneInSegment t l k i n := by
  unfold LaneInSegment at h ⊢
  rw [hc, hg, hp]
  exact h

/-- The segment's index is one of the ring's, and `n` is short of its length. -/
theorem LaneInSegment.bounds (hv : s.cfg.valid = true) (h : LaneInSegment s l k i n) : i < l.nseg ∧ n < segLen s.cfg l i := by
  obtain ⟨d, p, hd, hn, -⟩ := h
  obtain ⟨hi, hc⟩ := count_lineDescs hv hd
  exact ⟨hi, hc ▸ hn⟩

/-- A pattern segment's word (R155), a line-buffer segment's word (R156), as the line has it (R169). -/
theorem slotWord_line (hv : s.cfg.valid = true) (h : LaneInSegment s l k i n) :
    ∃ g, s.cur.get l = some g ∧ ∀ w, wireWord s k l (segBegin s.cfg l i + n) = some w → slotWord s l g = .ok w := by
  obtain ⟨d, p, hd, hn, hg, -⟩ := h
  obtain ⟨hi, hc⟩ := count_lineDescs hv hd
  refine ⟨_, hg, fun w hw => ?_⟩
  rw [hc] at hn
  have pat : ∀ x : BitVec 3, ∀ g : Seg, g.kind = .pat → g.sel = x → ctrlSym? s.cfg x = some w → slotWord s l g = .ok w :=
    fun x g h1 h2 h3 => by simp only [slotWord, h1, h2, h3]
  have buf : ∀ b : Buf, ∀ g : Seg, g.kind = .buf → g.sel = b.sel → readLineWord s l b g.off = some w → slotWord s l g = .ok w :=
    fun b g h1 h2 h3 => by
      have : segBuffer g = some b := by cases b <;> simp [segBuffer, h2, Buf.sel]
      simp only [slotWord, h1, this, h3]
  have last : ∀ pos, pos = s.cfg.hFront + s.cfg.hSync + s.cfg.hBack + n → d = lastDesc s.cfg l k →
      wireWord s k l pos = some w → slotWord s l { segOf d with
        rem := d.count.toNat - n, off := (match d.kind with | .pat => 0 | .buf => n) } = .ok w := by
    rintro pos rfl rfl hw
    unfold wireWord at hw
    dsimp only at hw
    rw [if_neg (by omega)] at hw
    cases k with
    | vsync => exact pat _ _ rfl rfl (by cases l <;> exact hw)
    | blank => exact pat _ _ rfl rfl hw
    | active0 => exact buf .buf0 _ rfl rfl (by rw [Nat.add_sub_cancel_left] at hw; exact hw)
    | active1 => exact buf .buf1 _ rfl rfl (by rw [Nat.add_sub_cancel_left] at hw; exact hw)
  cases l with
  | lane0 =>
    have : i = 0 ∨ i = 1 ∨ i = 2 ∨ i = 3 := by simp only [Lane.nseg] at hi; omega
    rcases this with rfl | rfl | rfl | rfl
    · cases hd
      simp only [segBegin, segLen] at hn hw
      simp only [wireWord] at hw
      rw [if_pos (by omega), if_neg (by omega)] at hw
      exact pat _ _ rfl rfl hw
    · cases hd
      simp only [segBegin, segLen] at hn hw
      simp only [wireWord] at hw
      rw [if_pos (by omega), if_pos (by omega)] at hw
      exact pat _ _ rfl rfl hw
    · cases hd
      simp only [segBegin, segLen] at hn hw
      simp only [wireWord] at hw
      rw [if_pos (by omega), if_neg (by omega)] at hw
      exact pat _ _ rfl rfl hw
    · cases hd
      exact last _ rfl rfl hw
  | lane1 =>
    have : i = 0 ∨ i = 1 := by simp only [Lane.nseg] at hi; omega
    rcases this with rfl | rfl
    · cases hd
      simp only [segBegin, segLen] at hn hw
      simp only [wireWord] at hw
      rw [if_pos (by omega)] at hw
      exact pat _ _ rfl rfl hw
    · cases hd
      exact last _ rfl rfl hw
  | lane2 =>
    have : i = 0 ∨ i = 1 := by simp only [Lane.nseg] at hi; omega
    rcases this with rfl | rfl
    · cases hd
      simp only [segBegin, segLen] at hn hw
      simp only [wireWord] at hw
      rw [if_pos (by omega)] at hw
      exact pat _ _ rfl rfl hw
    · cases hd
      exact last _ rfl rfl hw

/-- The `IRQ` bit of the segments (R152, R153): lane 0's index 2 and no other. -/
theorem irq_lineDescs (c : Cfg) {d : Descriptor} (h : (lineDescs c l k)[i]? = some d) : d.irq = decide (l = .lane0 ∧ i = 2) := by
  have hi : i < l.nseg := by
    rw [← lineDescs_length c l k]
    exact (List.getElem?_eq_some_iff.mp h).1
  cases l with
  | lane0 =>
    have : i = 0 ∨ i = 1 ∨ i = 2 ∨ i = 3 := by simp only [Lane.nseg] at hi; omega
    rcases this with rfl | rfl | rfl | rfl <;> cases h <;> first | rfl | (cases k <;> rfl)
  | lane1 =>
    have : i = 0 ∨ i = 1 := by simp only [Lane.nseg] at hi; omega
    rcases this with rfl | rfl <;> cases h <;> first | rfl | (cases k <;> rfl)
  | lane2 =>
    have : i = 0 ∨ i = 1 := by simp only [Lane.nseg] at hi; omega
    rcases this with rfl | rfl <;> cases h <;> first | rfl | (cases k <;> rfl)

theorem advance_idx (p : Ptr) (l : Lane) {r : BitVec 2} (hr : r = l.ring) (hp : p.idx.toNat < l.nseg) :
    (p.advance r).idx.toNat = (p.idx.toNat + 1) % l.nseg ∧ (p.advance r).cat = p.cat := by
  subst hr
  refine ⟨?_, rfl⟩
  simp only [Ptr.advance, BitVec.toNat_ofNat, Lane.ring_pow]
  cases l <;> simp only [Lane.nseg] at hp ⊢ <;> omega

/-- One slot of a lane inside the built rings: the move exists, sends the line's word, and leads to the next slot of the segment, to the next
segment, or at the end of the line to the first segment of the category the pointer names (R159, R160, R161). -/
theorem laneMove_line (hv : s.cfg.valid = true) (hd : s.desc = builtDesc s.cfg) (h : LaneInSegment s l k i n) {w : Word}
    (hw : wireWord s k l (segBegin s.cfg l i + n) = some w) :
    ∃ m, laneMove s l = .ok m ∧ m.word = w ∧ m.irq = decide (l = .lane0 ∧ i = 2 ∧ n + 1 = s.cfg.hBack) ∧
      ∀ t : State, t.cfg = s.cfg → t.cur.get l = some m.seg → t.rdptr.get l = m.ptr →
        (n + 1 < segLen s.cfg l i → LaneInSegment t l k i (n + 1) ∧ t.rdptr.get l = s.rdptr.get l) ∧
        (n + 1 = segLen s.cfg l i → i + 1 < l.nseg → LaneInSegment t l k (i + 1) 0) ∧
        (n + 1 = segLen s.cfg l i → i + 1 = l.nseg →
          ∃ k', s.rdptr.get l = some ⟨k', 0#2⟩ ∧ LaneInSegment t l k' 0 0) := by
  obtain ⟨g, hg, hword⟩ := slotWord_line hv h
  obtain ⟨d, p, hdesc, hn, hg', hp, hidx, hcat⟩ := h
  obtain ⟨hi, hc⟩ := count_lineDescs hv hdesc
  rw [hg] at hg'
  cases hg'
  have hirq := irq_lineDescs s.cfg hdesc
  have hnseg : 0 < l.nseg := by cases l <;> decide
  by_cases hlast : n + 1 = segLen s.cfg l i
  · -- the segment completes
    have hpi : p.idx.toNat < l.nseg := by rw [hidx]; exact Nat.mod_lt _ hnseg
    obtain ⟨d', hd'⟩ := lineDescs_get (c := s.cfg) (l := l) (k := p.cat) hpi
    have hleg := lineDescs_legal hv (List.mem_of_getElem? hd')
    obtain ⟨-, hc'⟩ := count_lineDescs hv hd'
    have hf := fetchDescriptor_built hv hd hp hd'
    refine ⟨⟨w, segOf d', some (p.advance d'.ring), d.irq⟩, ?_, rfl, ?_, ?_⟩
    · unfold laneMove
      rw [hg]
      dsimp only
      rw [hword w hw]
      dsimp only
      rw [if_pos (by simp only [segNext]; omega), hf]
      dsimp only
      rw [if_neg (by simp [hleg.1]), hp]
      rfl
    · rw [hirq]
      refine decide_eq_decide.mpr ⟨?_, fun h => ⟨h.1, h.2.1⟩⟩
      rintro ⟨rfl, rfl⟩
      exact ⟨rfl, rfl, hlast⟩
    · intro t htc htg htp
      obtain ⟨ha1, ha2⟩ := advance_idx p l hleg.2.2.1 hpi
      have base : LaneInSegment t l p.cat p.idx.toNat 0 :=
        ⟨d', p.advance d'.ring, by rw [htc]; exact hd', hleg.2.1, by
          rw [htg]
          unfold segOf
          cases d'.kind <;> rfl, htp, ha1, fun _ => ha2⟩
      refine ⟨fun h => absurd h (by omega), fun _ h1 => ?_, fun _ h1 => ?_⟩
      · have he : p.idx.toNat = i + 1 := by rw [hidx]; exact Nat.mod_eq_of_lt h1
        have hk : p.cat = k := hcat (fun e => by rw [e] at he; simp at he)
        rw [he, hk] at base
        exact base
      · have he : p.idx.toNat = 0 := by rw [hidx, h1, Nat.mod_self]
        have hz : p.idx = 0#2 := BitVec.eq_of_toNat_eq he
        refine ⟨p.cat, ?_, ?_⟩
        · rw [hp]
          obtain ⟨c, x⟩ := p
          simp only at hz ⊢
          rw [hz]
        · rw [he] at base
          exact base
  · -- the segment goes on
    refine ⟨⟨w, segNext { segOf d with
        rem := d.count.toNat - n, off := (match d.kind with | .pat => 0 | .buf => n) }, some p, false⟩, ?_, rfl, ?_, ?_⟩
    · unfold laneMove
      rw [hg]
      dsimp only
      rw [hword w hw]
      dsimp only
      rw [if_neg (by simp only [segNext]; omega), hp] <;> rfl
    · symm
      refine decide_eq_false ?_
      rintro ⟨rfl, rfl, h3⟩
      exact hlast h3
    · intro t htc htg htp
      refine ⟨fun h1 => ⟨⟨d, p, by rw [htc]; exact hdesc, by omega, ?_, htp, hidx, hcat⟩, by rw [htp, hp]⟩,
        fun h1 => absurd h1 hlast, fun h1 => absurd h1 hlast⟩
      rw [htg]
      unfold segNext segOf
      cases d.kind <;> rfl

/-- The word of every slot of the line exists once the line buffers are filled (R160, R169). -/
theorem wireWord_some (hf : ∀ b j, j < s.cfg.hActive → (readLineWord s l b j).isSome = true) {pos : Nat}
    (hpos : pos < s.cfg.hTotal) : ∃ w, wireWord s k l pos = some w := by
  have sym : ∀ x : BitVec 3, x.toNat < 5 → ∃ w, ctrlSym? s.cfg x = some w := fun x hx => by
    unfold ctrlSym?
    rw [dif_pos hx]
    exact ⟨_, rfl⟩
  have hp : (porchKind k).toNat < 5 := by cases k <;> decide
  have hu : (pulseKind k).toNat < 5 := by cases k <;> decide
  unfold Cfg.hTotal at hpos
  unfold wireWord
  dsimp only
  by_cases hpre : pos < s.cfg.hFront + s.cfg.hSync + s.cfg.hBack
  · rw [if_pos hpre]
    cases l with
    | lane0 =>
      dsimp only
      by_cases hs : s.cfg.hFront ≤ pos ∧ pos < s.cfg.hFront + s.cfg.hSync
      · rw [if_pos hs]
        exact sym _ hu
      · rw [if_neg hs]
        exact sym _ hp
    | lane1 => exact sym _ (by decide)
    | lane2 => exact sym _ (by decide)
  · rw [if_neg hpre]
    cases k with
    | vsync => cases l <;> exact sym _ (by simp)
    | blank => exact sym _ (by simp)
    | active0 => exact Option.isSome_iff_exists.mp (hf _ _ (by omega))
    | active1 => exact Option.isSome_iff_exists.mp (hf _ _ (by omega))

/-- A slot of a line lies in one segment of a lane. -/
theorem segBegin_lt (hv : s.cfg.valid = true) (h : LaneInSegment s l k i n) : segBegin s.cfg l i + n < s.cfg.hTotal := by
  obtain ⟨hi, hn⟩ := h.bounds hv
  have := segBegin_succ s.cfg l hi
  split_ifs at this with he
  · omega
  · have hle : segBegin s.cfg l (i + 1) ≤ s.cfg.hTotal := by
      cases l <;> simp only [Lane.nseg] at hi he <;>
        rcases (by omega : i = 0 ∨ i = 1 ∨ i = 2) with rfl | rfl | rfl <;> simp [segBegin, Cfg.hTotal] <;> omega
    omega

/-- The last segment of a lane is the active width (R154). -/
theorem last_iff (hv : s.cfg.valid = true) (h : LaneInSegment s l k i n) :
    i + 1 = l.nseg ↔ s.cfg.hFront + s.cfg.hSync + s.cfg.hBack ≤ segBegin s.cfg l i + n := by
  obtain ⟨hi, hn⟩ := h.bounds hv
  cases l with
  | lane0 =>
    have : i = 0 ∨ i = 1 ∨ i = 2 ∨ i = 3 := by simp only [Lane.nseg] at hi; omega
    rcases this with rfl | rfl | rfl | rfl <;> simp [segBegin, segLen, Lane.nseg] at hn ⊢ <;> omega
  | lane1 =>
    have : i = 0 ∨ i = 1 := by simp only [Lane.nseg] at hi; omega
    rcases this with rfl | rfl <;> simp [segBegin, segLen, Lane.nseg] at hn ⊢; omega
  | lane2 =>
    have : i = 0 ∨ i = 1 := by simp only [Lane.nseg] at hi; omega
    rcases this with rfl | rfl <;> simp [segBegin, segLen, Lane.nseg] at hn ⊢; omega

/-- The lanes are in one place of their line only. -/
theorem LanesAt.unique (hv : s.cfg.valid = true) {p q : Nat} (h : LanesAt s p) (h' : LanesAt s q) : p = q := by
  obtain ⟨k, i, n, a, b⟩ := h .lane0
  obtain ⟨k', i', n', a', b'⟩ := h' .lane0
  have hb := a.bounds hv
  have hb' := a'.bounds hv
  rw [segStart_eq hv hb.1] at b
  rw [segStart_eq hv hb'.1] at b'
  obtain ⟨d, p, h1, h2, h3, h4, h5, -⟩ := a
  obtain ⟨d', p', h1', h2', h3', h4', h5', -⟩ := a'
  rw [h4] at h4'
  cases h4'
  have hi : i = i' := by
    have := hb.1
    have := hb'.1
    simp only [Lane.nseg] at *
    omega
  subst hi
  rw [h3] at h3'
  have hc := (count_lineDescs hv h1).2
  have hc' := (count_lineDescs hv h1').2
  injection h3' with h3'
  injection h3' with _ _ hr
  omega

/-- A lane in a line-buffer segment is in the last one of an `ACTIVE` line, and sends that line's buffer (R152, R153). -/
theorem LaneInSegment.buf {g : Seg} (h : LaneInSegment s l k i n) (hg : s.cur.get l = some g) (hk : g.kind = .buf) (hi : i < l.nseg) :
    i + 1 = l.nseg ∧ ∃ b, k = Cat.active b ∧ g.sel = b.sel := by
  obtain ⟨d, p, h1, h2, h3, -⟩ := h
  rw [hg] at h3
  cases h3
  have hk' : d.kind = .buf := hk
  have last : ∀ l, (lastDesc s.cfg l k).kind = .buf → ∃ b, k = Cat.active b ∧ (lastDesc s.cfg l k).sel = b.sel := fun l hl => by
    cases k with
    | vsync => cases hl
    | blank => cases hl
    | active0 => exact ⟨.buf0, rfl, rfl⟩
    | active1 => exact ⟨.buf1, rfl, rfl⟩
  cases l with
  | lane0 =>
    have : i = 0 ∨ i = 1 ∨ i = 2 ∨ i = 3 := by simp only [Lane.nseg] at hi; omega
    rcases this with rfl | rfl | rfl | rfl <;> cases h1
    · cases hk'
    · cases hk'
    · cases hk'
    · exact ⟨rfl, last _ hk'⟩
  | lane1 =>
    have : i = 0 ∨ i = 1 := by simp only [Lane.nseg] at hi; omega
    rcases this with rfl | rfl <;> cases h1
    · cases hk'
    · exact ⟨rfl, last _ hk'⟩
  | lane2 =>
    have : i = 0 ∨ i = 1 := by simp only [Lane.nseg] at hi; omega
    rcases this with rfl | rfl <;> cases h1
    · cases hk'
    · exact ⟨rfl, last _ hk'⟩

/-- A lane's pointer is back at index 0 exactly in its last segment (R161). -/
theorem LaneInSegment.ptr_zero (h : LaneInSegment s l k i n) (hi : i < l.nseg) :
    (∃ k', s.rdptr.get l = some ⟨k', 0#2⟩) ↔ i + 1 = l.nseg := by
  obtain ⟨d, p, -, -, -, hp, hidx, -⟩ := h
  rw [hp]
  constructor
  · rintro ⟨k', he⟩
    cases he
    simp only [BitVec.toNat_ofNat, Nat.zero_mod] at hidx
    by_contra hne
    rw [Nat.mod_eq_of_lt (by omega)] at hidx
    omega
  · intro he
    rw [he, Nat.mod_self] at hidx
    have hz : p.idx = 0#2 := BitVec.eq_of_toNat_eq hidx
    exact ⟨p.cat, by obtain ⟨c, x⟩ := p; simp only at hz ⊢; rw [hz]⟩

/-- The window is the active width (R163). -/
theorem windowOpen_lanes (hv : s.cfg.valid = true) {pos : Nat} (h : LanesAt s pos) :
    windowOpen s = true ↔ s.cfg.hFront + s.cfg.hSync + s.cfg.hBack ≤ pos := by
  rw [windowOpen_iff]
  have each : ∀ l, (∃ k, s.rdptr.get l = some ⟨k, 0#2⟩) ↔ s.cfg.hFront + s.cfg.hSync + s.cfg.hBack ≤ pos := fun l => by
    obtain ⟨k, i, n, hl, hpos⟩ := h l
    rw [segStart_eq hv (hl.bounds hv).1] at hpos
    rw [hl.ptr_zero (hl.bounds hv).1, last_iff hv hl, hpos]
  exact ⟨fun h => (each .lane0).mp (h .lane0), fun h l => (each l).mpr h⟩

/-- The lanes' place depends on the configuration and the lanes' registers. -/
theorem LanesAt.congr (hc : t.cfg = s.cfg) (hg : t.cur = s.cur) (hp : t.rdptr = s.rdptr) {pos : Nat} (h : LanesAt s pos) :
    LanesAt t pos := fun l => by
  obtain ⟨k, i, n, a, b⟩ := h l
  exact ⟨k, i, n, a.congr hc (by rw [hg]) (by rw [hp]), by rw [hc]; exact b⟩

/-- A chain write in the window leaves the lanes where they are (R161, R162). -/
theorem LanesAt.point (c : Cat) (hv : s.cfg.valid = true) (hw : windowOpen s = true) {pos : Nat} (h : LanesAt s pos) :
    LanesAt (pointAll c s) pos := fun l => by
  obtain ⟨k, i, n, a, b⟩ := h l
  have hz := (a.ptr_zero (a.bounds hv).1).mp (windowOpen_iff.mp hw l)
  obtain ⟨d, p, h1, h2, h3, -⟩ := a
  exact ⟨k, i, n, ⟨d, ⟨c, 0#2⟩, h1, h2, h3, LaneMap.get_const _ _, by rw [hz, Nat.mod_self]; rfl, fun h => absurd rfl h⟩, b⟩

/-- The sequencer's invariant depends on the fields it names. -/
theorem Sequencing.congr (hc : t.cfg = s.cfg) (hr : t.run = s.run) (hg : t.cur = s.cur) (hp : t.rdptr = s.rdptr)
    (hd : t.desc = s.desc) (hb : ∀ l b j, (readLineWord s l b j).isSome = true → (readLineWord t l b j).isSome = true)
    (h : Sequencing s) : Sequencing t where
  stopped := by rw [hr, hg, hp]; exact h.stopped
  desc := by rw [hr, hd, hc]; exact h.desc
  filled := fun hh l b j hj => hb l b j (h.filled (by rw [← hr]; exact hh) l b j (by rw [← hc]; exact hj))
  lanes := fun hh => by
    obtain ⟨pos, h1, h2⟩ := h.lanes (by rw [← hr]; exact hh)
    exact ⟨pos, by rw [hc]; exact h1, h2.congr hc hg hp⟩

/-- The on-time invariant depends on nothing the schedule holds and nothing an action from outside but the reset input writes. -/
theorem OnTime.outside (h : OnTime s) (r : BitVec 2) (x : Nat) (m : List Host.Cell) (q : Result) (n : Nat) (es : List Event) :
    OnTime { s with req := r, xform := x, mem := m, result := q, freeCount := n, sched := es } :=
  ⟨⟨h.flags.outEn, h.flags.irqEn, h.flags.irqPend, h.flags.polling⟩, ⟨h.seq.stopped, h.seq.desc, h.seq.filled, h.seq.lanes⟩,
    h.one, h.ptr, h.due⟩

/-- One slot of the three lanes in step (R160): it is taken, sends the line's words, notifies exactly at the end of the back porch, and the lanes
are one slot further, in the same line or at the start of the one their pointers name. -/
theorem seqSlot_line (hv : s.cfg.valid = true) (he : slotEnabled s = true) (hd : s.desc = builtDesc s.cfg)
    (hf : ∀ l b j, j < s.cfg.hActive → (readLineWord s l b j).isSome = true) {pos : Nat} (hp : LanesAt s pos)
    (hpos : pos < s.cfg.hTotal) :
    ∃ m : Lane → Move, (∀ l, laneMove s l = .ok (m l)) ∧ exec .seqSlot s = .next (slotResult m s) ∧
      LanesAt (slotResult m s) ((pos + 1) % s.cfg.hTotal) ∧
      (slotResult m s).irqPend = (s.irqPend || decide (pos + 1 = s.cfg.hFront + s.cfg.hSync + s.cfg.hBack)) ∧
      (∀ l k i n, LaneInSegment s l k i n → segStart s.cfg l i + n = pos → wireWord s k l pos = some (m l).word ∧
        (pos + 1 < s.cfg.hTotal → ∃ i' n', LaneInSegment (slotResult m s) l k i' n' ∧ segStart s.cfg l i' + n' = pos + 1) ∧
        (pos + 1 = s.cfg.hTotal → ∃ k', s.rdptr.get l = some ⟨k', 0#2⟩ ∧ LaneInSegment (slotResult m s) l k' 0 0)) := by
  have key : ∀ l, ∃ m, laneMove s l = .ok m ∧ (m.irq = decide (l = .lane0 ∧ pos + 1 = s.cfg.hFront + s.cfg.hSync + s.cfg.hBack)) ∧
      ∀ k i n, LaneInSegment s l k i n → segStart s.cfg l i + n = pos → wireWord s k l pos = some m.word ∧
        ∀ t : State, t.cfg = s.cfg → t.cur.get l = some m.seg → t.rdptr.get l = m.ptr →
        (pos + 1 < s.cfg.hTotal → ∃ i' n', LaneInSegment t l k i' n' ∧ segStart s.cfg l i' + n' = pos + 1) ∧
        (pos + 1 = s.cfg.hTotal → ∃ k', s.rdptr.get l = some ⟨k', 0#2⟩ ∧ LaneInSegment t l k' 0 0) := by
    intro l
    obtain ⟨k0, i0, n0, h0, hp0⟩ := hp l
    have hb0 := h0.bounds hv
    rw [segStart_eq hv hb0.1] at hp0
    obtain ⟨w0, hw0⟩ := wireWord_some (k := k0) (hf l) hpos
    obtain ⟨m, hm, hword, hirq, -⟩ := laneMove_line hv hd h0 (w := w0) (by rw [hp0]; exact hw0)
    refine ⟨m, hm, ?_, ?_⟩
    · rw [hirq]
      refine decide_eq_decide.mpr ⟨?_, ?_⟩
      · rintro ⟨rfl, rfl, h3⟩
        refine ⟨rfl, ?_⟩
        simp only [segBegin] at hp0
        omega
      · rintro ⟨rfl, h2⟩
        refine ⟨rfl, ?_⟩
        obtain ⟨hi, hn⟩ := hb0
        obtain ⟨⟨f1, -⟩, ⟨s1, -⟩, ⟨b1, -⟩, -⟩ := Cfg.valid_hor hv
        have : i0 = 0 ∨ i0 = 1 ∨ i0 = 2 ∨ i0 = 3 := by simp only [Lane.nseg] at hi; omega
        rcases this with rfl | rfl | rfl | rfl <;> simp only [segBegin, segLen] at hp0 hn <;> omega
    · intro k i n h hpn
      have hb := h.bounds hv
      rw [segStart_eq hv hb.1] at hpn
      obtain ⟨w, hw⟩ := wireWord_some (k := k) (hf l) hpos
      obtain ⟨m', hm', hword', -, hnext⟩ := laneMove_line hv hd h (w := w) (by rw [hpn]; exact hw)
      rw [hm] at hm'
      cases hm'
      refine ⟨by rw [hword']; exact hw, fun t h1 h2 h3 => ?_⟩
      obtain ⟨a1, a2, a3⟩ := hnext t h1 h2 h3
      have hsucc := segBegin_succ s.cfg l hb.1
      refine ⟨fun hlt => ?_, fun heq => ?_⟩
      · by_cases hl : n + 1 < segLen s.cfg l i
        · exact ⟨i, n + 1, (a1 hl).1, by rw [segStart_eq hv hb.1]; omega⟩
        · have hl' : n + 1 = segLen s.cfg l i := by omega
          have hi' : i + 1 < l.nseg := by
            by_contra hge
            rw [if_pos (by omega)] at hsucc
            omega
          rw [if_neg (by omega)] at hsucc
          exact ⟨i + 1, 0, a2 hl' hi', by rw [segStart_eq hv hi']; omega⟩
      · have hl' : n + 1 = segLen s.cfg l i := by
          by_contra hne
          split_ifs at hsucc with h5
          · omega
          · have hle := segBegin_lt (s := t) (by rw [h1]; exact hv) (a1 (by have := hb.2; omega)).1
            rw [h1] at hle
            omega
        have hi' : i + 1 = l.nseg := by
          rw [last_iff hv h, hpn]
          obtain ⟨-, -, -, ⟨g1, -⟩, -⟩ := Cfg.valid_hor hv
          unfold Cfg.hTotal at heq
          omega
        exact a3 hl' hi'
  choose m hm hirq hrest using key
  refine ⟨m, hm, execSeqSlot_of he hm, ?_, ?_, ?_⟩
  · intro l
    obtain ⟨k, i, n, h, hpn⟩ := hp l
    obtain ⟨-, hn⟩ := hrest l k i n h hpn
    obtain ⟨b1, b2⟩ := hn (slotResult m s) rfl (slotResult_cur m s l) (slotResult_rdptr m s l)
    by_cases hlt : pos + 1 < s.cfg.hTotal
    · obtain ⟨i', n', h1, h2⟩ := b1 hlt
      refine ⟨k, i', n', h1, ?_⟩
      rw [Nat.mod_eq_of_lt hlt]
      exact h2
    · obtain ⟨k', -, h1⟩ := b2 (by omega)
      refine ⟨k', 0, 0, h1, ?_⟩
      rw [show pos + 1 = s.cfg.hTotal from by omega, Nat.mod_self]
      rfl
  · simp only [slotResult, hirq]
    simp
  · intro l k i n h hpn
    obtain ⟨h1, h2⟩ := hrest l k i n h hpn
    exact ⟨h1, h2 (slotResult m s) rfl (slotResult_cur m s l) (slotResult_rdptr m s l)⟩

end Sys2Proof.Machine
end

