-- ==== Sys2Proof/Laws/PerInstr.lean ====
section
/-! SUPPORT. Per-instruction families. `Reserved`: a descriptor word that decodes to the operation is reserved (R99 (b)) exactly
when the operation is not well-formed; the two checks are written apart and agree. -/

namespace Sys2Proof.Laws.Reserved

/-- The operation's well-formedness against the reserved check of a fetch, for every descriptor word that decodes to it. -/
def Statement (i : Instr) : Prop :=
  ∀ (c : Cfg) (l : Lane) (w : Word) (d : Descriptor), decodeDesc w = .ok d → d.toInstr l = i →
    i.wellFormed c = !(d.reserved c l)

/-- No descriptor stands for an operation of another format. -/
theorem of_other {i : Instr} (h : ∀ (l : Lane) (d : Descriptor), d.toInstr l ≠ i) : Statement i :=
  fun _ l _ d _ e => absurd e (h l d)

theorem toInstr_cases (l : Lane) (d : Descriptor) :
    (d.kind = .pat ∧ d.toInstr l = .segPat l d.sel d.count d.ring d.irq) ∨
      (d.kind = .buf ∧ d.toInstr l = .segBuf l (bufOfBit (d.sel.getLsbD 0)) d.count d.ring d.irq) := by
  cases h : d.kind with
  | pat => exact .inl ⟨rfl, by simp only [Descriptor.toInstr, h]⟩
  | buf => exact .inr ⟨rfl, by simp only [Descriptor.toInstr, h]⟩

theorem start : Statement .start :=
  of_other fun l d e => by rcases toInstr_cases l d with ⟨-, h⟩ | ⟨-, h⟩ <;> rw [h] at e <;> cases e

theorem stop : Statement .stop :=
  of_other fun l d e => by rcases toInstr_cases l d with ⟨-, h⟩ | ⟨-, h⟩ <;> rw [h] at e <;> cases e

theorem segPat (l : Lane) (sel : BitVec 3) (count : BitVec 16) (ring : BitVec 2) (irq : Bool) :
    Statement (.segPat l sel count ring irq) := by
  intro c l' w d _ e
  rcases toInstr_cases l' d with ⟨hk, h⟩ | ⟨-, h⟩
  · rw [h] at e
    cases e
    rw [Bool.eq_iff_iff]
    simp [Instr.wellFormed, countOk, kindOk, ringOk, Descriptor.reserved, hk, and_assoc]
    tauto
  · rw [h] at e
    cases e

theorem segBuf (l : Lane) (b : Buf) (count : BitVec 16) (ring : BitVec 2) (irq : Bool) :
    Statement (.segBuf l b count ring irq) := by
  intro c l' w d hd e
  rcases toInstr_cases l' d with ⟨-, h⟩ | ⟨hk, h⟩
  · rw [h] at e
    cases e
  · have hs := decodeDesc_sel hd hk
    rw [h] at e
    cases e
    rw [Bool.eq_iff_iff]
    simp [Instr.wellFormed, countOk, ringOk, bufCountOk, Descriptor.reserved, hk, and_assoc]
    omega

theorem chain (c : Cat) : Statement (.chain c) :=
  of_other fun l d e => by rcases toInstr_cases l d with ⟨-, h⟩ | ⟨-, h⟩ <;> rw [h] at e <;> cases e

theorem ctrlsym (k : BitVec 3) : Statement (.ctrlsym k) :=
  of_other fun l d e => by rcases toInstr_cases l d with ⟨-, h⟩ | ⟨-, h⟩ <;> rw [h] at e <;> cases e

theorem datasym (i : BitVec 6) : Statement (.datasym i) :=
  of_other fun l d e => by rcases toInstr_cases l d with ⟨-, h⟩ | ⟨-, h⟩ <;> rw [h] at e <;> cases e

theorem laneExtract (l : Lane) (px : Pixel) : Statement (.laneExtract l px) :=
  of_other fun l d e => by rcases toInstr_cases l d with ⟨-, h⟩ | ⟨-, h⟩ <;> rw [h] at e <;> cases e

theorem index6 (l : Lane) (f : BitVec 16) : Statement (.index6 l f) :=
  of_other fun l d e => by rcases toInstr_cases l d with ⟨-, h⟩ | ⟨-, h⟩ <;> rw [h] at e <;> cases e

theorem pack2 (s0 s1 : Sym) : Statement (.pack2 s0 s1) :=
  of_other fun l d e => by rcases toInstr_cases l d with ⟨-, h⟩ | ⟨-, h⟩ <;> rw [h] at e <;> cases e

theorem encodeLine (y b : Nat) : Statement (.encodeLine y b) :=
  of_other fun l d e => by rcases toInstr_cases l d with ⟨-, h⟩ | ⟨-, h⟩ <;> rw [h] at e <;> cases e

theorem buildChains : Statement .buildChains :=
  of_other fun l d e => by rcases toInstr_cases l d with ⟨-, h⟩ | ⟨-, h⟩ <;> rw [h] at e <;> cases e

theorem seqSlot : Statement .seqSlot :=
  of_other fun l d e => by rcases toInstr_cases l d with ⟨-, h⟩ | ⟨-, h⟩ <;> rw [h] at e <;> cases e

theorem tickEnter : Statement .tickEnter :=
  of_other fun l d e => by rcases toInstr_cases l d with ⟨-, h⟩ | ⟨-, h⟩ <;> rw [h] at e <;> cases e

theorem tickBody : Statement .tickBody :=
  of_other fun l d e => by rcases toInstr_cases l d with ⟨-, h⟩ | ⟨-, h⟩ <;> rw [h] at e <;> cases e

theorem classify (n : Nat) : Statement (.classify n) :=
  of_other fun l d e => by rcases toInstr_cases l d with ⟨-, h⟩ | ⟨-, h⟩ <;> rw [h] at e <;> cases e

end Sys2Proof.Laws.Reserved
end

