-- ==== Sys2Proof/Laws/Tick.lean ====
section
/-! SUPPORT. What one `TICK_ENTER` and one `TICK_BODY` do, once: the state they leave, by band and position. -/

namespace Sys2Proof.Machine

variable {s t : State}

/-- What ending the tick writes (R230, R28). -/
theorem leaveTick_writes (s : State) :
    leaveTick s = { s with polling := false, diagExit := (leaveTick s).diagExit, freeCount := (leaveTick s).freeCount } := by
  unfold leaveTick
  split <;> rfl

theorem leaveTick_noDiag (h : s.cfg.diagEn = false) : leaveTick s = { s with polling := false } := by
  unfold leaveTick
  rw [if_neg (by simp [h])]

/-- What taking the notification writes (R181, R28). -/
theorem enterTick_writes (s : State) :
    enterTick s = { s with
      irqPend := false, polling := true, diagEntry := (enterTick s).diagEntry, freeCount := (enterTick s).freeCount } := by
  unfold enterTick
  split <;> rfl

theorem enterTick_noDiag (h : s.cfg.diagEn = false) : enterTick s = { s with irqPend := false, polling := true } := by
  unfold enterTick
  rw [if_neg (by simp [h])]

theorem execTickEnter_next (h : exec .tickEnter s = .next t) :
    (tickEnterEnabled s = false ∧ t = s) ∨ (tickEnterEnabled s = true ∧ t = enterTick s) := by
  simp only [exec, execTickEnter] at h
  split_ifs at h with he
  · cases h; exact .inr ⟨he, rfl⟩
  · cases h; exact .inl ⟨by simpa using he, rfl⟩

/-- Advancing the line counter leaves the coming `ENCODE_LINE`'s plan. -/
@[simp] theorem planOf_advanceLine (s : State) : planOf (advanceLine s) = planOf s := rfl

/-- The window depends on the pointers alone. -/
theorem windowOpen_congr (h : t.rdptr = s.rdptr) : windowOpen t = windowOpen s := by
  unfold windowOpen atRingStart
  rw [h]

/-- In the window the body's end is the chain write and the return (R191). -/
theorem chainAndLeave_of {c : Cat} (h : windowOpen s = true) : chainAndLeave c s = .next (leaveTick (pointAll c s)) := by
  simp only [chainAndLeave, execChain, if_pos h, andThen]

theorem chainAndLeave_next {c : Cat} (h : chainAndLeave c s = .next t) : t = leaveTick (pointAll c s) := by
  simp only [chainAndLeave, execChain] at h
  split_ifs at h
  · cases h; rfl
  · cases h

/-- `TICK_BODY` in the VSync band (R186). -/
theorem tickBody_vsync (he : tickBodyEnabled s = true) (hb : classifyLine s.cfg (nextLine s) = .vsync) :
    exec .tickBody s = .next (leaveTick (pointAll .vsync (advanceLine s))) := by
  have hw : windowOpen s = true := by
    simp only [tickBodyEnabled, Bool.and_eq_true] at he
    exact he.2
  simp only [exec, execTickBody, if_pos he, bodyOfLine]
  rw [show (advanceLine s).cfg = s.cfg from rfl, hb]
  exact chainAndLeave_of hw

/-- `TICK_BODY` in the Blanking band (R187). -/
theorem tickBody_blank (he : tickBodyEnabled s = true) (hb : classifyLine s.cfg (nextLine s) = .blanking) :
    exec .tickBody s = .next (leaveTick (pointAll .blank (advanceLine s))) := by
  have hw : windowOpen s = true := by
    simp only [tickBodyEnabled, Bool.and_eq_true] at he
    exact he.2
  simp only [exec, execTickBody, if_pos he, bodyOfLine]
  rw [show (advanceLine s).cfg = s.cfg from rfl, hb]
  exact chainAndLeave_of hw

/-- `TICK_BODY` at an odd position of the Active band (R189). -/
theorem tickBody_odd (he : tickBodyEnabled s = true) (hb : classifyLine s.cfg (nextLine s) = .active)
    (hp : activePos s.cfg (nextLine s) % 2 = 1) :
    exec .tickBody s = .next (leaveTick (pointAll (Cat.active s.bufIdx.other) (toggleBuf (advanceLine s)))) := by
  have hw : windowOpen s = true := by
    simp only [tickBodyEnabled, Bool.and_eq_true] at he
    exact he.2
  simp only [exec, execTickBody, if_pos he, bodyOfLine]
  rw [show (advanceLine s).cfg = s.cfg from rfl, hb]
  simp only [activeLine]
  rw [if_neg (by omega)]
  exact chainAndLeave_of hw

/-- `TICK_BODY` at an even position of the Active band (R190). -/
theorem tickBody_even (he : tickBodyEnabled s = true) (hb : classifyLine s.cfg (nextLine s) = .active)
    (hp : activePos s.cfg (nextLine s) % 2 = 0) (hy : sourceLine s.cfg (activePos s.cfg (nextLine s)) < s.cfg.srcLines) :
    exec .tickBody s = .next (leaveTick (pointAll (Cat.active s.bufIdx)
      (encodeLine (sourceLine s.cfg (activePos s.cfg (nextLine s))) s.bufIdx.other (advanceLine s)))) := by
  have hw : windowOpen s = true := by
    simp only [tickBodyEnabled, Bool.and_eq_true] at he
    exact he.2
  simp only [exec, execTickBody, if_pos he, bodyOfLine]
  rw [show (advanceLine s).cfg = s.cfg from rfl, hb]
  simp only [activeLine]
  rw [if_pos hp]
  have h2 : execEncodeLine (sourceLine s.cfg (activePos s.cfg (nextLine s))) s.bufIdx.other.num (advanceLine s) =
      .next (encodeLine (sourceLine s.cfg (activePos s.cfg (nextLine s))) s.bufIdx.other (advanceLine s)) := by
    simp only [execEncodeLine, bufOfNat_num]
    rw [if_pos (show _ < (advanceLine s).cfg.srcLines from hy)]
  rw [show (advanceLine s).cfg = s.cfg from rfl, show (advanceLine s).bufIdx = s.bufIdx from rfl, h2]
  simp only [andThen]
  have hbuf : (encodeLine (sourceLine s.cfg (activePos s.cfg (nextLine s))) s.bufIdx.other (advanceLine s)).bufIdx = s.bufIdx := by
    rw [encodeLine_frame]; rfl
  rw [hbuf]
  refine chainAndLeave_of ?_
  rw [windowOpen_congr (s := s) (by rw [encodeLine_frame]; rfl)]
  exact hw

/-- The source line is in range under a valid configuration (R139, R190). -/
theorem sourceLine_lt {c : Cfg} (hv : c.valid = true) (p : Nat) : sourceLine c p < c.srcLines :=
  Nat.mod_lt _ (Cfg.valid_srcLines hv).1

/-- The four shapes of a body that answers a next state. -/
inductive Body (s : State) : Cat → State → Prop where
  | vsync : classifyLine s.cfg (nextLine s) = .vsync → Body s .vsync (advanceLine s)
  | blank : classifyLine s.cfg (nextLine s) = .blanking → Body s .blank (advanceLine s)
  | encode (y : Nat) : classifyLine s.cfg (nextLine s) = .active → activePos s.cfg (nextLine s) % 2 = 0 →
      Body s (Cat.active s.bufIdx) (encodeLine y s.bufIdx.other (advanceLine s))
  | toggle : classifyLine s.cfg (nextLine s) = .active → activePos s.cfg (nextLine s) % 2 = 1 →
      Body s (Cat.active s.bufIdx.other) (toggleBuf (advanceLine s))

/-- Everything a `TICK_BODY` that answers a next state can do. -/
theorem execTickBody_next (h : exec .tickBody s = .next t) :
    (tickBodyEnabled s = false ∧ t = s) ∨
      (tickBodyEnabled s = true ∧ ∃ c u, Body s c u ∧ t = leaveTick (pointAll c u)) := by
  by_cases he : tickBodyEnabled s = true
  · refine .inr ⟨he, ?_⟩
    cases hb : classifyLine s.cfg (nextLine s) with
    | vsync =>
      rw [tickBody_vsync he hb] at h
      cases h
      exact ⟨_, _, .vsync hb, rfl⟩
    | blanking =>
      rw [tickBody_blank he hb] at h
      cases h
      exact ⟨_, _, .blank hb, rfl⟩
    | active =>
      by_cases hp : activePos s.cfg (nextLine s) % 2 = 0
      · by_cases hy : sourceLine s.cfg (activePos s.cfg (nextLine s)) < s.cfg.srcLines
        · rw [tickBody_even he hb hp hy] at h
          cases h
          exact ⟨_, _, .encode _ hb hp, rfl⟩
        · simp only [exec, execTickBody, if_pos he, bodyOfLine] at h
          rw [show (advanceLine s).cfg = s.cfg from rfl, hb] at h
          simp only [activeLine] at h
          rw [if_pos hp] at h
          simp only [execEncodeLine, bufOfNat_num] at h
          rw [show (advanceLine s).cfg = s.cfg from rfl, show (advanceLine s).bufIdx = s.bufIdx from rfl, if_neg hy] at h
          cases h
      · rw [tickBody_odd he hb (by omega)] at h
        cases h
        exact ⟨_, _, .toggle hb (by omega), rfl⟩
  · left
    simp only [exec, execTickBody, if_neg he] at h
    cases h
    exact ⟨by simpa using he, rfl⟩

/-- What every body leaves alone. -/
theorem Body.frame {c : Cat} {u : State} (h : Body s c u) :
    u = { s with
      line := BitVec.ofNat 16 (nextLine s), frame := nextFrame s, bufIdx := u.bufIdx, lineBuf := u.lineBuf, mem := u.mem,
      xformSave := u.xformSave, encPlans := u.encPlans, result := u.result } := by
  cases h with
  | vsync _ => rfl
  | blank _ => rfl
  | encode y _ _ => rw [encodeLine_frame]; rfl
  | toggle _ _ => rfl

end Sys2Proof.Machine
end

