-- ==== Sys2Proof/Laws/Step.lean ====
section
/-! SUPPORT. What one step can be, once: which operation or action it runs and on which state. -/

namespace Sys2Proof.Machine

variable {s t : State}

/-- What serving `REQ` can choose (R200): a command, or waiting, on the state as it is. -/
theorem serveRequest_cases (s : State) : (∃ i, isAgentStep i = true ∧ serveRequest s = .run i s) ∨ serveRequest s = .idle s ∨
    serveRequest s = .refuse .badRequest := by
  unfold serveRequest
  split_ifs
  · exact .inr (.inl rfl)
  · cases hd : decodeCmd (s.req.setWidth 32) with
    | error e => exact .inr (.inr rfl)
    | ok i =>
      refine .inl ⟨i, ?_, rfl⟩
      unfold decodeCmd at hd
      split_ifs at hd <;> cases hd <;> rfl

/-- What the next step can be: an operation, an action from outside or waiting, each after the schedule's head is used up; a fault; a refusal. -/
theorem nextAction_cases (hv : s.cfg.valid = true) :
    (∃ i, (agentsOnly s → isAgentStep i = true) ∧ nextAction s = .run i { s with sched := s.sched.tail }) ∨
      (∃ a, s.sched.head? = some (.env a) ∧ nextAction s = .env a { s with sched := s.sched.tail }) ∨
      nextAction s = .idle { s with sched := s.sched.tail } ∨ (∃ f, nextAction s = .fault f) ∨ ∃ r, nextAction s = .refuse r := by
  unfold nextAction
  rw [if_pos hv]
  cases hs : s.sched with
  | nil =>
    have hu : { s with sched := ([] : List Event).tail } = s := by rw [List.tail_nil, ← hs]
    rw [hu]
    dsimp only
    unfold onTimeAction
    split_ifs
    · exact .inl ⟨_, fun _ => rfl, rfl⟩
    · exact .inl ⟨_, fun _ => rfl, rfl⟩
    · rcases serveRequest_cases s with ⟨i, hi, h⟩ | h | h
      · exact .inl ⟨i, fun _ => hi, h⟩
      · exact .inr (.inr (.inl h))
      · exact .inr (.inr (.inr (.inr ⟨_, h⟩)))
    · exact .inl ⟨_, fun _ => rfl, rfl⟩
    · exact .inr (.inr (.inl rfl))
  | cons e rest =>
    rw [List.tail_cons]
    have head : agentsOnly s → isAgentEvent e = true := fun ha => by
      unfold agentsOnly at ha
      rw [hs, List.all_cons, Bool.and_eq_true] at ha
      exact ha.1
    cases e with
    | env a => exact .inr (.inl ⟨a, rfl, rfl⟩)
    | serve =>
      rcases serveRequest_cases { s with sched := rest } with ⟨i, hi, h⟩ | h | h
      · exact .inl ⟨i, fun _ => hi, h⟩
      · exact .inr (.inr (.inl h))
      · exact .inr (.inr (.inr (.inr ⟨_, h⟩)))
    | fetch l =>
      simp only [eventAction, fetchAction]
      cases fetchDescriptor { s with sched := rest } l with
      | error f => exact .inr (.inr (.inr (.inl ⟨f, rfl⟩)))
      | ok d =>
        dsimp only
        split_ifs
        · exact .inr (.inr (.inr (.inl ⟨_, rfl⟩)))
        · exact .inl ⟨_, fun ha => absurd (head ha) Bool.false_ne_true, rfl⟩
    | op i => exact .inl ⟨i, head, rfl⟩

/-- A step that answers a next state: an operation, an action from outside, or waiting, after the schedule's head is used up. -/
theorem step_next (h : step s = .next t) :
    s.cfg.valid = true ∧
      ((∃ i, (agentsOnly s → isAgentStep i = true) ∧ nextAction s = .run i { s with sched := s.sched.tail } ∧
          exec i { s with sched := s.sched.tail } = .next t) ∨
        (∃ a, s.sched.head? = some (.env a) ∧ envStep a { s with sched := s.sched.tail } = .next t) ∨
        t = { s with sched := s.sched.tail }) := by
  by_cases hv : s.cfg.valid = true
  · refine ⟨hv, ?_⟩
    unfold step at h
    rcases nextAction_cases hv with ⟨i, hi, hn⟩ | ⟨a, ha, hn⟩ | hn | ⟨f, hn⟩ | ⟨r, hn⟩ <;> rw [hn] at h
    · exact .inl ⟨i, hi, hn, h⟩
    · exact .inr (.inl ⟨a, ha, h⟩)
    · cases h; exact .inr (.inr rfl)
    · cases h
    · cases h
  · unfold step nextAction at h
    rw [if_neg hv] at h
    cases h

/-- With nothing scheduled a step is the on-time choice (log 4). -/
theorem step_onTime (hs : s.sched = []) (h : step s = .next t) :
    s.cfg.valid = true ∧
      ((tickBodyEnabled s = true ∧ exec .tickBody s = .next t) ∨
        (tickBodyEnabled s = false ∧ tickEnterEnabled s = true ∧ exec .tickEnter s = .next t) ∨
        (tickBodyEnabled s = false ∧ tickEnterEnabled s = false ∧
          (exec .start s = .next t ∨ exec .stop s = .next t ∨ (slotEnabled s = true ∧ exec .seqSlot s = .next t) ∨ t = s))) := by
  unfold step nextAction at h
  split_ifs at h with hv
  · refine ⟨hv, ?_⟩
    rw [hs] at h
    dsimp only at h
    unfold onTimeAction at h
    split_ifs at h with h1 h2 h3 h4
    · exact .inl ⟨h1, h⟩
    · exact .inr (.inl ⟨by simpa using h1, h2, h⟩)
    · refine .inr (.inr ⟨by simpa using h1, by simpa using h2, ?_⟩)
      unfold serveRequest at h
      split_ifs at h with h0
      · cases h; exact .inr (.inr (.inr rfl))
      · cases hd : decodeCmd (s.req.setWidth 32) with
        | error e => rw [hd] at h; cases h
        | ok i =>
          rw [hd] at h
          unfold decodeCmd at hd
          split_ifs at hd
          · cases hd; exact .inl h
          · cases hd; exact .inr (.inl h)
    · exact .inr (.inr ⟨by simpa using h1, by simpa using h2, .inr (.inr (.inl ⟨h4, h⟩))⟩)
    · cases h
      exact .inr (.inr ⟨by simpa using h1, by simpa using h2, .inr (.inr (.inr rfl))⟩)

/-! ### What one operation leaves alone -/

/-- The state `START` leaves has its lanes in step (R39, R154, R165). -/
theorem started_sequencing (hv : s.cfg.valid = true) : Sequencing (started s) where
  stopped := fun h => by cases h
  desc := fun _ => rfl
  filled := fun _ l b j hj => by
    have h := readLineWord_fill s (fillWord s.cfg) l b j
    rw [if_pos (by exact hj)] at h
    show (readLineWord (fillLineBufs (fillWord s.cfg) s) l b j).isSome = true
    rw [h]
    rfl
  lanes := fun _ => by
    obtain ⟨⟨f1, -⟩, -⟩ := Cfg.valid_hor hv
    refine ⟨0, ?_, fun l => ⟨.blank, 0, 0, ⟨firstDesc s.cfg l, ⟨.blank, 1#2⟩, firstDesc_get _ _,
      (lineDescs_legal hv (List.mem_of_getElem? (firstDesc_get s.cfg l))).2.1, ?_, ?_, ?_, fun _ => rfl⟩, rfl⟩⟩
    · show 0 < s.cfg.hFront + s.cfg.hSync + s.cfg.hBack + s.cfg.hActive
      omega
    all_goals cases l <;> rfl

/-- An `ENCODE_LINE` that answers a next state (R136, R139). -/
theorem execEncodeLine_next {y b : Nat} (h : exec (.encodeLine y b) s = .next t) :
    ∃ k, bufOfNat b = some k ∧ y < s.cfg.srcLines ∧ t = encodeLine y k s := by
  simp only [exec, execEncodeLine] at h
  cases hb : bufOfNat b with
  | none => rw [hb] at h; cases h
  | some k =>
    rw [hb] at h
    dsimp only at h
    split_ifs at h with hy
    cases h
    exact ⟨k, rfl, hy, rfl⟩

/-- A segment loaded into a lane (R155, R156, R157). -/
theorem execSeg_next {l : Lane} {d : Descriptor} (h : outcomeOf (loadDescriptor l d s) = .next t) :
    d.reserved s.cfg l = false ∧
      t = { s with cur := s.cur.set l (some (segOf d)), rdptr := s.rdptr.set l ((s.rdptr.get l).map (Ptr.advance · d.ring)) } := by
  cases hl : loadDescriptor l d s with
  | error f => rw [hl] at h; cases h
  | ok u => rw [hl] at h; cases h; exact loadDescriptor_ok hl

theorem execChain_next {c : Cat} (h : exec (.chain c) s = .next t) : windowOpen s = true ∧ t = pointAll c s := by
  simp only [exec, execChain] at h
  split_ifs at h with hw
  cases h
  exact ⟨hw, rfl⟩

theorem execCtrlsym_next {k : BitVec 3} (h : exec (.ctrlsym k) s = .next t) : ∃ w, t = { s with result := .word w } := by
  simp only [exec, execCtrlsym] at h
  cases hk : ctrlSym? s.cfg k with
  | none => rw [hk] at h; cases h
  | some w => rw [hk] at h; cases h; exact ⟨w, rfl⟩

theorem execBuildChains_next (h : exec .buildChains s = .next t) : s.run = false ∧ t = buildChains s := by
  simp only [exec, execBuildChains] at h
  split_ifs at h with hr
  cases h
  exact ⟨by simpa using hr, rfl⟩

/-- No operation touches the schedule. -/
theorem exec_sched {i : Instr} (h : exec i s = .next t) : t.sched = s.sched := by
  cases i with
  | start =>
    rcases execStart_next h with ⟨-, rfl⟩ | ⟨-, -, hb⟩
    · rfl
    · rw [startBlock_ok hb]; rfl
  | stop => rcases execStop_next h with rfl | ⟨-, -, -, rfl⟩ <;> rfl
  | segPat l sel count ring irq => obtain ⟨-, rfl⟩ := execSeg_next (d := ⟨.pat, sel, count, ring, irq⟩) h; rfl
  | segBuf l b count ring irq => obtain ⟨-, rfl⟩ := execSeg_next (d := ⟨.buf, b.sel, count, ring, irq⟩) h; rfl
  | chain c => obtain ⟨-, rfl⟩ := execChain_next h; rfl
  | ctrlsym k => obtain ⟨w, rfl⟩ := execCtrlsym_next h; rfl
  | datasym i => cases h; rfl
  | laneExtract l px => cases h; rfl
  | index6 l f => cases h; rfl
  | pack2 a b => cases h; rfl
  | encodeLine y b =>
    obtain ⟨k, -, -, rfl⟩ := execEncodeLine_next h
    rw [encodeLine_frame]
  | buildChains => obtain ⟨-, rfl⟩ := execBuildChains_next h; rfl
  | seqSlot => rcases execSeqSlot_next h with ⟨-, rfl⟩ | ⟨-, m, -, rfl⟩ <;> rfl
  | tickEnter => rcases execTickEnter_next h with ⟨-, rfl⟩ | ⟨-, rfl⟩ <;> simp
  | tickBody =>
    rcases execTickBody_next h with ⟨-, rfl⟩ | ⟨-, c, u, hb, rfl⟩
    · rfl
    · rw [leaveTick_sched, hb.frame]; rfl
  | classify n => cases h; rfl

end Sys2Proof.Machine
end

