-- ==== Sys2Proof/Tests/Slice0.lean ====
section
/-! SUPPORT. Tests. Words and expected values come from spec/: 30_encoding.md R91 to R99, the tables and worked examples of the
operation rules, and 95_test_vectors.md (profile P-A). The `witness_` theorems show that the hypotheses of the statements can be met. -/

namespace Sys2Proof.Tests

open Sys2Proof.Machine

/-! ### Helpers -/

def nextOf (o : Host.Outcome State Fault Refusal) : Option State :=
  match o with
  | .next s => some s
  | .fault _ => none
  | .refused _ => none

def faultOf (o : Host.Outcome State Fault Refusal) : Option Fault :=
  match o with
  | .next _ => none
  | .fault f => some f
  | .refused _ => none

def refusalOf (o : Host.Outcome State Fault Refusal) : Option Refusal :=
  match o with
  | .next _ => none
  | .fault _ => none
  | .refused r => some r

theorem next_of {o : Host.Outcome State Fault Refusal} (h : (nextOf o).isSome = true) : ∃ t, o = .next t := by
  cases o with
  | next s => exact ⟨s, rfl⟩
  | fault f => cases h
  | refused r => cases h

/-- The framebuffer at the head of 95_test_vectors.md. -/
def memA : List Host.Cell :=
  Memory.writeBytes [] 0x20000000#32
    [0x00#8, 0x00#8, 0xFF#8, 0xFF#8, 0x00#8, 0xF8#8, 0xE0#8, 0x07#8, 0x1F#8, 0x00#8, 0x34#8, 0x12#8, 0xCD#8, 0xAB#8, 0x10#8, 0x84#8]

/-- After reset, with that framebuffer. -/
def stopped : State := { State.reset with mem := memA }

/-- A start has been requested. -/
def asked : State := { stopped with req := 1#2 }

/-- `START` has run. -/
def running : State := started asked

/-- Running, in the window of a `BLANK` line, with the tick of line `n` entered. -/
def ticking (n : Nat) (b : Buf) : State :=
  { running with
    line := BitVec.ofNat 16 n, bufIdx := b, polling := true
    cur := ⟨some ⟨.pat, 4#3, 2, 0, false, 2#2⟩, some ⟨.pat, 4#3, 2, 0, false, 1#2⟩, some ⟨.pat, 4#3, 2, 0, false, 1#2⟩⟩
    rdptr := .const (some ⟨.blank, 0#2⟩) }

/-- Running, sending buffer 1 on lane 1 in an `ACTIVE1` line. -/
def sending : State :=
  { ticking 7 .buf1 with
    polling := false
    cur := ⟨some ⟨.buf, 1#3, 2, 0, false, 2#2⟩, some ⟨.buf, 1#3, 2, 0, false, 1#2⟩, some ⟨.buf, 1#3, 2, 0, false, 1#2⟩⟩
    rdptr := .const (some ⟨.active1, 0#2⟩) }

/-- Lane 0 with the word `w` at its pointer. -/
def fetching (w : Word) : State := writeDesc .lane0 ⟨.blank, 0#2⟩ w (setRdptr .lane0 (some ⟨.blank, 0#2⟩) stopped)

/-! ### WellFormed: an ill-formed term for each check -/

theorem test_wf_segPat_count : (Instr.segPat .lane0 0#3 0#16 2#2 false).wellFormed Cfg.profileA = false := by decide
theorem test_wf_segPat_kind : (Instr.segPat .lane0 5#3 1#16 2#2 false).wellFormed Cfg.profileA = false := by decide
theorem test_wf_segPat_ring : (Instr.segPat .lane0 0#3 1#16 1#2 false).wellFormed Cfg.profileA = false := by decide
theorem test_wf_segBuf_count : (Instr.segBuf .lane0 .buf0 0#16 2#2 false).wellFormed Cfg.profileA = false := by decide
theorem test_wf_segBuf_ring : (Instr.segBuf .lane1 .buf0 1#16 2#2 false).wellFormed Cfg.profileA = false := by decide
theorem test_wf_segBuf_long : (Instr.segBuf .lane0 .buf0 3#16 2#2 false).wellFormed Cfg.profileA = false := by decide
theorem test_wf_ctrlsym : (Instr.ctrlsym 5#3).wellFormed Cfg.profileA = false := by decide
theorem test_wf_index6 : (Instr.index6 .lane0 32#16).wellFormed Cfg.profileA = false := by decide
theorem test_wf_encodeLine_y : (Instr.encodeLine 2 0).wellFormed Cfg.profileA = false := by decide
theorem test_wf_encodeLine_b : (Instr.encodeLine 0 2).wellFormed Cfg.profileA = false := by decide
theorem test_wf_classify : (Instr.classify 10).wellFormed Cfg.profileA = false := by decide
theorem test_wf_good : (Instr.segBuf .lane0 .buf1 2#16 2#2 false).wellFormed Cfg.profileA = true ∧
    (Instr.encodeLine 1 1).wellFormed Cfg.profileA = true ∧ (Instr.index6 .lane0 31#16).wellFormed Cfg.profileA = true := by decide

/-- The profiles P-A and P-C of 95_test_vectors.md meet R10; a record that breaks one group of constraints does not. -/
theorem test_cfg_valid : Cfg.profileA.valid = true ∧
    { Cfg.profileA with vSync := 1, vBack := 1, vActive := 2 }.valid = true := by decide
theorem test_cfg_bad : { Cfg.profileA with vActive := 3 }.valid = false ∧ { Cfg.profileA with hBack := 0 }.valid = false ∧
    { Cfg.profileA with fieldWidth := ⟨5, 7, 5⟩ }.valid = false ∧ { Cfg.profileA with fbStride := 4 }.valid = false ∧
    { Cfg.profileA with dataSym := Vector.replicate 64 0x100#10 }.valid = false := by decide

/-! ### Decode: words written out from R91, R92, R94, R95, R96 -/

theorem test_decode_start : decode (.cmd 0x00000001#32) = .ok .start := by decide
theorem test_decode_stop : decode (.cmd 0x00000002#32) = .ok .stop := by decide
/-- `[31:23] = 0, IRQ = 1, RING = 10, KIND = 0, SEL = 010, COUNT = 1`. -/
theorem test_decode_segPat : decode (.desc .lane0 0b00000000011000100000000000000001#32) = .ok (.segPat .lane0 2#3 1#16 2#2 true) := by
  decide
/-- `[31:23] = 0, IRQ = 0, RING = 10, KIND = 1, SEL = 001, COUNT = 2`. -/
theorem test_decode_segBuf : decode (.desc .lane0 0b00000000001010010000000000000010#32) = .ok (.segBuf .lane0 .buf1 2#16 2#2 false) := by
  decide
theorem test_decode_segPat_lane2 : decode (.desc .lane2 0x00100004#32) = .ok (.segPat .lane2 0#3 4#16 1#2 false) := by decide
theorem test_decode_chain : decode (.cat 0#2) = .ok (.chain .vsync) ∧ decode (.cat 1#2) = .ok (.chain .blank) ∧
    decode (.cat 2#2) = .ok (.chain .active0) ∧ decode (.cat 3#2) = .ok (.chain .active1) := by decide
theorem test_decode_ctrlsym : decode (.kind 3#3) = .ok (.ctrlsym 3#3) := by decide
theorem test_decode_datasym : decode (.idx 62#6) = .ok (.datasym 62#6) := by decide
/-- Words outside the two `CMD` words, and `DESC` words outside the two rows of R98, are rejected by name. -/
theorem test_decode_rejects : decode (.cmd 0x00000000#32) = .error .badRequest ∧ decode (.cmd 0x00000003#32) = .error .badRequest ∧
    decode (.cmd 0x00000101#32) = .error .badRequest ∧ decode (.desc .lane0 0x00A00001#32) = .error .badDescriptor ∧
    decode (.desc .lane0 0x002A0001#32) = .error .badDescriptor := by decide
/-- The rows of `spec/opcode_table.json`. -/
theorem test_decode_table : decodeTableWord 32 0x00000001 = some .start ∧ decodeTableWord 32 0x00000002 = some .stop ∧
    decodeTableWord 32 0x00290002 = some (.segBuf .lane0 .buf1 2#16 2#2 false) ∧
    decodeTableWord 32 0x00100004 = some (.segPat .lane1 0#3 4#16 1#2 false) ∧ decodeTableWord 32 0x00A00001 = none ∧
    decodeTableWord 8 63 = some (.datasym 63#6) ∧ decodeTableWord 3 4 = some (.ctrlsym 4#3) ∧
    decodeTableWord 2 3 = some (.chain .active1) := by decide
theorem test_encode : encode (.segPat .lane0 3#3 2#16 2#2 false) = some (.desc .lane0 0x00230002#32) ∧
    encode (.segBuf .lane1 .buf1 2#16 1#2 false) = some (.desc .lane1 0x00190002#32) := by decide

/-! ### Symbol tables -/

/-- `T(d)` of R124, written from its text. -/
def tmds (d : BitVec 8) : BitVec 10 :=
  let n := ((List.range 8).filter (fun k => d.getLsbD k)).length
  let inv := decide (4 < n) || (decide (n = 4) && !d.getLsbD 0)
  let q := (List.range 7).foldl (fun (q : List Bool) k => q ++ [(q.getD k false ^^ d.getLsbD (k + 1)) ^^ inv]) [d.getLsbD 0]
  let byte := BitVec.ofBoolListLE q
  BitVec.ofBool inv ++ BitVec.ofBool (!inv) ++ (if inv then ~~~(byte.setWidth 8) else byte.setWidth 8)

theorem test_dataSym_default : ∀ i : Fin 64, defaultDataSym[i] = tmds (BitVec.ofNat 8 (i.val * 4)) := by decide +kernel
theorem test_ctrlSym_default : defaultCtrlSym.toList = [0x354, 0x0AB, 0x154, 0x2AB].map (fun x => BitVec.ofNat 32 (x + x * 1024)) ++
    [BitVec.ofNat 32 (0x100 + 0x1FF * 1024)] := by decide
theorem test_ctrlsym : (nextOf (exec (.ctrlsym 1#3) stopped)).map State.result = some (.word 0x0002ACAB#32) := by decide
theorem test_ctrlsym_reserved : refusalOf (exec (.ctrlsym 5#3) stopped) = some .badKind := by decide
theorem test_datasym : (nextOf (exec (.datasym 62#6) stopped)).map State.result = some (.symbol 0x2FD#10) := by decide

/-! ### Line encoder -/

theorem test_laneExtract : (nextOf (exec (.laneExtract .lane1 0x1234#16) stopped)).map State.result = some (.field 0x11#16) := by
  decide
theorem test_index6 : (nextOf (exec (.index6 .lane0 31#16) stopped)).map State.result = some (.index 62#6) := by decide
theorem test_pack2 : (nextOf (exec (.pack2 0x2FD#10 0x160#10) stopped)).map State.result = some (.word 0x000582FD#32) := by
  decide
/-- Section 2.2: `ENCODE_LINE 1, 0`. -/
theorem test_encodeLine : (nextOf (exec (.encodeLine 1 0) stopped)).map (fun t => Lane.all.map (fun l => (t.lineBuf.get l).buf0)) =
    some [[(0, 0x000582FD#32), (1, 0x000601D8#32)], [(0, 0x0004F100#32), (1, 0x0006027D#32)],
      [(0, 0x0007C100#32), (1, 0x00060198#32)]] := by decide
/-- Section 2.2: the torn read. The host changes the word after lane 0 has read it. -/
theorem test_encodeLine_torn : (nextOf (exec (.encodeLine 0 0) { stopped with
      encPlans := [[.pair .lane0 0, .store 0x20000000#32 [0#8, 0#8, 0#8, 0#8]]] })).map
        (fun t => Lane.all.map (fun l => readLineWord t l .buf0 0)) =
    some [some 0x000BF500#32, some 0x00040100#32, some 0x00040100#32] := by decide

/-! ### Chains and sequencer -/

/-- Section 2.3: `BUILD_CHAINS` under P-A. -/
theorem test_buildChains : (nextOf (exec .buildChains stopped)).map (fun t => ((t.desc.get .lane0).vsync, (t.desc.get .lane2).active1)) =
    some (⟨some 0x00220001#32, some 0x00230002#32, some 0x00620001#32, some 0x00220002#32⟩,
      ⟨some 0x00100004#32, some 0x00190002#32, none, none⟩) := by decide
theorem test_segPat : (nextOf (exec (.segPat .lane0 1#3 2#16 2#2 false) stopped)).map (fun t => t.cur.get .lane0) =
    some (some ⟨.pat, 1#3, 2, 0, false, 2#2⟩) := by decide
theorem test_segBuf : (nextOf (exec (.segBuf .lane1 .buf1 2#16 1#2 false) stopped)).map (fun t => t.cur.get .lane1) =
    some (some ⟨.buf, 1#3, 2, 0, false, 1#2⟩) := by decide
/-- Section 2.3: the reserved words, each fetched by lane 0. -/
theorem test_reserved_words : [0x00200000#32, 0x00250001#32, 0x00000001#32, 0x00300001#32, 0x00A00001#32, 0x00280003#32,
      0x00100001#32].all (fun w => match fetchLane .lane0 (fetching w) with
        | .error .badDescriptor => true
        | _ => false) = true := by decide
/-- Section 2.3: slot 0 of a `BLANK` line. -/
theorem test_seqSlot : (nextOf (exec .seqSlot running)).map (fun t => (t.out, t.rdptr.get .lane0)) =
    some ([⟨0x000D5354#32, 0x000D5354#32, 0x000D5354#32⟩], some ⟨.blank, 2#2⟩) := by decide
/-- Section 2.3: the slot that notifies is the fourth. -/
theorem test_seqSlot_notifies : (nextOf (runSlots 3 running)).map State.irqPend = some false ∧
    (nextOf (runSlots 4 running)).map State.irqPend = some true := by decide
theorem test_chain : (nextOf (exec (.chain .vsync) (ticking 0 .buf0))).map (fun t => t.rdptr.get .lane2) =
    some (some ⟨.vsync, 0#2⟩) := by decide
theorem test_chain_outside : faultOf (exec (.chain .vsync) running) = some .chainOutsideWindow := by decide

/-! ### Scanline state machine -/

/-- Section 2.4: `STATUS` 0x0000000F becomes 0x00000027. -/
theorem test_tickEnter : statusWord { running with irqPend := true } = 0x0000000F#32 ∧
    (nextOf (exec .tickEnter { running with irqPend := true })).map statusWord = some 0x00000027#32 := by decide
/-- Section 2.4: 5, 0, 0 becomes 6, 0, 0 with `ENCODE_LINE 0, 1` and `ACTIVE0`. -/
theorem test_tickBody_encode : (nextOf (exec .tickBody (ticking 5 .buf0))).map (fun t =>
      (t.line, t.bufIdx, t.rdptr.get .lane1, readLineWord t .lane2 .buf1 1)) =
    some (6#16, .buf0, some ⟨.active0, 0#2⟩, some 0x000402FD#32) := by decide
/-- Section 2.4: 6, 0, 0 becomes 7, 0, 1 with a toggle and `ACTIVE1`; 9, 0xFFFFFFFF, 0 becomes 0, 0, 0. -/
theorem test_tickBody_toggle_wrap : (nextOf (exec .tickBody (ticking 6 .buf0))).map (fun t => (t.line, t.bufIdx, t.rdptr.get .lane0)) =
      some (7#16, .buf1, some ⟨.active1, 0#2⟩) ∧
    (nextOf (exec .tickBody { ticking 9 .buf0 with frame := 0xFFFFFFFF#32 })).map (fun t => (t.line, t.frame, t.rdptr.get .lane0)) =
      some (0#16, 0#32, some ⟨.blank, 0#2⟩) := by decide
/-- Section 2.4: `CLASSIFY` of 0..9 under P-A. -/
theorem test_classify : (List.range 10).map (classifyLine Cfg.profileA) =
    [.blanking, .vsync, .vsync, .blanking, .blanking, .blanking, .active, .active, .active, .active] := by decide
theorem test_classify_op : (nextOf (exec (.classify 6) stopped)).map State.result = some (.band .active) := by decide

/-! ### Lifecycle, registers, reset -/

/-- Section 2.5: power-on, `req.start`, `START`. -/
theorem test_start : (nextOf (exec .start asked)).map (fun t => (t.req, statusWord t, t.line)) = some (0#2, 0x00000007#32, 0#16) ∧
    (nextOf (exec .start asked)).map (fun t => (readLineWord t .lane1 .buf1 1, t.rdptr.get .lane0, t.cur.get .lane0)) =
      some (some 0x0007FD00#32, some ⟨.blank, 1#2⟩, some ⟨.pat, 0#3, 1, 0, false, 2#2⟩) := by decide
/-- Section 2.5: running with `STATUS` 0x00000017 and `LINE` 7, then `STOP`; a pending notification goes first. -/
theorem test_stop : (nextOf (exec .stop { sending with req := 2#2 })).map (fun t => (t.req, statusWord t, t.line, t.cur.get .lane0)) =
      some (0#2, 0x00000010#32, 7#16, none) ∧
    nextOf (exec .stop { running with req := 2#2, irqPend := true }) = some { running with req := 2#2, irqPend := true } := by
  decide
/-- Section 2.6: reads of `STATUS` and of offset 0x20, a 16-bit read, a write of 3 to `REQ`. -/
theorem test_registers : (nextOf (envStep (.busRead 0x40000004#32 4) sending)).map State.result = some (.word 0x00000017#32) ∧
    (nextOf (envStep (.busRead 0x40000020#32 4) sending)).map State.result = some (.word 0#32) ∧
    refusalOf (envStep (.busRead 0x40000004#32 2) sending) = some .badRegAccess ∧
    refusalOf (envStep (.busWrite 0x40000000#32 [3#8, 0#8, 0#8, 0#8]) sending) = some .badRequest ∧
    refusalOf (envStep (.busWrite 0x40000000#32 [1#8, 0#8, 0#8, 0#8]) running) = some .lifecycleMisuse := by decide
theorem test_reset : statusWord State.reset = 0#32 ∧ State.reset.req = 0#2 ∧ Memory.wf State.reset.mem = true := by decide

/-! ### Fetching: the very next step runs the word -/

theorem test_withFetchWord_start : (nextOf (step (State.reset.withFetchWord 32 0x00000001))).map statusWord = some 0x00000007#32 := by
  decide
theorem test_withFetchWord_stop : refusalOf (step (State.reset.withFetchWord 32 0x00000002)) = some .lifecycleMisuse := by
  decide
theorem test_withFetchWord_segPat : (nextOf (step (State.reset.withFetchWord 32 0x00210002))).map (fun t =>
    (t.cur.get .lane0, t.rdptr.get .lane0)) = some (some ⟨.pat, 1#3, 2, 0, false, 2#2⟩, some ⟨.blank, 1#2⟩) := by decide
theorem test_withFetchWord_datasym : (nextOf (step (State.reset.withFetchWord 8 63))).map State.result =
    some (.symbol 0x201#10) := by decide

/-- R101, R102: the words of `seg.pat vsync, 1, ring=2, irq` and of `ring 1, active0`. -/
theorem test_written : Written.words Cfg.profileA (.segPatIrq 2#3 1#16 2#2) = [0x00620001#32] ∧
    Written.words Cfg.profileA (.wholeRing .lane1 .active0) = [0x00100004#32, 0x00180002#32] := by decide
/-- Section 1.6: `ticks 1` from `START` gives `LINE` 1 and chains `VSYNC`. -/
theorem test_ticks : (nextOf (runTicks 1 running)).map (fun t => (t.line, t.rdptr.get .lane0, t.out.length)) =
    some (1#16, some ⟨.vsync, 0#2⟩, 4) := by decide

/-! ### Witnesses: the hypotheses of the statements can be met -/

theorem valid_A : Cfg.profileA.valid = true := by decide

theorem running_flags : FlagsFollowRun running := ⟨rfl, rfl, fun h => (by cases h), fun h => (by cases h)⟩

theorem running_sequencing : Sequencing running := started_sequencing valid_A

/-- The window state is at slot 4 of its line. -/
theorem ticking_lanes (n : Nat) (b : Buf) : LanesAt (ticking n b) 4 := fun l => by
  cases l
  · exact ⟨.blank, 3, 0, ⟨segPatDesc .lane0 4#3 2 false, ⟨.blank, 0#2⟩, rfl, by decide, rfl, rfl, rfl, fun h => absurd rfl h⟩, rfl⟩
  · exact ⟨.blank, 1, 0, ⟨segPatDesc .lane1 4#3 2 false, ⟨.blank, 0#2⟩, rfl, by decide, rfl, rfl, rfl, fun h => absurd rfl h⟩, rfl⟩
  · exact ⟨.blank, 1, 0, ⟨segPatDesc .lane2 4#3 2 false, ⟨.blank, 0#2⟩, rfl, by decide, rfl, rfl, rfl, fun h => absurd rfl h⟩, rfl⟩

theorem ticking_onTime (n : Nat) (b : Buf) : OnTime (ticking n b) where
  flags := ⟨rfl, rfl, fun h => (by cases h), fun h => (by cases h)⟩
  seq := ⟨fun h => (by cases h), fun _ => rfl, running_sequencing.filled, fun _ => ⟨4, (by decide : 4 < Cfg.profileA.hTotal), ticking_lanes n b⟩⟩
  one := by rintro ⟨h, -⟩; cases h
  ptr := fun l p b' hp hc => by
    have : (ticking n b).rdptr.get l = some ⟨.blank, 0#2⟩ := by cases l <;> rfl
    rw [this] at hp
    cases hp
    cases b' <;> cases hc
  due := fun _ => ⟨⟨4, (by decide : Cfg.profileA.hFront + Cfg.profileA.hSync + Cfg.profileA.hBack ≤ 4), (by decide : 4 < Cfg.profileA.hTotal), ticking_lanes n b⟩, fun l g hg hk => by cases l <;> cases hg <;> cases hk⟩

theorem ticking_window (n : Nat) (b : Buf) : ∀ l, ∃ k, (ticking n b).rdptr.get l = some ⟨k, 0#2⟩ := fun l =>
  ⟨.blank, by cases l <;> rfl⟩

theorem running_lineStart : AtLineStart running .blank := fun l => by
  cases l
  · exact ⟨segPatDesc .lane0 0#3 1 false, ⟨.blank, 1#2⟩, rfl, by decide, rfl, rfl, rfl, fun _ => rfl⟩
  · exact ⟨segPatDesc .lane1 0#3 4 false, ⟨.blank, 1#2⟩, rfl, by decide, rfl, rfl, rfl, fun _ => rfl⟩
  · exact ⟨segPatDesc .lane2 0#3 4 false, ⟨.blank, 1#2⟩, rfl, by decide, rfl, rfl, rfl, fun _ => rfl⟩

theorem witness_EncodedOperationsDecodeBack : (Instr.segBuf .lane0 .buf1 2#16 2#2 false).wellFormed Cfg.profileA = true ∧
    encode (.segBuf .lane0 .buf1 2#16 2#2 false) = some (.desc .lane0 0x00290002#32) := by decide

theorem witness_DecodedWordsEncodeBack : decode (.desc .lane0 0x00290002#32) = .ok (.segBuf .lane0 .buf1 2#16 2#2 false) := by decide

theorem witness_DescriptorFieldsStandAtTheirBits : decodeDesc 0x00620001#32 = .ok ⟨.pat, 2#3, 1#16, 2#2, true⟩ := by decide

/-- One per clause and per way of being reserved, at the first value past the legal ones. -/
theorem witness_ReservedEncodingsStop :
    (stopped.cfg.regBase.toNat % 4 = 0 ∧ (0#32 : Word) ≠ 1#32 ∧ (0#32 : Word) ≠ 2#32) ∧
    ([0x00200000#32, 0x00A00001#32, 0x00000001#32, 0x00250001#32, 0x002A0001#32, 0x00280003#32].all (fun w =>
      decide ((fetching w).rdptr.get .lane0 = some ⟨.blank, 0#2⟩) &&
      decide (readDesc (fetching w) .lane0 ⟨.blank, 0#2⟩ = some w) &&
      decide (w.toNat % 2 ^ 16 = 0 ∨ w.toNat / 2 ^ 23 ≠ 0 ∨ w.toNat / 2 ^ 20 % 4 ≠ Lane.lane0.ring.toNat ∨
        (w.getLsbD 19 = false ∧ 5 ≤ w.toNat / 2 ^ 16 % 8) ∨ (w.getLsbD 19 = true ∧ 2 ≤ w.toNat / 2 ^ 16 % 8) ∨
        (w.getLsbD 19 = true ∧ (fetching w).cfg.hActive < w.toNat % 2 ^ 16)))) = true ∧
    5 ≤ (5#3 : BitVec 3).toNat ∧
    (Cfg.profileA.valid = true ∧ segPatDesc .lane1 4#3 2 false ∈ lineDescs Cfg.profileA .lane1 .blank) := by decide

theorem witness_StatusBits : running.cfg.regBase.toNat % 4 = 0 ∧ running.cfg.regBase.toNat + 4 < 2 ^ 32 := by decide

/-- Each offset of the map, the first unused one and the last. -/
theorem witness_RegisterReadsFollowTheMap : running.cfg.regBase.toNat % 4 = 0 ∧ 63 < 64 ∧ running.cfg.diagEn = false ∧
    [0, 1, 2, 3, 4, 5, 6, 63].map (fun n => (nextOf (envStep (.busRead (running.cfg.regBase + BitVec.ofNat 32 (4 * n)) 4) running)).map
      State.result) = [0#32, 7#32, 0#32, 0#32, 0#32, 0#32, 0#32, 0#32].map (fun v => some (.word v)) := by decide

theorem witness_ReadOnlyRegistersIgnoreWrites : running.cfg.regBase.toNat % 4 = 0 ∧ 1 ≤ 1 ∧ 1 < 64 ∧ 1 ≤ 63 ∧ 63 < 64 := by decide

theorem witness_BadRegisterAccessRefused : 0xFF < 0x100 ∧ [0#8] ≠ [] ∧ [0#8].length ≠ 4 ∧
    2 < 0x100 ∧ (running.cfg.regBase + BitVec.ofNat 32 2).toNat % 4 ≠ 0 := by decide

theorem witness_LegalRequestIsTaken : (stopped.cfg.regBase.toNat % 4 = 0 ∧ stopped.req = 0#2 ∧ stopped.run = false) ∧
    (running.cfg.regBase.toNat % 4 = 0 ∧ running.req = 0#2 ∧ running.run = true) := ⟨⟨rfl, rfl, rfl⟩, ⟨rfl, rfl, rfl⟩⟩

theorem witness_LifecycleMisuseRefused : ({ running with req := 1#2 }.req = 1#2 ∧ { running with req := 1#2 }.run = true) ∧
    ({ stopped with req := 2#2 }.req = 2#2 ∧ { stopped with req := 2#2 }.run = false) ∧ asked.req ≠ 0#2 ∧
    (running.req = 0#2 ∧ running.run = true) ∧ (stopped.req = 0#2 ∧ stopped.run = false) ∧
    asked.cfg.regBase.toNat % 4 = 0 ∧ (0#8 ++ 0#8 ++ 0#8 ++ 3#8 : Word) ≠ 1#32 ∧ (0#8 ++ 0#8 ++ 0#8 ++ 3#8 : Word) ≠ 2#32 :=
  ⟨⟨rfl, rfl⟩, ⟨rfl, rfl⟩, by decide, ⟨rfl, rfl⟩, ⟨rfl, rfl⟩, rfl, by decide, by decide⟩

/-- A store in the framebuffer, and stores that end just below and begin just above the register block. -/
theorem witness_HostStoreThenReadByte : Memory.wf stopped.mem = true ∧ [1#8, 2#8].length ≤ 2 ^ 32 ∧
    touchesRegs stopped.cfg 0x20000000#32 2 = false ∧ touchesRegs stopped.cfg 0x3FFFFFFE#32 2 = false ∧
    touchesRegs stopped.cfg 0x40000100#32 2 = false := by decide

/-- A read in the framebuffer, one that ends just below the register block, and one at the top of the address space. -/
theorem witness_OutsideReadsAnswerAndXformIsWritten : touchesRegs stopped.cfg 0x20000000#32 4 = false ∧
    touchesRegs stopped.cfg 0x3FFFFFFE#32 2 = false ∧ touchesRegs stopped.cfg 0xFFFFFFFF#32 1 = false := by decide

theorem witness_OutsideWritesNoBlockState : EnvAction.xformWrite 5 ≠ .resetInput ∧
    ∃ t, envStep (.xformWrite 5) running = .next t := ⟨by decide, _, rfl⟩

theorem witness_CtrlsymAnswersItsWord : (4#3 : BitVec 3).toNat < 5 ∧ stopped.cfg.valid = true ∧ 5 ≤ (5#3 : BitVec 3).toNat :=
  ⟨by decide, valid_A, by decide⟩

theorem witness_LaneFieldRoundTrip : Cfg.profileA.valid = true := valid_A

theorem witness_LaneExtractAnswersTheField : stopped.cfg.valid = true := valid_A

theorem witness_Index6AnswersTheShiftedField : stopped.cfg.valid = true ∧ (31#16 : BitVec 16).toNat < 2 ^ stopped.cfg.fieldWidth.get .lane0 :=
  ⟨valid_A, by decide⟩

theorem witness_EncodeLineFillsTheBuffer : 1 < stopped.cfg.srcLines ∧ noStores (planOf stopped) ∧ 1 < stopped.cfg.hActive ∧
    stopped.cfg.hActive ≤ 2 := ⟨by decide, fun _ _ => List.not_mem_nil, by decide, by decide⟩

theorem witness_EncodeLineTornReads : 1 < stopped.cfg.srcLines ∧ 1 < stopped.cfg.hActive := by decide

theorem witness_EncodeLineRestoresXform : 1 < stopped.cfg.srcLines ∧
    EncAct.xformRead ∈ planOf { stopped with encPlans := [[.xformRead]] } ∧
    ∀ v, EncAct.xformWrite v ∉ planOf { stopped with encPlans := [[.xformRead]] } :=
  ⟨by decide, List.mem_singleton.mpr rfl, fun _ h => by cases List.mem_singleton.mp h⟩

theorem witness_EncodeIndexOutOfRangeRefused : stopped.cfg.srcLines ≤ 2 ∧ 2 ≤ 2 := by decide

/-- Memory nobody has written is a line of the one colour 0x0000. -/
theorem witness_SolidColourLine : 1 < State.reset.cfg.srcLines ∧ noStores (planOf State.reset) ∧
    ∀ j, j < State.reset.cfg.hActive → Memory.read32 State.reset.mem
      (BitVec.ofNat 32 (State.reset.cfg.fbBase + 1 * State.reset.cfg.fbStride + 4 * j)) = (0x0000#16 : Pixel) ++ (0x0000#16 : Pixel) :=
  ⟨by decide, fun _ _ => List.not_mem_nil, fun j _ => by simp [Memory.read32, Memory.read, State.reset, State.resetWith, Assoc.lookup, unwrittenByte]⟩

theorem witness_BuildChainsWritesTheRings : running.run = true ∧ stopped.run = false ∧ Lane.lane1 ≠ .lane0 := ⟨rfl, rfl, by decide⟩

theorem witness_RingsLastOneLine : Cfg.profileA.valid = true := valid_A

theorem witness_SegmentLoadsIntoItsLane : (Instr.segPat .lane1 4#3 65535#16 1#2 true).wellFormed running.cfg = true ∧
    (Instr.segBuf .lane1 .buf1 2#16 1#2 true).wellFormed running.cfg = true ∧ running.rdptr.get .lane1 = some ⟨.blank, 1#2⟩ ∧
    stopped.rdptr.get .lane1 = none ∧ Lane.lane0 ≠ .lane1 := ⟨by decide, by decide, rfl, rfl, by decide⟩

theorem witness_ReservedSegmentFaults : (Instr.segPat .lane1 4#3 0#16 1#2 true).wellFormed running.cfg = false ∧
    (Instr.segBuf .lane1 .buf1 3#16 1#2 true).wellFormed running.cfg = false := by decide

theorem witness_PatternSegmentSendsItsSymbol : slotEnabled running = true ∧
    running.cur.get .lane1 = some ⟨.pat, 0#3, 4, 0, false, 1#2⟩ ∧ 4 ≤ 4 ∧ ∃ t, runSlots 4 running = .next t :=
  ⟨by decide, rfl, by decide, next_of (by decide)⟩

theorem witness_BufferSegmentSendsItsWords : slotEnabled sending = true ∧
    sending.cur.get .lane1 = some ⟨.buf, Buf.buf1.sel, 2, 0, false, 1#2⟩ ∧ 2 ≤ 2 ∧ ∃ t, runSlots 2 sending = .next t :=
  ⟨by decide, rfl, by decide, next_of (by decide)⟩

/-- Lane 0 completes its one-slot segment, lanes 1 and 2 go on; and a slot that sends from a line buffer. -/
theorem witness_SeqSlotAdvancesEveryLane : running.run = true ∧ running.outEn = true ∧
    (running.cur.get .lane0 = some ⟨.pat, 0#3, 1, 0, false, 2#2⟩ ∧ running.cur.get .lane1 = some ⟨.pat, 0#3, 4, 0, false, 1#2⟩ ∧
      running.cur.get .lane2 = some ⟨.pat, 0#3, 4, 0, false, 1#2⟩) ∧
    ctrlSym? running.cfg 0#3 = some 0x000D5354#32 ∧ running.rdptr.get .lane0 = some ⟨.blank, 1#2⟩ ∧
    Descriptor.reserved running.cfg .lane0 ⟨.pat, 1#3, 2#16, 2#2, false⟩ = false ∧
    readDesc running .lane0 ⟨.blank, 1#2⟩ = some 0x00210002#32 ∧ decodeDesc 0x00210002#32 = .ok ⟨.pat, 1#3, 2#16, 2#2, false⟩ ∧
    (sending.cur.get .lane1 = some ⟨.buf, Buf.buf1.sel, 2, 0, false, 1#2⟩ ∧ readLineWord sending .lane1 .buf1 0 = some 0x0007FD00#32) := by
  decide

theorem witness_StepsNotEnabledAreNotTaken : stopped.run = false ∧ stopped.outEn = false ∧ stopped.cur.get .lane0 = none ∧
    stopped.irqEn = false ∧ running.irqPend = false ∧ running.polling = false ∧ (∀ k, running.rdptr.get .lane0 ≠ some ⟨k, 0#2⟩) ∧
    ({ running with req := 2#2, irqPend := true }.req = 2#2 ∧ running.run = true ∧ running.irqEn = true) ∧
    (ticking 0 .buf0).polling = true ∧ stopped.req ≠ 1#2 ∧ asked.req ≠ 2#2 := by
  refine ⟨rfl, rfl, rfl, rfl, rfl, rfl, fun k h => ?_, ⟨rfl, rfl, rfl⟩, rfl, by decide, by decide⟩
  cases k <;> cases h

theorem witness_ChainRepointsInTheWindow : (∀ l, ∃ k, (ticking 0 .buf0).rdptr.get l = some ⟨k, 0#2⟩) ∧
    (∀ l, (ticking 0 .buf0).rdptr.get l = some ⟨.blank, 0#2⟩) ∧ ∃ l, ∀ k, running.rdptr.get l ≠ some ⟨k, 0#2⟩ :=
  ⟨ticking_window 0 .buf0, fun l => by cases l <;> rfl, .lane0, fun k h => by cases k <;> cases h⟩

/-- The first slot of the window, and the first slot of the line. -/
theorem witness_WindowIsTheActiveWidth : ((ticking 0 .buf0).cfg.valid = true ∧ 4 < (ticking 0 .buf0).cfg.hTotal ∧
      LanesAt (ticking 0 .buf0) 4 ∧ 1 + 2 + 1 ≤ 4) ∧
    (running.cfg.valid = true ∧ 0 < running.cfg.hTotal ∧ LanesAt running 0) :=
  ⟨⟨valid_A, by decide, ticking_lanes 0 .buf0, by decide⟩,
    ⟨valid_A, by decide, fun l => ⟨.blank, 0, 0, running_lineStart l, by cases l <;> rfl⟩⟩⟩

theorem witness_TickEnterTakesTheNotification : running.run = true ∧ running.irqEn = true ∧ { running with irqPend := true }.irqPend = true ∧
    running.polling = false ∧ running.cfg.diagEn = false := ⟨rfl, rfl, rfl, rfl, rfl⟩

/-- The VSync band, the Blanking band, and the wrap. -/
theorem witness_TickBodyOutsideTheActiveBand : ∀ p ∈ [((0, 1) : Nat × Nat), (2, 3), (9, 0)],
    p.2 = (if (ticking p.1 .buf0).line.toNat + 1 = (ticking p.1 .buf0).cfg.vTotal then 0 else (ticking p.1 .buf0).line.toNat + 1) ∧
      (ticking p.1 .buf0).polling = true ∧ (∀ l, ∃ k, (ticking p.1 .buf0).rdptr.get l = some ⟨k, 0#2⟩) ∧
      classifyLine (ticking p.1 .buf0).cfg p.2 ≠ .active := by
  intro p hp
  refine ⟨?_, rfl, ticking_window p.1 .buf0, ?_⟩ <;> revert p <;> decide

/-- The first and the last even position, with no store inside. -/
theorem witness_TickBodyEncodesAtEvenPositions : ∀ p ∈ [((5, 6, 0) : Nat × Nat × Nat), (7, 8, 2)],
    (ticking p.1 .buf0).cfg.valid = true ∧
      p.2.1 = (if (ticking p.1 .buf0).line.toNat + 1 = (ticking p.1 .buf0).cfg.vTotal then 0 else (ticking p.1 .buf0).line.toNat + 1) ∧
      p.2.2 + ((ticking p.1 .buf0).cfg.vSync + (ticking p.1 .buf0).cfg.vBack + 1) = p.2.1 ∧ (ticking p.1 .buf0).polling = true ∧
      (∀ l, ∃ k, (ticking p.1 .buf0).rdptr.get l = some ⟨k, 0#2⟩) ∧ classifyLine (ticking p.1 .buf0).cfg p.2.1 = .active ∧
      p.2.2 % 2 = 0 ∧ noStores (planOf (ticking p.1 .buf0)) := by
  intro p hp
  refine ⟨valid_A, ?_, ?_, rfl, ticking_window p.1 .buf0, ?_, ?_, fun _ _ => List.not_mem_nil⟩ <;> revert p <;> decide

/-- The first and the last odd position. -/
theorem witness_TickBodyTogglesAtOddPositions : ∀ p ∈ [((6, 7, 1) : Nat × Nat × Nat), (8, 9, 3)],
    p.2.1 = (if (ticking p.1 .buf0).line.toNat + 1 = (ticking p.1 .buf0).cfg.vTotal then 0 else (ticking p.1 .buf0).line.toNat + 1) ∧
      p.2.2 + ((ticking p.1 .buf0).cfg.vSync + (ticking p.1 .buf0).cfg.vBack + 1) = p.2.1 ∧ (ticking p.1 .buf0).polling = true ∧
      (∀ l, ∃ k, (ticking p.1 .buf0).rdptr.get l = some ⟨k, 0#2⟩) ∧ classifyLine (ticking p.1 .buf0).cfg p.2.1 = .active ∧
      p.2.2 % 2 = 1 := by
  intro p hp
  refine ⟨?_, ?_, rfl, ticking_window p.1 .buf0, ?_, ?_⟩ <;> revert p <;> decide

/-- The last line, where the counter wraps. -/
theorem witness_EveryTickAdvancesTheCounters : (ticking 9 .buf0).cfg.valid = true ∧ (ticking 9 .buf0).line.toNat < (ticking 9 .buf0).cfg.vTotal ∧
    (ticking 9 .buf0).polling = true ∧ ∀ l, ∃ k, (ticking 9 .buf0).rdptr.get l = some ⟨k, 0#2⟩ :=
  ⟨valid_A, by decide, rfl, ticking_window 9 .buf0⟩

theorem witness_ClassifyAnswersTheBand : 0 < stopped.cfg.vTotal ∧ 9 < stopped.cfg.vTotal := by decide

theorem witness_BandsOfOneFrame : Cfg.profileA.valid = true := valid_A

theorem witness_OneEncodePerSourceLine : Cfg.profileA.valid = true ∧ 1 < Cfg.profileA.srcLines := ⟨valid_A, by decide⟩

theorem witness_StartLeavesTheArmedBlock : asked.cfg.valid = true ∧ asked.req = 1#2 ∧ asked.run = false := ⟨valid_A, rfl, rfl⟩

theorem witness_StopLeavesTheIdleBlock : { running with req := 2#2 }.req = 2#2 ∧ running.run = true ∧ running.polling = false ∧
    ¬(running.irqPend = true ∧ running.irqEn = true) := ⟨rfl, rfl, rfl, fun h => by cases h.1⟩

theorem witness_ResetLeavesTheIdleBlock : (∃ c, State.reset = State.resetWith c) ∧ ∃ t, envStep .resetInput running = .next t :=
  ⟨⟨_, rfl⟩, _, rfl⟩

theorem witness_OnlyTheNamedOperationsWrite : (∃ t, exec .seqSlot running = .next t) ∧ Instr.seqSlot ≠ .start ∧ Instr.seqSlot ≠ .tickBody ∧
    (∀ y b, Instr.seqSlot ≠ .encodeLine y b) ∧ Instr.seqSlot ≠ .buildChains ∧ noStores (planOf running) :=
  ⟨next_of (by decide), by decide, by decide, fun _ _ h => (by cases h), by decide, fun _ _ => List.not_mem_nil⟩

theorem witness_NoResultDependsOnXform : noReads (planOf running) := List.not_mem_nil

/-- One state per clause. -/
theorem witness_StepRunsTheDecodedInstruction : running.cfg.valid = true ∧
    { running with sched := [.op .seqSlot] }.sched = .op .seqSlot :: [] ∧
    ({ asked with sched := [.serve] }.sched = .serve :: [] ∧ asked.req ≠ 0#2 ∧ decode (.cmd (asked.req.setWidth 32)) = .ok .start) ∧
    ({ running with sched := [.fetch .lane0] }.sched = .fetch .lane0 :: [] ∧ running.rdptr.get .lane0 = some ⟨.blank, 1#2⟩ ∧
      readDesc running .lane0 ⟨.blank, 1#2⟩ = some 0x00210002#32 ∧
      decode (.desc .lane0 0x00210002#32) = .ok (.segPat .lane0 1#3 2#16 2#2 false) ∧
      (Instr.segPat .lane0 1#3 2#16 2#2 false).wellFormed running.cfg = true) ∧
    { running with sched := [.env .xformRead] }.sched = .env .xformRead :: [] :=
  ⟨valid_A, rfl, ⟨rfl, by decide, by decide⟩, ⟨rfl, rfl, by decide, by decide, by decide⟩, rfl⟩

theorem witness_BadConfigurationRefusedGoodOneKept : { stopped with cfg := { Cfg.profileA with hBack := 0 } }.cfg.valid = false ∧
    ∃ t, step running = .next t := ⟨by decide, next_of (by decide)⟩

theorem witness_StepKeepsCanonicalForm : Canonical State.reset ∧ ∃ t, step State.reset = .next t :=
  ⟨⟨rfl, fun l b => by cases l <;> cases b <;> rfl⟩, next_of (by decide)⟩

theorem witness_StepKeepsRegistersAndFlagsLegal : RegistersLegal running ∧ FlagsFollowRun running ∧ ∃ t, step running = .next t :=
  ⟨⟨by decide, by decide, by decide, by decide⟩, running_flags, next_of (by decide)⟩

theorem witness_StepKeepsLanesInStep : agentsOnly running ∧ FlagsFollowRun running ∧ Sequencing running ∧ ∃ t, step running = .next t :=
  ⟨rfl, running_flags, running_sequencing, next_of (by decide)⟩

theorem witness_ResetMeetsTheInvariants : Cfg.profileA.valid = true := valid_A

theorem witness_RunningBlockAlwaysSends : running.cfg.valid = true ∧ FlagsFollowRun running ∧ Sequencing running ∧ running.run = true :=
  ⟨valid_A, running_flags, running_sequencing, rfl⟩

theorem witness_WindowOpensWithinOneLine : running.cfg.valid = true ∧ FlagsFollowRun running ∧ Sequencing running ∧ running.run = true :=
  ⟨valid_A, running_flags, running_sequencing, rfl⟩

theorem witness_OneLineOnTheWire : running.cfg.valid = true ∧ FlagsFollowRun running ∧ Sequencing running ∧ running.run = true ∧
    AtLineStart running .blank := ⟨valid_A, running_flags, running_sequencing, rfl, running_lineStart⟩

/-- With nothing scheduled, and with a host store at the head of the schedule. -/
theorem witness_OnTimeRunStaysOnTime : (OnTime (ticking 5 .buf0) ∧ (ticking 5 .buf0).sched = []) ∧
    ∃ s : State, OnTime s ∧ agentsOnly s ∧ ¬ LateSlot s ∧ s.sched ≠ [] ∧ ∃ t, step s = .next t := by
  refine ⟨⟨ticking_onTime 5 .buf0, rfl⟩, { ticking 5 .buf0 with sched := [.env (.busWrite 0x20000000#32 [1#8])] },
    (ticking_onTime 5 .buf0).outside _ _ _ _ _ _, rfl, ?_, List.cons_ne_nil _ _, next_of (by decide)⟩
  rintro ⟨-, -, u, h⟩
  cases h

theorem witness_OnTimeEncodeNeverMeetsTheBufferBeingSent : OnTime (ticking 5 .buf0) ∧ tickBodyEnabled (ticking 5 .buf0) = true ∧
    bodyEncodes (ticking 5 .buf0) ∧ ∃ t, exec .tickBody (ticking 5 .buf0) = .next t :=
  ⟨ticking_onTime 5 .buf0, by decide, ⟨by decide, by decide⟩, next_of (by decide)⟩

end Sys2Proof.Tests
end

section
/-! The family of the scope: what each kind of schedule entry runs (R13, R91, R157, R200), and what no step changes (R10, R36). -/

namespace Sys2Proof.Machine

variable {s t : State} {rest : List Event}

/-! ### The scheduled step -/

/-- The two legality checks of a descriptor agree: a fetch refuses exactly the words whose operation is not well-formed (R99 (b)). -/
theorem toInstr_wellFormed (c : Cfg) (l : Lane) {w : Word} {d : Descriptor} (hd : decodeDesc w = .ok d) :
    (d.toInstr l).wellFormed c = !d.reserved c l := by
  rcases Laws.Reserved.toInstr_cases l d with ⟨-, h⟩ | ⟨-, h⟩
  · rw [h]; exact Laws.Reserved.segPat _ _ _ _ _ c l w d hd h
  · rw [h]; exact Laws.Reserved.segBuf _ _ _ _ _ c l w d hd h

/-- An operation decoded from a descriptor word is the descriptor's (R98). -/
theorem decode_desc_ok {l : Lane} {w : Word} {i : Instr} (h : decode (.desc l w) = .ok i) :
    ∃ d, decodeDesc w = .ok d ∧ i = d.toInstr l := by
  simp only [decode] at h
  cases hd : decodeDesc w with
  | error e => rw [hd] at h; cases h
  | ok d => rw [hd] at h; cases h; exact ⟨d, rfl, rfl⟩

/-- A request that decodes is served as its command (R91, R200). -/
theorem serveRequest_of {i : Instr} (h0 : s.req ≠ 0#2) (hd : decodeCmd (s.req.setWidth 32) = .ok i) :
    serveRequest s = .run i s := by
  simp only [serveRequest, if_neg h0, hd]

/-- A fetch that meets a descriptor which is not reserved runs the descriptor's operation (R157). -/
theorem fetchAction_of {l : Lane} {d : Descriptor} (hd : fetchDescriptor s l = .ok d) (hr : d.reserved s.cfg l = false) :
    fetchAction l s = .run (d.toInstr l) s := by
  simp [fetchAction, hd, hr]

/-- Under a valid configuration the schedule's head is used up and decides the action (R13; log 3). -/
theorem nextAction_scheduled {e : Event} (hv : s.cfg.valid = true) (hs : s.sched = e :: rest) :
    nextAction s = eventAction e { s with sched := rest } := by
  simp only [nextAction, if_pos hv, hs]

/-- A step whose action is an operation is that operation's meaning. -/
theorem step_of_run {i : Instr} (h : nextAction s = .run i t) : step s = exec i t := by
  simp only [step, h]

theorem step_op {i : Instr} (hv : s.cfg.valid = true) (hs : s.sched = .op i :: rest) :
    step s = exec i { s with sched := rest } :=
  step_of_run (nextAction_scheduled hv hs)

theorem step_serve {i : Instr} (hv : s.cfg.valid = true) (hs : s.sched = .serve :: rest) (h0 : s.req ≠ 0#2)
    (hd : decodeCmd (s.req.setWidth 32) = .ok i) : step s = exec i { s with sched := rest } :=
  step_of_run ((nextAction_scheduled hv hs).trans (serveRequest_of (s := { s with sched := rest }) h0 hd))

theorem step_fetch {l : Lane} {d : Descriptor} (hv : s.cfg.valid = true) (hs : s.sched = .fetch l :: rest)
    (hd : fetchDescriptor s l = .ok d) (hr : d.reserved s.cfg l = false) :
    step s = exec (d.toInstr l) { s with sched := rest } :=
  step_of_run ((nextAction_scheduled hv hs).trans (fetchAction_of (s := { s with sched := rest }) hd hr))

theorem step_env {a : EnvAction} (hv : s.cfg.valid = true) (hs : s.sched = .env a :: rest) :
    step s = envStep a { s with sched := rest } := by
  simp only [step, nextAction_scheduled hv hs, eventAction]

/-! ### The configuration -/

/-- A configuration outside R10 is refused before anything else is looked at (log 26). -/
theorem step_badCfg (h : s.cfg.valid = false) : step s = .refused .badCfg := by
  simp [step, nextAction, h]

/-- No operation changes the configuration (R36). -/
theorem exec_cfg {i : Instr} (h : exec i s = .next t) : t.cfg = s.cfg := by
  cases i with
  | start =>
    rcases execStart_next h with ⟨-, rfl⟩ | ⟨-, -, hb⟩
    · rfl
    · rw [startBlock_ok hb]; rfl
  | stop => rcases execStop_next h with rfl | ⟨-, -, -, rfl⟩ <;> rfl
  | segPat l sel count ring irq => obtain ⟨-, rfl⟩ := execSeg_next (d := ⟨.pat, sel, count, ring, irq⟩) h; rfl
  | segBuf l b count ring irq => obtain ⟨-, rfl⟩ := execSeg_next (d := ⟨.buf, b.sel, count, ring, irq⟩) h; rfl
  | chain c => obtain ⟨-, rfl⟩ := execChain_next h; rfl
  | ctrlsym k => obtain ⟨w, rfl⟩ := execCtrlsym_next h; rfl
  | datasym idx => cases h; rfl
  | laneExtract l px => cases h; rfl
  | index6 l f => cases h; rfl
  | pack2 s0 s1 => cases h; rfl
  | encodeLine y b =>
    obtain ⟨k, -, -, rfl⟩ := execEncodeLine_next h
    rw [encodeLine_frame]
  | buildChains => obtain ⟨-, rfl⟩ := execBuildChains_next h; rfl
  | seqSlot => rcases execSeqSlot_next h with ⟨-, rfl⟩ | ⟨-, m, -, rfl⟩ <;> rfl
  | tickEnter =>
    rcases execTickEnter_next h with ⟨-, rfl⟩ | ⟨-, rfl⟩
    · rfl
    · exact enterTick_cfg _
  | tickBody =>
    rcases execTickBody_next h with ⟨-, rfl⟩ | ⟨-, c, u, hb, rfl⟩
    · rfl
    · rw [leaveTick_cfg, hb.frame]; rfl
  | classify n => cases h; rfl

@[simp] theorem readDiag_cfg (stored : Word) (s : State) : (readDiag stored s).cfg = s.cfg := by
  unfold readDiag
  split <;> rfl

@[simp] theorem readReg_cfg (off : Nat) (s : State) : (readReg off s).cfg = s.cfg := by
  unfold readReg
  split <;> simp

/-- A write to a register that is taken leaves the state, or puts the request into `REQ` (R29). -/
theorem writeReg_next {off : Nat} {w : Word} (h : writeReg off w s = .next t) : t = s ∨ t = { s with req := w.setWidth 2 } := by
  unfold writeReg at h
  split at h
  · unfold writeReq at h
    split at h
    · cases h
    · split_ifs at h
      cases h
      exact .inr rfl
  · cases h
    exact .inl rfl

theorem busRead_cfg {a : Addr} {n : Nat} (h : busRead a n s = .next t) : t.cfg = s.cfg := by
  unfold busRead at h
  split_ifs at h
  · cases h; exact readReg_cfg _ s
  · cases h; rfl

theorem busWrite_cfg {a : Addr} {bs : List Byte} (h : busWrite a bs s = .next t) : t.cfg = s.cfg := by
  unfold busWrite at h
  split_ifs at h
  · rcases writeReg_next h with rfl | rfl <;> rfl
  · cases h; rfl

/-- No action from outside changes the configuration, the reset input included (R36, R250). -/
theorem envStep_cfg {a : EnvAction} (h : envStep a s = .next t) : t.cfg = s.cfg := by
  cases a with
  | busRead x n => exact busRead_cfg h
  | busWrite x bs => exact busWrite_cfg h
  | xformRead => cases h; rfl
  | xformWrite v => cases h; rfl
  | resetInput => cases h; rfl

/-- A step that completes keeps the configuration (R36). -/
theorem step_cfg (h : step s = .next t) : t.cfg = s.cfg := by
  obtain ⟨-, ⟨i, -, -, hi⟩ | ⟨a, -, ha⟩ | rfl⟩ := step_next h
  · exact (exec_cfg hi :)
  · exact (envStep_cfg ha :)
  · rfl

/-! ### The obligations -/

/-- Settles O49, one clause for each kind of schedule entry; for a fetch, a well-formed operation is a descriptor that is not reserved. -/
theorem stepRunsTheDecodedInstruction : Obligations.StepRunsTheDecodedInstruction := by
  intro s rest hv
  refine ⟨fun i hs => step_op hv hs, fun i hs h0 hd => step_serve hv hs h0 hd, ?_, fun a hs => step_env hv hs⟩
  intro l p w i hs hp hw hd hwf
  obtain ⟨d, hdec, rfl⟩ := decode_desc_ok hd
  have hr : d.reserved s.cfg l = false := by simpa [toInstr_wellFormed s.cfg l hdec] using hwf
  exact step_fetch hv hs (fetchDescriptor_of hp hw hdec) hr

/-- Settles O50: the refusal is the step's first check, and no operation or action from outside writes the configuration. -/
theorem badConfigurationRefusedGoodOneKept : Obligations.BadConfigurationRefusedGoodOneKept :=
  fun _ => ⟨step_badCfg, fun _ => step_cfg⟩

end Sys2Proof.Machine
end

section
/-! The family of the state, first part: everything an operation and an action from outside can do, said once, and the shape in which
a step keeps a predicate. -/

namespace Sys2Proof.Machine

variable {s t : State}

/-! ### What an operation can do -/

/-- Every state an operation that completes can leave, with the guard it was taken under. -/
inductive Effect (s : State) : Instr → State → Prop where
  | stutter (i : Instr) : Effect s i s
  | answer (i : Instr) (r : Result) : Effect s i { s with result := r }
  | start {t : State} : s.req = 1#2 → s.run = false → startBlock s = .ok t → Effect s .start t
  | stop : s.req = 2#2 → s.run = true → stopAllowed s = true → Effect s .stop (stopBlock s)
  | load {i : Instr} (l : Lane) (d : Descriptor) : isAgentStep i = false → d.reserved s.cfg l = false → Effect s i
      { s with cur := s.cur.set l (some (segOf d)), rdptr := s.rdptr.set l ((s.rdptr.get l).map (Ptr.advance · d.ring)) }
  | chain (c : Cat) : windowOpen s = true → Effect s (.chain c) (pointAll c s)
  | encode {y b : Nat} (k : Buf) : Effect s (.encodeLine y b) (encodeLine y k s)
  | build : s.run = false → Effect s .buildChains (buildChains s)
  | slot (m : Lane → Move) : slotEnabled s = true → (∀ l, laneMove s l = .ok (m l)) → Effect s .seqSlot (slotResult m s)
  | enter : tickEnterEnabled s = true → Effect s .tickEnter (enterTick s)
  | body {c : Cat} {u : State} : tickBodyEnabled s = true → Body s c u → Effect s .tickBody (leaveTick (pointAll c u))

/-- An operation that completes has one of these effects. -/
theorem exec_effect {i : Instr} (h : exec i s = .next t) : Effect s i t := by
  cases i with
  | start =>
    rcases execStart_next h with ⟨-, rfl⟩ | ⟨hq, hr, hb⟩
    · exact .stutter _
    · exact .start hq hr hb
  | stop =>
    rcases execStop_next h with rfl | ⟨hq, hr, ha, rfl⟩
    · exact .stutter _
    · exact .stop hq hr ha
  | segPat l sel count ring irq =>
    obtain ⟨hd, rfl⟩ := execSeg_next (d := ⟨.pat, sel, count, ring, irq⟩) h
    exact .load l _ rfl hd
  | segBuf l b count ring irq =>
    obtain ⟨hd, rfl⟩ := execSeg_next (d := ⟨.buf, b.sel, count, ring, irq⟩) h
    exact .load l _ rfl hd
  | chain c =>
    obtain ⟨hw, rfl⟩ := execChain_next h
    exact .chain c hw
  | ctrlsym k =>
    obtain ⟨w, rfl⟩ := execCtrlsym_next h
    exact .answer _ _
  | datasym i => cases h; exact .answer _ _
  | laneExtract l px => cases h; exact .answer _ _
  | index6 l f => cases h; exact .answer _ _
  | pack2 s0 s1 => cases h; exact .answer _ _
  | encodeLine y b =>
    obtain ⟨k, -, -, rfl⟩ := execEncodeLine_next h
    exact .encode k
  | buildChains =>
    obtain ⟨hr, rfl⟩ := execBuildChains_next h
    exact .build hr
  | seqSlot =>
    rcases execSeqSlot_next h with ⟨-, rfl⟩ | ⟨he, m, hm, rfl⟩
    · exact .stutter _
    · exact .slot m he hm
  | tickEnter =>
    rcases execTickEnter_next h with ⟨-, rfl⟩ | ⟨he, rfl⟩
    · exact .stutter _
    · exact .enter he
  | tickBody =>
    rcases execTickBody_next h with ⟨-, rfl⟩ | ⟨he, c, u, hb, rfl⟩
    · exact .stutter _
    · exact .body he hb
  | classify n => cases h; exact .answer _ _

/-! ### What an action from outside can do -/

/-- Every state an action from outside that completes can leave. -/
inductive Outside (s : State) : EnvAction → State → Prop where
  | ignored (x : Addr) (bs : List Byte) : Outside s (.busWrite x bs) s
  | answer (a : EnvAction) (r : Result) (n : Nat) : Outside s a { s with result := r, freeCount := n }
  | request (x : Addr) (bs : List Byte) {r : BitVec 2} : r ≠ 3#2 → Outside s (.busWrite x bs) { s with req := r }
  | store (x : Addr) (bs : List Byte) : Outside s (.busWrite x bs) { s with mem := Memory.writeBytes s.mem x bs }
  | xform (v : Nat) : Outside s (.xformWrite v) { s with xform := xformValue s.cfg v }
  | reset : Outside s .resetInput (resetBlock s)

/-- A host read of a register answers and, for a diagnostics register, draws a value (R28). -/
theorem readReg_frame (off : Nat) (s : State) : ∃ r n, readReg off s = { s with result := r, freeCount := n } := by
  have diag : ∀ w, ∃ r n, readDiag w s = { s with result := r, freeCount := n } := fun w => by
    unfold readDiag
    split
    · exact ⟨_, _, rfl⟩
    · exact ⟨_, s.freeCount, rfl⟩
  unfold readReg
  split
  case h_5 => exact diag _
  case h_6 => exact diag _
  all_goals exact ⟨_, s.freeCount, rfl⟩

/-- A request that is taken is one of the two commands (R25, R91). -/
theorem writeReq_next {w : Word} (h : writeReq w s = .next t) : ∃ r, r ≠ 3#2 ∧ t = { s with req := r } := by
  unfold writeReq at h
  split at h
  · cases h
  · rename_i i hd
    split_ifs at h
    cases h
    refine ⟨_, ?_, rfl⟩
    unfold decodeCmd at hd
    split_ifs at hd with h1 h2
    · rw [h1]; decide
    · rw [h2]; decide

/-- An action from outside that completes has one of these effects. -/
theorem envStep_outside {a : EnvAction} (h : envStep a s = .next t) : Outside s a t := by
  cases a with
  | busRead x n =>
    simp only [envStep, busRead] at h
    split_ifs at h
    · cases h
      obtain ⟨r, k, hr⟩ := readReg_frame (regOffset s.cfg x) s
      rw [hr]
      exact .answer _ _ _
    · cases h
      exact .answer _ _ s.freeCount
  | busWrite x bs =>
    simp only [envStep, busWrite] at h
    split_ifs at h
    · unfold writeReg at h
      split at h
      · obtain ⟨r, hr, rfl⟩ := writeReq_next h
        exact .request x bs hr
      · cases h
        exact .ignored x bs
    · cases h
      exact .store x bs
  | xformRead => cases h; exact .answer _ _ s.freeCount
  | xformWrite v => cases h; exact .xform v
  | resetInput => cases h; exact .reset

/-- What no action from outside but the reset input touches (R24, R232). -/
theorem Outside.frame {a : EnvAction} (h : Outside s a t) (ha : a ≠ .resetInput) :
    t = { s with req := t.req, xform := t.xform, mem := t.mem, result := t.result, freeCount := t.freeCount } := by
  cases h with
  | reset => exact absurd rfl ha
  | _ => rfl

/-- No action from outside touches the schedule, the reset input neither (log 24). -/
theorem Outside.sched {a : EnvAction} (h : Outside s a t) : t.sched = s.sched := by
  cases h <;> rfl

/-! ### What a step keeps -/

/-- A step keeps what using up the schedule's head, every operation's effect and every action from outside keep. -/
theorem step_keeps {P : State → Prop} (pop : ∀ es, P { s with sched := es })
    (op : ∀ i u, (agentsOnly s → isAgentStep i = true) → u.cfg.valid = true → P u → Effect u i t → P t)
    (env : ∀ a u, u.cfg.valid = true → P u → Outside u a t → P t) (h : step s = .next t) : P t := by
  obtain ⟨hv, ⟨i, hi, -, he⟩ | ⟨a, -, he⟩ | rfl⟩ := step_next h
  · exact op i { s with sched := s.sched.tail } hi hv (pop _) (exec_effect he)
  · exact env a { s with sched := s.sched.tail } hv (pop _) (envStep_outside he)
  · exact pop _

/-- A step uses up the schedule's head and touches no other entry. -/
theorem step_sched (h : step s = .next t) : t.sched = s.sched.tail := by
  obtain ⟨-, ⟨i, -, -, he⟩ | ⟨a, -, he⟩ | rfl⟩ := step_next h
  · exact (exec_sched he :)
  · exact ((envStep_outside he).sched :)
  · rfl

/-- A schedule of agents' steps stays one. -/
theorem step_agentsOnly (h : step s = .next t) (ha : agentsOnly s) : agentsOnly t := by
  unfold agentsOnly at ha ⊢
  rw [step_sched h]
  exact List.all_eq_true.mpr fun e he => List.all_eq_true.mp ha e (List.mem_of_mem_tail he)

end Sys2Proof.Machine
end

section
/-! The family of the state, second part: the flags and the sequencer's invariant under every effect, and the two statements on a running
block (O53, O55). -/

namespace Sys2Proof.Machine

variable {s t : State} {i : Instr} {a : EnvAction}

/-! ### The flags follow `RUN` -/

theorem stopAllowed_iff : stopAllowed s = true ↔ s.polling = false ∧ ¬(s.irqPend = true ∧ s.irqEn = true) := by
  simp only [stopAllowed, Bool.and_eq_true, Bool.not_eq_true', Bool.eq_false_iff, ne_eq]

/-- A slot notifies only in a running block, a tick is entered only there, and every other effect but `START`'s and `STOP`'s leaves the flags. -/
theorem Effect.flags (h : Effect s i t) (hf : FlagsFollowRun s) : FlagsFollowRun t := by
  cases h with
  | start _ _ hb =>
    rw [startBlock_ok hb]
    exact ⟨rfl, rfl, fun hr => Bool.noConfusion hr, fun hr => Bool.noConfusion hr⟩
  | stop _ _ ha => exact ⟨rfl, rfl, fun _ => rfl, fun _ => (stopAllowed_iff.mp ha).1⟩
  | slot m he _ =>
    exact ⟨hf.outEn, hf.irqEn, fun hr => absurd (hr.symm.trans (slotEnabled_iff.mp he).1) (by decide), hf.polling⟩
  | enter he =>
    simp only [tickEnterEnabled, Bool.and_eq_true] at he
    have hrun : ¬ (enterTick s).run = false := by simp [he.1.1.1]
    exact ⟨by simpa using hf.outEn, by simpa using hf.irqEn, fun hr => absurd hr hrun, fun hr => absurd hr hrun⟩
  | body _ hb =>
    rw [hb.frame]
    exact ⟨by simpa using hf.outEn, by simpa using hf.irqEn, by simpa using hf.irqPend, fun _ => leaveTick_polling _⟩
  | encode k =>
    rw [encodeLine_frame]
    exact ⟨hf.outEn, hf.irqEn, hf.irqPend, hf.polling⟩
  | _ => exact ⟨hf.outEn, hf.irqEn, hf.irqPend, hf.polling⟩

theorem Outside.flags (h : Outside s a t) (hf : FlagsFollowRun s) : FlagsFollowRun t := by
  cases h with
  | reset => exact ⟨rfl, rfl, fun _ => rfl, fun _ => rfl⟩
  | _ => exact ⟨hf.outEn, hf.irqEn, hf.irqPend, hf.polling⟩

/-! ### The sequencer's invariant -/

/-- A stopped block with no lane armed meets the invariant, whatever its buffers and descriptors hold (R38, R40). -/
theorem Sequencing.of_idle (hr : s.run = false) (hc : s.cur = .const none) (hp : s.rdptr = .const none) : Sequencing s := by
  have idle : ¬ s.run = true := by simp [hr]
  exact ⟨fun _ => ⟨hc, hp⟩, fun h => absurd h idle, fun h => absurd h idle, fun h => absurd h idle⟩

/-- A word of a line buffer that is written stays written under an `ENCODE_LINE`. -/
theorem encodeLine_isSome (y : Nat) (k : Buf) {l : Lane} {b : Buf} {j : Nat} (h : (readLineWord s l b j).isSome = true) :
    (readLineWord (encodeLine y k s) l b j).isSome = true := by
  by_cases hk : b ≠ k ∨ s.cfg.hActive ≤ j
  · rwa [encodeLine_keeps y k s l b j hk]
  · push Not at hk
    obtain ⟨rfl, hj⟩ := hk
    obtain ⟨m, -, hw⟩ := encodeLine_writes y b s l j hj
    rw [hw]
    rfl

/-- The body before its chain write leaves the sequencer as it is: it may encode into a filled buffer, and nothing more. -/
theorem Body.sequencing {c : Cat} (hb : Body s c t) (h : Sequencing s) : Sequencing t := by
  refine h.congr ?_ ?_ ?_ ?_ ?_ fun l b j hw => ?_
  case refine_6 =>
    cases hb with
    | encode y _ _ => exact encodeLine_isSome y _ hw
    | _ => exact hw
  all_goals rw [hb.frame]

/-- A chain write in the window of a running block keeps the lanes in step (R161, R162). -/
theorem Sequencing.point (c : Cat) (hv : s.cfg.valid = true) (hr : s.run = true) (hw : windowOpen s = true) (h : Sequencing s) :
    Sequencing (pointAll c s) where
  stopped := fun hf => absurd (hf.symm.trans hr) (by decide)
  desc := h.desc
  filled := h.filled
  lanes := fun _ => by
    obtain ⟨pos, hpos, hl⟩ := h.lanes hr
    exact ⟨pos, hpos, hl.point c hv hw⟩

/-- A slot leads all lanes to the same next place of their line (R154, R161). -/
theorem Sequencing.slot {m : Lane → Move} (hv : s.cfg.valid = true) (he : slotEnabled s = true)
    (hm : ∀ l, laneMove s l = .ok (m l)) (h : Sequencing s) : Sequencing (slotResult m s) := by
  have hr : s.run = true := (slotEnabled_iff.mp he).1
  obtain ⟨pos, hpos, hl⟩ := h.lanes hr
  obtain ⟨m', hm', -, hnext, -⟩ := seqSlot_line hv he (h.desc hr) (h.filled hr) hl hpos
  have hmm : m' = m := funext fun l => Except.ok.inj ((hm' l).symm.trans (hm l))
  rw [hmm] at hnext
  exact ⟨fun hf => absurd (hf.symm.trans hr) (by decide), h.desc, h.filled,
    fun _ => ⟨_, Nat.mod_lt _ (pos.zero_le.trans_lt hpos), hnext⟩⟩

/-- Every effect of an agent's own step keeps the sequencer's invariant: `START` arms, `STOP` disarms, a slot moves all lanes, a body
re-points in the window of a running block. -/
theorem Effect.sequencing (he : Effect s i t) (hi : isAgentStep i = true) (hv : s.cfg.valid = true) (hf : FlagsFollowRun s)
    (h : Sequencing s) : Sequencing t := by
  cases he with
  | stutter => exact h
  | answer => exact ⟨h.stopped, h.desc, h.filled, h.lanes⟩
  | start _ _ hb =>
    rw [startBlock_of hv] at hb
    cases hb
    exact started_sequencing hv
  | stop => exact .of_idle rfl rfl rfl
  | load l d hn _ => exact absurd hi (by simp [hn])
  | chain => cases hi
  | encode => cases hi
  | build => cases hi
  | slot m hen hm => exact h.slot hv hen hm
  | enter _ =>
    refine h.congr ?_ ?_ ?_ ?_ ?_ fun _ _ _ hw => ?_
    case refine_6 => rwa [enterTick_eq]
    all_goals simp
  | @body c u hen hb =>
    simp only [tickBodyEnabled, Bool.and_eq_true] at hen
    obtain ⟨hpoll, hw⟩ := hen
    have hr : s.run = true := by
      cases hrun : s.run with
      | true => rfl
      | false => rw [hf.polling hrun] at hpoll; cases hpoll
    have hpoint : Sequencing (pointAll c u) :=
      (hb.sequencing h).point c (by rw [hb.frame]; exact hv) (by rw [hb.frame]; exact hr)
        (by rw [windowOpen_congr (s := s) (by rw [hb.frame])]; exact hw)
    refine hpoint.congr ?_ ?_ ?_ ?_ ?_ fun _ _ _ hw => ?_
    case refine_6 => rwa [leaveTick_eq]
    all_goals simp

/-- The reset input disarms; no other action from outside reaches the sequencer. -/
theorem Outside.sequencing (he : Outside s a t) (h : Sequencing s) : Sequencing t := by
  cases he with
  | reset => exact .of_idle rfl rfl rfl
  | _ => exact ⟨h.stopped, h.desc, h.filled, h.lanes⟩

/-- A step keeps the flags in step with `RUN`. -/
theorem step_flags (h : step s = .next t) (hf : FlagsFollowRun s) : FlagsFollowRun t :=
  step_keeps (P := FlagsFollowRun) (fun _ => ⟨hf.outEn, hf.irqEn, hf.irqPend, hf.polling⟩) (fun _ _ _ _ hp he => he.flags hp)
    (fun _ _ _ hp he => he.flags hp) h

/-- Settles O53: with the flags in step beside it, the sequencer's invariant is kept by every agent's effect and every action from outside. -/
theorem stepKeepsLanesInStep : Obligations.StepKeepsLanesInStep := by
  intro s t ha hf h hst
  have pop : ∀ es, FlagsFollowRun { s with sched := es } ∧ Sequencing { s with sched := es } := fun es =>
    ⟨⟨hf.outEn, hf.irqEn, hf.irqPend, hf.polling⟩, ⟨h.stopped, h.desc, h.filled, h.lanes⟩⟩
  have keeps := step_keeps (P := fun u => FlagsFollowRun u ∧ Sequencing u) pop
    (fun _ _ hi hv hp he => ⟨he.flags hp.1, he.sequencing (hi ha) hv hp.1 hp.2⟩)
    (fun _ _ _ hp he => ⟨he.flags hp.1, he.sequencing hp.2⟩) hst
  exact ⟨step_agentsOnly hst ha, keeps.2⟩

/-! ### A running block -/

/-- A running block of the invariants can take a slot: its flags are set and every lane has a segment (R39, R160). -/
theorem slotEnabled_of_running (hf : FlagsFollowRun s) (hr : s.run = true) {pos : Nat} (hl : LanesAt s pos) : slotEnabled s = true :=
  slotEnabled_iff.mpr ⟨hr, hf.outEn.trans hr, fun l => by
    obtain ⟨k, i, n, ⟨d, p, -, -, hg, -⟩, -⟩ := hl l
    rw [hg]
    rfl⟩

/-- Settles O55: the slot of three lanes in step completes and appends their words. -/
theorem runningBlockAlwaysSends : Obligations.RunningBlockAlwaysSends := by
  intro s hv hf h hr
  obtain ⟨pos, hpos, hl⟩ := h.lanes hr
  obtain ⟨m, -, hexec, -⟩ := seqSlot_line hv (slotEnabled_of_running hf hr hl) (h.desc hr) (h.filled hr) hl hpos
  exact ⟨_, _, hexec, rfl⟩

end Sys2Proof.Machine
end

section
/-! The family of the state, third part: which effect writes which state (O14, O47), and the two predicates on registers and memory that
every step keeps (O51, O52). -/

namespace Sys2Proof.Machine

variable {s t u : State} {i : Instr} {a : EnvAction}

/-! ### Who writes what -/

/-- Settles O14: no effect of an action from outside but the reset input's reaches what the block owns. -/
theorem outsideWritesNoBlockState : Obligations.OutsideWritesNoBlockState :=
  fun _ _ _ ha h => (envStep_outside h).frame ha

/-- ScanState is written by `START` and `TICK_BODY` only (R24). -/
theorem Effect.scan (h : Effect s i t) (h1 : i ≠ .start) (h2 : i ≠ .tickBody) :
    t.line = s.line ∧ t.frame = s.frame ∧ t.bufIdx = s.bufIdx := by
  cases h with
  | start => exact absurd rfl h1
  | body => exact absurd rfl h2
  | encode k => rw [encodeLine_frame]; exact ⟨rfl, rfl, rfl⟩
  | enter => simp
  | _ => exact ⟨rfl, rfl, rfl⟩

/-- The line buffers are written by `START`, `ENCODE_LINE` and `TICK_BODY` only (R31). -/
theorem Effect.lineBuf (h : Effect s i t) (h1 : i ≠ .start) (h2 : i ≠ .tickBody) (h3 : ∀ y b, i ≠ .encodeLine y b) :
    t.lineBuf = s.lineBuf := by
  cases h with
  | start => exact absurd rfl h1
  | body => exact absurd rfl h2
  | encode k => exact absurd rfl (h3 _ _)
  | enter => simp
  | _ => rfl

/-- The descriptors are written by `START` and `BUILD_CHAINS` only (R32). -/
theorem Effect.desc (h : Effect s i t) (h1 : i ≠ .start) (h2 : i ≠ .buildChains) : t.desc = s.desc := by
  cases h with
  | start => exact absurd rfl h1
  | build => exact absurd rfl h2
  | body _ hb => rw [leaveTick_desc, pointAll_desc, hb.frame]
  | encode k => rw [encodeLine_frame]
  | enter => simp
  | _ => rfl

/-- A notification is raised by a slot and by nothing else (R224). -/
theorem Effect.irqPend (h : Effect s i t) (ht : t.irqPend = true) : s.irqPend = true ∨ i = .seqSlot := by
  cases h with
  | slot => exact .inr rfl
  | start _ _ hb => rw [startBlock_ok hb] at ht; cases ht
  | stop => cases ht
  | body _ hb => rw [leaveTick_irqPend, pointAll_irqPend, hb.frame] at ht; exact .inl ht
  | encode k => rw [encodeLine_frame] at ht; exact .inl ht
  | enter => rw [enterTick_irqPend] at ht; cases ht
  | _ => exact .inl ht

/-- `REQ` is only ever acknowledged (R25). -/
theorem Effect.req (h : Effect s i t) : t.req = s.req ∨ t.req = 0#2 := by
  cases h with
  | start _ _ hb => rw [startBlock_ok hb]; exact .inr rfl
  | stop => exact .inr rfl
  | body _ hb => rw [leaveTick_req, pointAll_req, hb.frame]; exact .inl rfl
  | encode k => rw [encodeLine_frame]; exact .inl rfl
  | enter => exact .inl (enterTick_req s)
  | _ => exact .inl rfl

/-- The output grows by one word slot in a slot, and is emptied by `START` (R14; log 8). -/
theorem Effect.out (h : Effect s i t) :
    t.out = s.out ∨ (i = .start ∧ t.out = []) ∨ (i = .seqSlot ∧ ∃ w, t.out = s.out ++ [w]) := by
  cases h with
  | start _ _ hb => rw [startBlock_ok hb]; exact .inr (.inl ⟨rfl, rfl⟩)
  | slot m => exact .inr (.inr ⟨rfl, _, rfl⟩)
  | body _ hb => rw [leaveTick_out, pointAll_out, hb.frame]; exact .inl rfl
  | encode k => rw [encodeLine_frame]; exact .inl rfl
  | enter => exact .inl (enterTick_out s)
  | _ => exact .inl rfl

/-- A body leaves `XFORM` as it found it, its `ENCODE_LINE` too (R138). -/
theorem Body.xform {c : Cat} (h : Body s c u) : u.xform = s.xform := by rw [h.frame]

/-- `XFORM` is as before after every operation (R138). -/
theorem Effect.xform (h : Effect s i t) : t.xform = s.xform := by
  cases h with
  | start _ _ hb => rw [startBlock_ok hb]; rfl
  | body _ hb => rw [leaveTick_xform, pointAll_xform, hb.xform]
  | encode k => rw [encodeLine_frame]
  | enter => simp
  | _ => rfl

/-- A body with no host store inside its `ENCODE_LINE` leaves the framebuffer (R61, R140). -/
theorem Body.mem_noStores {c : Cat} (h : Body s c u) (hn : noStores (planOf s)) : u.mem = s.mem := by
  cases h with
  | encode y _ _ => exact encodeLine_mem_noStores y _ (s := advanceLine s) hn
  | _ => rfl

/-- No operation writes the framebuffer (R61); a host store inside an `ENCODE_LINE` does. -/
theorem Effect.mem_noStores (h : Effect s i t) (hn : noStores (planOf s)) : t.mem = s.mem := by
  cases h with
  | start _ _ hb => rw [startBlock_ok hb]; rfl
  | body _ hb => rw [leaveTick_mem, pointAll_mem, hb.mem_noStores hn]
  | encode k => exact encodeLine_mem_noStores _ k hn
  | enter => simp
  | _ => rfl

/-- Settles O47, one clause per piece of state. -/
theorem onlyTheNamedOperationsWrite : Obligations.OnlyTheNamedOperationsWrite := by
  intro i s t h
  have he := exec_effect h
  exact ⟨he.scan, he.lineBuf, he.desc, he.irqPend, he.req, he.out, he.xform, exec_cfg h, he.mem_noStores⟩

/-! ### The canonical form -/

theorem Canonical.writeBytes (h : Canonical s) (x : Addr) (bs : List Byte) :
    Canonical { s with mem := Memory.writeBytes s.mem x bs } :=
  ⟨Memory.wf_writeBytes bs x h.mem, h.lineBuf⟩

/-- Another agent's store inside an `ENCODE_LINE` keeps the canonical form, its accesses to `XFORM` do not meet it. -/
theorem Canonical.foreignAct (h : Canonical s) (e : EncAct) : Canonical (foreignAct e s) := by
  cases e with
  | store x bs =>
    unfold Machine.foreignAct
    dsimp only
    split_ifs
    · exact h
    · exact h.writeBytes x bs
  | _ => exact ⟨h.mem, h.lineBuf⟩

/-- The acts of an `ENCODE_LINE`, in any order and with any accesses between them, keep the canonical form. -/
theorem Canonical.runActs (y : Nat) (b : Buf) : ∀ (acts : List EncAct) (done : List (Lane × Nat)) {s : State}, Canonical s →
    Canonical (runActs y b acts done s)
  | [], _, _, h => h
  | .pair l j :: rest, done, s, h => by
    rw [runActs_pair]
    split_ifs
    · exact Canonical.runActs y b rest done h
    · exact Canonical.runActs y b rest _ (s := encodePair y b l j s) ⟨h.mem, sorted_writeLineWord l b j _ h.lineBuf⟩
  | .store x bs :: rest, done, _, h => Canonical.runActs y b rest done (h.foreignAct (.store x bs))
  | .xformRead :: rest, done, _, h => Canonical.runActs y b rest done (h.foreignAct .xformRead)
  | .xformWrite v :: rest, done, _, h => Canonical.runActs y b rest done (h.foreignAct (.xformWrite v))

theorem Canonical.encodeLine (h : Canonical s) (y : Nat) (b : Buf) : Canonical (encodeLine y b s) :=
  
  have hrun := Canonical.runActs y b (encodeActs s) [] (s := beginEncode s) ⟨h.mem, h.lineBuf⟩
  ⟨hrun.mem, hrun.lineBuf⟩

/-- The buffers `START` fills are in canonical form (R201). -/
theorem sorted_fillLineBufs (w : Word) (s : State) (l : Lane) (b : Buf) :
    Assoc.sorted (((fillLineBufs w s).lineBuf.get l).get b) = true := by
  rw [fillLineBufs_lineBuf, LaneMap.get_const]
  cases b <;> exact sorted_filledWords _ _

theorem Body.canonical {c : Cat} (hb : Body s c u) (h : Canonical s) : Canonical u := by
  cases hb with
  | encode y _ _ => exact Canonical.encodeLine (s := advanceLine s) ⟨h.mem, h.lineBuf⟩ y _
  | _ => exact ⟨h.mem, h.lineBuf⟩

theorem Effect.canonical (he : Effect s i t) (h : Canonical s) : Canonical t := by
  cases he with
  | start _ _ hb =>
    rw [startBlock_ok hb]
    exact ⟨h.mem, sorted_fillLineBufs _ s⟩
  | encode k => exact h.encodeLine _ k
  | enter =>
    rw [enterTick_eq]
    exact ⟨h.mem, h.lineBuf⟩
  | body _ hb =>
    rw [leaveTick_eq]
    obtain ⟨hmem, hbuf⟩ := hb.canonical h
    exact ⟨hmem, hbuf⟩
  | _ => exact ⟨h.mem, h.lineBuf⟩

theorem Outside.canonical (he : Outside s a t) (h : Canonical s) : Canonical t := by
  cases he with
  | store x bs => exact h.writeBytes x bs
  | reset => exact ⟨h.mem, fun l b => by cases l <;> cases b <;> rfl⟩
  | _ => exact ⟨h.mem, h.lineBuf⟩

/-- Settles O51: every operation's effect and every action from outside keeps the canonical form. -/
theorem stepKeepsCanonicalForm : Obligations.StepKeepsCanonicalForm := fun _ _ h hst =>
  step_keeps (P := Canonical) (fun _ => ⟨h.mem, h.lineBuf⟩) (fun _ _ _ _ hp he => he.canonical hp) (fun _ _ _ hp he => he.canonical hp) hst

/-! ### The registers -/

/-- The advanced line counter is a line of the frame, and fits `LINE` (R21, R185). -/
theorem nextLine_lt (hv : s.cfg.valid = true) (h : s.line.toNat < s.cfg.vTotal) :
    (BitVec.ofNat 16 (nextLine s)).toNat < s.cfg.vTotal := by
  obtain ⟨-, -, -, -, hmax⟩ := Cfg.valid_vert hv
  have hn : nextLine s < s.cfg.vTotal := by
    unfold nextLine
    split_ifs <;> omega
  rw [BitVec.toNat_ofNat]
  exact (Nat.mod_le _ _).trans_lt hn

theorem vTotal_pos (hv : s.cfg.valid = true) : 0 < s.cfg.vTotal := by
  obtain ⟨h, -⟩ := Cfg.valid_vert hv
  unfold Cfg.vTotal
  omega

/-- A body advances `LINE` inside the frame and leaves `REQ` and `XFORM`. -/
theorem Body.registers {c : Cat} (hb : Body s c u) (hv : s.cfg.valid = true) (h : RegistersLegal s) : RegistersLegal u := by
  cases hb with
  | encode y _ _ =>
    rw [encodeLine_frame]
    exact ⟨h.req, nextLine_lt hv h.line, h.xform, h.xform⟩
  | _ => exact ⟨h.req, nextLine_lt hv h.line, h.xform, h.xformSave⟩

theorem Effect.registers (he : Effect s i t) (hv : s.cfg.valid = true) (h : RegistersLegal s) : RegistersLegal t := by
  cases he with
  | start _ _ hb =>
    rw [startBlock_ok hb]
    exact ⟨(by decide : (0#2 : BitVec 2) ≠ 3#2), vTotal_pos hv, h.xform, h.xformSave⟩
  | stop => exact ⟨(by decide : (0#2 : BitVec 2) ≠ 3#2), h.line, h.xform, h.xformSave⟩
  | encode k =>
    rw [encodeLine_frame]
    exact ⟨h.req, h.line, h.xform, h.xform⟩
  | enter =>
    rw [enterTick_eq]
    exact ⟨h.req, h.line, h.xform, h.xformSave⟩
  | body _ hb =>
    rw [leaveTick_eq]
    obtain ⟨hreq, hline, hxform, hsave⟩ := hb.registers hv h
    exact ⟨hreq, hline, hxform, hsave⟩
  | _ => exact ⟨h.req, h.line, h.xform, h.xformSave⟩

theorem Outside.registers (he : Outside s a t) (hv : s.cfg.valid = true) (h : RegistersLegal s) : RegistersLegal t := by
  cases he with
  | request _ _ hr => exact ⟨hr, h.line, h.xform, h.xformSave⟩
  | xform v => exact ⟨h.req, h.line, Nat.mod_lt _ (Nat.two_pow_pos _), h.xformSave⟩
  | reset => exact ⟨(by decide : (0#2 : BitVec 2) ≠ 3#2), vTotal_pos hv, Nat.two_pow_pos _, Nat.two_pow_pos _⟩
  | _ => exact ⟨h.req, h.line, h.xform, h.xformSave⟩

/-- Settles O52; the flags do not need the registers. -/
theorem stepKeepsRegistersAndFlagsLegal : Obligations.StepKeepsRegistersAndFlagsLegal := fun _ _ h hf hst =>
  ⟨step_keeps (P := RegistersLegal) (fun _ => ⟨h.req, h.line, h.xform, h.xformSave⟩) (fun _ _ _ hv hp he => he.registers hv hp)
    (fun _ _ hv hp he => he.registers hv hp) hst, step_flags hst hf⟩

end Sys2Proof.Machine
end

section
/-! The family of the state, fourth part: what the host and the others outside read and write (O6, O7, O8, O60), the window of a line
(O34), what `START` and `STOP` leave (O44, O45), and the state after reset (O46, O54). -/

namespace Sys2Proof.Machine

variable {s t : State}

/-! ### The registers on the bus -/

/-- `STATUS` as the sum of its bits (R26). -/
theorem statusWord_toNat (s : State) : (statusWord s).toNat = s.run.toNat + 2 * s.outEn.toNat + 4 * s.irqEn.toNat +
    8 * s.irqPend.toNat + 16 * s.bufIdx.num + 32 * s.polling.toNat := by
  have hbuf : (s.bufIdx == .buf1).toNat = s.bufIdx.num := by cases s.bufIdx <;> rfl
  unfold statusWord
  simp only [toNat_append, BitVec.toNat_ofBool, BitVec.toNat_ofNat, hbuf]
  omega

/-- The offsets past the six registers read as zero (R29). -/
theorem readReg_unused {off : Nat} (h : 0x18 ≤ off) : readReg off s = { s with result := .word 0#32 } := by
  unfold readReg
  split
  case h_7 => rfl
  all_goals omega

/-- A write to an offset other than `REQ`'s is ignored (R29). -/
theorem writeReg_ignored {off : Nat} (w : Word) (h : off ≠ 0) : writeReg off w s = .next s := by
  unfold writeReg
  split
  · exact absurd rfl h
  · rfl

/-- Settles O6: a read answers `statusWord`, a sum of six bits, and a write is to a read-only offset. -/
theorem statusBits : Obligations.StatusBits := by
  intro s hb _
  exact ⟨⟨statusWord s, busRead_reg (off := 4) hb rfl (by omega), statusWord_toNat s⟩,
    fun b0 b1 b2 b3 => (busWrite_reg (off := 4) b0 b1 b2 b3 hb rfl (by omega)).trans (writeReg_ignored _ (by omega))⟩

/-- A diagnostics register answers zero without `DIAG_EN`; with it a value is drawn (R28). -/
theorem readDiag_answers (w : Word) (s : State) : ∃ v, readDiag w s =
    { s with result := .word v, freeCount := if s.cfg.diagEn = true then s.freeCount + 1 else s.freeCount } ∧
      (s.cfg.diagEn = false → v = 0#32) := by
  unfold readDiag
  by_cases hd : s.cfg.diagEn = true
  · simp only [if_pos hd]
    exact ⟨_, rfl, fun h => absurd (h.symm.trans hd) (by decide)⟩
  · simp only [if_neg hd]
    exact ⟨_, rfl, fun _ => rfl⟩

/-- Settles O7: the six registers one by one, then the unused offsets. -/
theorem registerReadsFollowTheMap : Obligations.RegisterReadsFollowTheMap := by
  intro s n hb hn
  simp only [envStep, busRead_reg hb (off := 4 * n) (by omega) (by omega), Host.Outcome.next.injEq]
  match n with
  | 0 => exact ⟨s.req.setWidth 32, by simp [readReg], by simp; omega, by simp⟩
  | 1 => exact ⟨statusWord s, by simp [readReg], by simp⟩
  | 2 => exact ⟨s.line.setWidth 32, by simp [readReg], by simp, by simp, by simp; omega, by simp⟩
  | 3 => exact ⟨s.frame, by simp [readReg], by simp⟩
  | 4 =>
    obtain ⟨v, hv, h0⟩ := readDiag_answers s.diagEntry s
    exact ⟨v, by simpa [readReg] using hv, by simpa using h0⟩
  | 5 =>
    obtain ⟨v, hv, h0⟩ := readDiag_answers s.diagExit s
    exact ⟨v, by simpa [readReg] using hv, by simpa using h0⟩
  | k + 6 => exact ⟨0#32, by rw [readReg_unused (by omega)]; simp, by simp⟩

/-- Settles O8: only offset 0 takes a write. -/
theorem readOnlyRegistersIgnoreWrites : Obligations.ReadOnlyRegistersIgnoreWrites := by
  intro s n b0 b1 b2 b3 hb h1 hn
  exact (busWrite_reg b0 b1 b2 b3 hb (off := 4 * n) (by omega) (by omega)).trans (writeReg_ignored _ (by omega))

/-- Settles O60: the bytes are `Memory.readBytes`; the two accesses to `XFORM` hold by definition. -/
theorem outsideReadsAnswerAndXformIsWritten : Obligations.OutsideReadsAnswerAndXformIsWritten := by
  intro s
  refine ⟨fun a n hreg => ⟨Memory.readBytes s.mem a n, ?_, Memory.readBytes_length _ _ _, Memory.readBytes_getElem _ _ _⟩, rfl, fun _ => rfl⟩
  simp only [envStep, busRead, hreg]
  rfl

/-! ### The window -/

/-- The remaining count of a lane in segment `i` of its ring (R34): the fetches left until the pointer is back at index 0. -/
theorem LaneInSegment.fetchRem {l : Lane} {k : Cat} {i n : Nat} (hv : s.cfg.valid = true) (h : LaneInSegment s l k i n) :
    fetchRem s l = some (l.nseg - (i + 1)) := by
  have hi := (h.bounds hv).1
  obtain ⟨d, p, hd, -, hg, hp, hidx, -⟩ := h
  have hring : d.ring = l.ring := (lineDescs_legal hv (List.mem_of_getElem? hd)).2.2.1
  simp only [Machine.fetchRem, hg, hp, segOf, hring, Lane.ring_pow, hidx, Option.some.injEq]
  rcases (by omega : i + 1 = l.nseg ∨ i + 1 < l.nseg) with he | hlt
  · rw [he]; simp
  · rw [Nat.mod_eq_of_lt hlt, Nat.mod_eq_of_lt (by omega)]

/-- A lane's count is 0 exactly where its pointer is at index 0 (R163). -/
theorem LaneInSegment.fetchRem_zero {l : Lane} {k : Cat} {i n : Nat} (hv : s.cfg.valid = true) (h : LaneInSegment s l k i n) :
    Machine.fetchRem s l = some 0 ↔ ∃ k', s.rdptr.get l = some ⟨k', 0#2⟩ := by
  have hi := (h.bounds hv).1
  rw [h.ptr_zero hi, h.fetchRem hv, Option.some.injEq]
  omega

/-- Settles O34: the counts are read off each lane's segment, and only the last segment is in the window. -/
theorem windowIsTheActiveWidth : Obligations.WindowIsTheActiveWidth := by
  intro s pos hv _ hl
  have zero : ∀ l, fetchRem s l = some 0 ↔ ∃ k, s.rdptr.get l = some ⟨k, 0#2⟩ := fun l => by
    obtain ⟨k, i, n, h, -⟩ := hl l
    exact h.fetchRem_zero hv
  have window : (∀ l, fetchRem s l = some 0) ↔ windowOpen s = true := (forall_congr' zero).trans windowOpen_iff.symm
  have before : pos < s.cfg.hFront + s.cfg.hSync + s.cfg.hBack →
      ∀ l, ∃ i, i + 1 < l.nseg ∧ fetchRem s l = some (l.nseg - (i + 1)) := fun hpos l => by
    obtain ⟨k, i, n, h, hat⟩ := hl l
    obtain ⟨hi, -⟩ := h.bounds hv
    rw [segStart_eq hv hi] at hat
    have hlast := (last_iff hv h).not.mpr (by omega)
    exact ⟨i, by omega, h.fetchRem hv⟩
  refine ⟨zero, window.trans (windowOpen_lanes hv hl), window, fun hpos => ?_⟩
  obtain ⟨i0, h0, e0⟩ := before hpos .lane0
  obtain ⟨i1, h1, e1⟩ := before hpos .lane1
  obtain ⟨i2, h2, e2⟩ := before hpos .lane2
  rw [e0, e1, e2]
  simp only [Lane.nseg, Option.some.injEq] at h0 h1 h2 ⊢
  omega

/-! ### Start and stop -/

/-- The descriptor `START` fetches on each lane is the first of the built `BLANK` ring (R165). -/
theorem readDesc_started (s : State) (l : Lane) :
    readDesc (started s) l ⟨.blank, 0#2⟩ = some (encodeDesc (firstDesc s.cfg l)) := by
  rw [readDesc_built (s := started s) rfl]
  exact congrArg (Option.map encodeDesc) (firstDesc_get s.cfg l)

/-- Settles O44, from the state `started`. -/
theorem startLeavesTheArmedBlock : Obligations.StartLeavesTheArmedBlock := by
  intro s hv hq hr
  have hexec : exec .start s = .next (started s) := by
    simp [exec, execStart, hq, hr, startBlock_of hv, outcomeOf]
  have hfill : ∀ l b j, j < s.cfg.hActive → readLineWord (started s) l b j = some s.cfg.ctrlSym[4] := fun l b j hj =>
    (readLineWord_fill s (fillWord s.cfg) l b j).trans (if_pos hj)
  have hbuild : exec .buildChains s = .next { s with desc := (started s).desc } := by
    rw [exec, execBuildChains, if_neg (by simp [hr])]
    rfl
  have hcur : ∀ l, ∃ w d, readDesc (started s) l ⟨.blank, 0#2⟩ = some w ∧ decodeDesc w = .ok d ∧
      (started s).cur.get l = some ⟨d.kind, d.sel, d.count.toNat, 0, d.irq, d.ring⟩ := fun l => by
    have hlegal := lineDescs_legal hv (List.mem_of_getElem? (firstDesc_get s.cfg l))
    exact ⟨_, firstDesc s.cfg l, readDesc_started s l, decodeDesc_encodeDesc _ hlegal.2.2.2, by cases l <;> rfl⟩
  exact ⟨started s, hexec, rfl, rfl, rfl, hfill, hbuild, hcur, fun l => LaneMap.get_const _ l, rfl, rfl, rfl, rfl, rfl, rfl, rfl⟩

/-- Settles O45: the guard of `STOP` is met, and the rest is `stopBlock`. -/
theorem stopLeavesTheIdleBlock : Obligations.StopLeavesTheIdleBlock := by
  intro s hq hr hpoll hpend
  have hallowed : stopAllowed s = true := stopAllowed_iff.mpr ⟨hpoll, hpend⟩
  have hexec : exec .stop s = .next (stopBlock s) := by simp [exec, execStop, hq, hr, hallowed]
  exact ⟨stopBlock s, hexec, rfl, fun l => ⟨LaneMap.get_const _ l, LaneMap.get_const _ l⟩, rfl, rfl, hpoll, rfl, rfl, rfl⟩

/-! ### Reset -/

/-- The block as R38 leaves it: what power-on and the reset input have in common. -/
structure Idle (t : State) : Prop where
  registers : t.req = 0#2 ∧ t.run = false ∧ t.outEn = false ∧ t.irqEn = false ∧ t.irqPend = false ∧ t.polling = false ∧
    t.line = 0#16 ∧ t.frame = 0#32 ∧ t.bufIdx = .buf0
  lanes : ∀ l, t.cur.get l = none ∧ t.rdptr.get l = none
  words : ∀ l b j, readLineWord t l b j = none
  descs : ∀ l p, readDesc t l p = none

theorem readLineWord_resetWith (c : Cfg) (l : Lane) (b : Buf) (j : Nat) : readLineWord (State.resetWith c) l b j = none := by
  cases l <;> cases b <;> rfl

theorem readDesc_resetWith (c : Cfg) (l : Lane) (p : Ptr) : readDesc (State.resetWith c) l p = none := by
  obtain ⟨k, i⟩ := p
  cases l <;> cases k <;> exact Ring.get_unwritten i

theorem resetWith_idle (c : Cfg) : Idle (State.resetWith c) where
  registers := ⟨rfl, rfl, rfl, rfl, rfl, rfl, rfl, rfl, rfl⟩
  lanes := fun l => ⟨LaneMap.get_const _ l, LaneMap.get_const _ l⟩
  words := readLineWord_resetWith c
  descs := readDesc_resetWith c

theorem resetBlock_idle (s : State) : Idle (resetBlock s) :=
  ⟨(resetWith_idle s.cfg).registers, (resetWith_idle s.cfg).lanes, (resetWith_idle s.cfg).words, (resetWith_idle s.cfg).descs⟩

/-- A fetch from a place never written faults (R38). -/
theorem fetchLane_unwritten {l : Lane} (h : ∀ p, readDesc s l p = none) : fetchLane l s = .error .uninit := by
  unfold fetchLane fetchDescriptor
  cases s.rdptr.get l with
  | none => rfl
  | some p => simp only [h p]

/-- Settles O46: both resets leave an `Idle` block, whose fetches all meet a place never written. -/
theorem resetLeavesTheIdleBlock : Obligations.ResetLeavesTheIdleBlock := by
  intro s t ht
  have hidle : Idle t := by
    rcases ht with ⟨c, rfl⟩ | h
    · exact resetWith_idle c
    · cases h
      exact resetBlock_idle s
  obtain ⟨⟨h1, h2, h3, h4, h5, h6, h7, h8, h9⟩, hl, hw, hd⟩ := hidle
  exact ⟨h1, h2, h3, h4, h5, h6, h7, h8, h9, hl, hw, hd, fun l p => fetchLane_unwritten (hd l)⟩

/-- The lanes of a block after reset are the sequencer's stopped state. -/
theorem resetWith_sequencing (c : Cfg) : Sequencing (State.resetWith c) := .of_idle rfl rfl rfl

theorem resetWith_flags (c : Cfg) : FlagsFollowRun (State.resetWith c) := ⟨rfl, rfl, fun _ => rfl, fun _ => rfl⟩

/-- After reset no pointer names a ring and no tick is due. -/
theorem resetWith_onTime (c : Cfg) : OnTime (State.resetWith c) where
  flags := resetWith_flags c
  seq := resetWith_sequencing c
  one := fun h => Bool.noConfusion h.1
  ptr := fun l p b hp => by rw [((resetWith_idle c).lanes l).2] at hp; cases hp
  due := fun h => by rcases h with h | h <;> cases h

/-- Settles O54: nothing is written, armed, pending or scheduled after reset. -/
theorem resetMeetsTheInvariants : Obligations.ResetMeetsTheInvariants := by
  intro c hv
  have canonical : Canonical (State.resetWith c) := ⟨Memory.wf_nil, fun l b => by cases l <;> cases b <;> rfl⟩
  have registers : RegistersLegal (State.resetWith c) :=
    ⟨(by decide : (0#2 : BitVec 2) ≠ 3#2), vTotal_pos (s := State.resetWith c) hv, Nat.two_pow_pos _, Nat.two_pow_pos _⟩
  exact ⟨canonical, registers, resetWith_flags c, resetWith_sequencing c, rfl, resetWith_onTime c⟩

end Sys2Proof.Machine
end

section
/-! The family of the state, fifth part: no operation reads `XFORM` or `XFORM_SAVE` but to save and restore them (R35, R138), so that every
operation commutes with putting other values there (O48). -/

namespace Sys2Proof.Machine

/-- The state with other values in `XFORM` and `XFORM_SAVE`. -/
def withXform (x y : Nat) (s : State) : State := { s with xform := x, xformSave := y }

/-- An outcome with other values in `XFORM` and `XFORM_SAVE` of its next state. -/
def outcomeWithXform (x y : Nat) (o : Host.Outcome State Fault Refusal) : Host.Outcome State Fault Refusal :=
  andThen o (fun t => .next (withXform x y t))

variable {x y : Nat} {s : State}

theorem outcomeWithXform_ite (c : Prop) [Decidable c] (a b : Host.Outcome State Fault Refusal) :
    outcomeWithXform x y (if c then a else b) = if c then outcomeWithXform x y a else outcomeWithXform x y b :=
  apply_ite _ c a b

theorem outcomeOf_map (e : Except Fault State) : outcomeOf (e.map (withXform x y)) = outcomeWithXform x y (outcomeOf e) := by
  cases e <;> rfl

/-- Going on commutes with the other values, if what comes after does. -/
theorem andThen_withXform {x' y' : Nat} {o : Host.Outcome State Fault Refusal} {f : State → Host.Outcome State Fault Refusal}
    (hf : ∀ t, f (withXform x y t) = outcomeWithXform x' y' (f t)) :
    andThen (outcomeWithXform x y o) f = outcomeWithXform x' y' (andThen o f) := by
  cases o with
  | next t => exact hf t
  | fault _ => rfl
  | refused _ => rfl

/-! ### The sequencer -/

theorem loadDescriptor_withXform (l : Lane) (d : Descriptor) :
    loadDescriptor l d (withXform x y s) = (loadDescriptor l d s).map (withXform x y) := by
  by_cases hr : d.reserved s.cfg l = true
  · rw [loadDescriptor, loadDescriptor, if_pos hr, if_pos (by exact hr)]
    rfl
  · rw [loadDescriptor, loadDescriptor, if_neg hr, if_neg (by exact hr)]
    rfl

theorem armLane_withXform (l : Lane) : armLane l (withXform x y s) = (armLane l s).map (withXform x y) := by
  have hf : fetchDescriptor (setRdptr l (some ⟨.blank, 0#2⟩) (withXform x y s)) l =
      fetchDescriptor (setRdptr l (some ⟨.blank, 0#2⟩) s) l := fetchDescriptor_congr rfl rfl
  unfold armLane fetchLane
  rw [hf]
  cases fetchDescriptor (setRdptr l (some ⟨.blank, 0#2⟩) s) l with
  | error _ => rfl
  | ok d => exact loadDescriptor_withXform (s := setRdptr l (some ⟨.blank, 0#2⟩) s) l d

theorem armAll_withXform : armAll (withXform x y s) = (armAll s).map (withXform x y) := by
  unfold armAll
  rw [armLane_withXform]
  cases armLane .lane0 s with
  | error _ => rfl
  | ok s0 =>
    simp only [Except.map]
    rw [armLane_withXform]
    cases armLane .lane1 s0 with
    | error _ => rfl
    | ok s1 => exact armLane_withXform .lane2

theorem startBlock_withXform : startBlock (withXform x y s) = (startBlock s).map (withXform x y) := by
  have harm := armAll_withXform (x := x) (y := y) (s := buildChains (resetScan (fillLineBufs (fillWord s.cfg) s)))
  unfold startBlock
  rw [show buildChains (resetScan (fillLineBufs (fillWord (withXform x y s).cfg) (withXform x y s))) =
    withXform x y (buildChains (resetScan (fillLineBufs (fillWord s.cfg) s))) from rfl, harm]
  cases armAll (buildChains (resetScan (fillLineBufs (fillWord s.cfg) s))) <;> rfl

theorem laneSlot_withXform (l : Lane) :
    laneSlot l (withXform x y s) = (laneSlot l s).map (fun p => (p.1, withXform x y p.2)) := by
  rw [laneSlot_eq, laneSlot_eq, laneMove_congr (s := s) (s' := withXform x y s) rfl rfl rfl rfl rfl]
  cases laneMove s l <;> rfl

theorem slotStep_withXform : slotStep (withXform x y s) = (slotStep s).map (withXform x y) := by
  unfold slotStep
  rw [laneSlot_withXform]
  cases laneSlot .lane0 s with
  | error _ => rfl
  | ok p0 =>
    simp only [Except.map]
    rw [laneSlot_withXform]
    cases laneSlot .lane1 p0.2 with
    | error _ => rfl
    | ok p1 =>
      simp only [Except.map]
      rw [laneSlot_withXform]
      cases laneSlot .lane2 p1.2 <;> rfl

/-! ### The encoder -/

theorem foreignAct_xformSave (a : EncAct) (z : Nat) :
    foreignAct a { s with xformSave := z } = { foreignAct a s with xformSave := z } := by
  cases a with
  | store w bs =>
    simp only [foreignAct]
    split <;> rfl
  | _ => rfl

/-- The acts inside an `ENCODE_LINE` do not meet the saved value. -/
theorem runActs_xformSave (n : Nat) (b : Buf) (z : Nat) : ∀ (acts : List EncAct) (done : List (Lane × Nat)) (s : State),
    runActs n b acts done { s with xformSave := z } = { runActs n b acts done s with xformSave := z }
  | [], _, _ => rfl
  | a :: rest, done, s => by
    by_cases ha : ∃ l j, a = .pair l j
    · obtain ⟨l, j, rfl⟩ := ha
      rw [runActs_pair, runActs_pair]
      split_ifs
      · exact runActs_xformSave n b z rest done s
      · exact runActs_xformSave n b z rest _ (encodePair n b l j s)
    · have ha' : ∀ l j, a ≠ .pair l j := fun l j he => ha ⟨l, j, he⟩
      rw [runActs_foreign n b ha', runActs_foreign n b ha', foreignAct_xformSave]
      exact runActs_xformSave n b z rest done (foreignAct a s)

/-- An `ENCODE_LINE` saves the value it finds, works on `ENC_XFORM`, and restores (R138). -/
theorem encodeLine_withXform (n : Nat) (b : Buf) : encodeLine n b (withXform x y s) = withXform x x (encodeLine n b s) := by
  rw [encodeLine_eq, encodeLine_eq, show encodeActs (withXform x y s) = encodeActs s from rfl,
    show beginEncode (withXform x y s) = { beginEncode s with xformSave := x } from rfl, runActs_xformSave]
  rfl

theorem execEncodeLine_withXform (n m : Nat) :
    execEncodeLine n m (withXform x y s) = outcomeWithXform x x (execEncodeLine n m s) := by
  unfold execEncodeLine
  cases bufOfNat m with
  | none => rfl
  | some k =>
    simp only [encodeLine_withXform, outcomeWithXform_ite]
    rfl

/-! ### The tick -/

theorem enterTick_withXform : enterTick (withXform x y s) = withXform x y (enterTick s) := by
  unfold enterTick withXform
  dsimp only
  split <;> rfl

theorem leaveTick_withXform : leaveTick (withXform x y s) = withXform x y (leaveTick s) := by
  unfold leaveTick withXform
  dsimp only
  split <;> rfl

theorem chainAndLeave_withXform (c : Cat) : chainAndLeave c (withXform x y s) = outcomeWithXform x y (chainAndLeave c s) := by
  have hchain : execChain c (withXform x y s) = outcomeWithXform x y (execChain c s) := by
    simp only [execChain, outcomeWithXform_ite]
    rfl
  rw [chainAndLeave, hchain]
  exact andThen_withXform fun t => congrArg Host.Outcome.next leaveTick_withXform

/-- The Active band's part of the body: where it encodes, both values are the `XFORM` it found. -/
theorem activeLine_withXform (p : Nat) :
    ∃ z, activeLine p (withXform x y s) = outcomeWithXform x z (activeLine p s) := by
  unfold activeLine
  by_cases hp : p % 2 = 0
  · refine ⟨x, ?_⟩
    rw [if_pos hp, if_pos hp, execEncodeLine_withXform]
    exact andThen_withXform fun t => chainAndLeave_withXform _
  · refine ⟨y, ?_⟩
    rw [if_neg hp, if_neg hp]
    exact chainAndLeave_withXform (s := toggleBuf s) _

theorem bodyOfLine_withXform (n : Nat) :
    ∃ z, bodyOfLine n (withXform x y s) = outcomeWithXform x z (bodyOfLine n s) := by
  unfold bodyOfLine
  rw [show (withXform x y s).cfg = s.cfg from rfl]
  cases classifyLine s.cfg n with
  | vsync => exact ⟨y, chainAndLeave_withXform _⟩
  | blanking => exact ⟨y, chainAndLeave_withXform _⟩
  | active => exact activeLine_withXform _

theorem execTickBody_withXform : ∃ z, execTickBody (withXform x y s) = outcomeWithXform x z (execTickBody s) := by
  unfold execTickBody
  by_cases he : tickBodyEnabled s = true
  · rw [if_pos he, if_pos (by exact he)]
    exact bodyOfLine_withXform (s := advanceLine s) _
  · rw [if_neg he, if_neg (by exact he)]
    exact ⟨y, rfl⟩

/-! ### Every operation -/

/-- Every operation commutes with other values in `XFORM` and `XFORM_SAVE`, up to the value an `ENCODE_LINE` leaves in the latter. -/
theorem exec_withXform (i : Instr) (x y : Nat) (s : State) :
    ∃ z, exec i (withXform x y s) = outcomeWithXform x z (exec i s) := by
  cases i with
  | start =>
    refine ⟨y, ?_⟩
    simp only [exec, execStart, startBlock_withXform, outcomeOf_map, outcomeWithXform_ite]
    rfl
  | stop =>
    refine ⟨y, ?_⟩
    simp only [exec, execStop, outcomeWithXform_ite]
    rfl
  | segPat l sel count ring irq =>
    exact ⟨y, (congrArg outcomeOf (loadDescriptor_withXform l ⟨.pat, sel, count, ring, irq⟩)).trans (outcomeOf_map _)⟩
  | segBuf l b count ring irq =>
    exact ⟨y, (congrArg outcomeOf (loadDescriptor_withXform l ⟨.buf, b.sel, count, ring, irq⟩)).trans (outcomeOf_map _)⟩
  | chain c =>
    refine ⟨y, ?_⟩
    simp only [exec, execChain, outcomeWithXform_ite]
    rfl
  | ctrlsym k =>
    refine ⟨y, ?_⟩
    simp only [exec, execCtrlsym, show (withXform x y s).cfg = s.cfg from rfl]
    cases ctrlSym? s.cfg k <;> rfl
  | datasym _ => exact ⟨y, rfl⟩
  | laneExtract _ _ => exact ⟨y, rfl⟩
  | index6 _ _ => exact ⟨y, rfl⟩
  | pack2 _ _ => exact ⟨y, rfl⟩
  | encodeLine n m => exact ⟨x, execEncodeLine_withXform n m⟩
  | buildChains =>
    refine ⟨y, ?_⟩
    simp only [exec, execBuildChains, outcomeWithXform_ite]
    rfl
  | seqSlot =>
    refine ⟨y, ?_⟩
    simp only [exec, execSeqSlot, slotStep_withXform, outcomeOf_map, outcomeWithXform_ite]
    rfl
  | tickEnter =>
    refine ⟨y, ?_⟩
    simp only [exec, execTickEnter, enterTick_withXform, outcomeWithXform_ite]
    rfl
  | tickBody => exact execTickBody_withXform
  | classify _ => exact ⟨y, rfl⟩

/-- Settles O48. The premise on reads inside an `ENCODE_LINE` is not needed: such a read sees `ENC_XFORM` or what another agent wrote. -/
theorem noResultDependsOnXform : Obligations.NoResultDependsOnXform := by
  intro i s x y _
  obtain ⟨z, hz⟩ := exec_withXform i x y s
  rw [show { s with xform := x, xformSave := y } = withXform x y s from rfl, hz]
  cases exec i s <;> exact rfl

end Sys2Proof.Machine
end

section
/-! The family of the memory: the on-time invariant of a run and the double buffering it gives (O58, O59), torn reads of an `ENCODE_LINE`
(O22), host accesses to the framebuffer and to the register block (O9, O12), and byte order (O13). -/

namespace Sys2Proof.Machine

variable {s t u : State}

/-! ### The on-time invariant, lane by lane -/

/-- A lane in the last segment of an `ACTIVE` line sends that line's buffer (R152, R153, R156). -/
theorem LaneInSegment.sends_buffer {l : Lane} {b : Buf} {i n : Nat} (h : LaneInSegment s l (Cat.active b) i n)
    (hi : i + 1 = l.nseg) : ∃ g, s.cur.get l = some g ∧ g.kind = .buf ∧ g.sel = b.sel := by
  obtain ⟨d, p, hd, -, hg, -⟩ := h
  have hlast : d = lastDesc s.cfg l (Cat.active b) := by
    cases l <;> cases hi <;> cases hd <;> rfl
  subst hlast
  exact ⟨_, hg, by cases b <;> rfl, by cases b <;> rfl⟩

/-- An `ACTIVE` line names `BUFIDX`'s buffer before its last segment, by the lane's pointer, and in it while a tick is due, by the buffer
the lane sends. -/
theorem OnTime.active_bufIdx {l : Lane} {b : Buf} {i n : Nat} (h : OnTime s) (hl : LaneInSegment s l (Cat.active b) i n)
    (hi : i < l.nseg) (hd : i + 1 = l.nseg → tickDue s) : b = s.bufIdx := by
  by_cases hlast : i + 1 = l.nseg
  · obtain ⟨g, hg, hk, hsel⟩ := hl.sends_buffer hlast
    exact Buf.sel_injective (hsel.symm.trans ((h.due (hd hlast)).2 l g hg hk))
  · have hzero := (hl.ptr_zero hi).not.mpr hlast
    obtain ⟨d, ⟨c, x⟩, -, -, -, hp, -, hcat⟩ := hl
    exact h.ptr l _ b hp (hcat fun hx => hzero ⟨c, hp.trans (by rw [show x = 0#2 from hx])⟩)

/-! ### The on-time invariant under every effect -/

/-- Where no tick is due, the invariant asks for the flags, the sequencer and the pointers alone. -/
theorem OnTime.of_quiet (hf : FlagsFollowRun s) (hs : Sequencing s) (hq : ¬ tickDue s)
    (hp : ∀ l p b, s.rdptr.get l = some p → p.cat = Cat.active b → b = s.bufIdx) : OnTime s :=
  ⟨hf, hs, fun h => hq (.inl h.1), hp, fun h => absurd h hq⟩

/-- A stopped block with no lane armed is on time. -/
theorem OnTime.of_idle (hf : FlagsFollowRun s) (hr : s.run = false) (hc : s.cur = .const none) (hp : s.rdptr = .const none) :
    OnTime s := by
  refine .of_quiet hf (.of_idle hr hc hp) ?_ fun l p b hl => ?_
  · rintro (hd | hd)
    · rw [hf.irqPend hr] at hd; cases hd
    · rw [hf.polling hr] at hd; cases hd
  · rw [hp, LaneMap.get_const] at hl
    cases hl

/-- Lanes that all point at one place meet the invariant's clause on pointers if its ring is no `ACTIVE` one but that of buffer `b'`. -/
theorem ptr_const_active {c : Cat} {x : BitVec 2} {b' : Buf} (hc : ∀ b, c = Cat.active b → b = b') (l : Lane) (p : Ptr) (b : Buf)
    (hp : (LaneMap.const (some (⟨c, x⟩ : Ptr))).get l = some p) (hb : p.cat = Cat.active b) : b = b' := by
  rw [LaneMap.get_const] at hp
  cases hp
  exact hc b hb

/-- The ring a body points the lanes at is no `ACTIVE` one, or that of the buffer `BUFIDX` names after the body (R186, R187, R189, R190). -/
theorem Body.active_bufIdx {c : Cat} {b : Buf} (h : Body s c u) (hc : c = Cat.active b) : b = u.bufIdx := by
  cases h with
  | vsync _ => cases b <;> cases hc
  | blank _ => cases b <;> cases hc
  | encode y _ _ => rw [encodeLine_frame]; exact (Cat.active_injective hc).symm
  | toggle _ _ => exact (Cat.active_injective hc).symm

/-- A tick is due in the window of its line only. -/
theorem OnTime.window_of_due {pos : Nat} (h : OnTime s) (hv : s.cfg.valid = true) (hl : LanesAt s pos) (hd : tickDue s) :
    s.cfg.hFront + s.cfg.hSync + s.cfg.hBack ≤ pos := by
  obtain ⟨⟨q, hq, -, hlq⟩, -⟩ := h.due hd
  obtain rfl := hl.unique hv hlq
  exact hq

/-- A slot that is not late keeps the invariant: a tick that was due stays inside its line, and one raised by this slot finds the lanes
at the start of the window (R254). -/
theorem OnTime.slot {m : Lane → Move} (h : OnTime s) (hv : s.cfg.valid = true) (he : slotEnabled s = true)
    (hm : ∀ l, laneMove s l = .ok (m l)) (hdeadline : tickDue s → ¬ LanesAt s (s.cfg.hTotal - 1)) : OnTime (slotResult m s) := by
  have hr : s.run = true := (slotEnabled_iff.mp he).1
  obtain ⟨pos, hpos, hl⟩ := h.seq.lanes hr
  obtain ⟨m', hm', -, hnext, hirq, hline⟩ := seqSlot_line hv he (h.seq.desc hr) (h.seq.filled hr) hl hpos
  obtain rfl : m' = m := funext fun l => Except.ok.inj ((hm' l).symm.trans (hm l))
  have pending : (slotResult m' s).irqPend = true ↔
      s.irqPend = true ∨ pos + 1 = s.cfg.hFront + s.cfg.hSync + s.cfg.hBack := by
    rw [hirq, Bool.or_eq_true, decide_eq_true_eq]
  have raised : tickDue (slotResult m' s) → tickDue s ∨ pos + 1 = s.cfg.hFront + s.cfg.hSync + s.cfg.hBack := fun hd =>
    hd.elim (fun hp => (pending.mp hp).imp_left .inl) (fun hq => .inl (.inr hq))
  have after : tickDue (slotResult m' s) → s.cfg.hFront + s.cfg.hSync + s.cfg.hBack ≤ pos + 1 ∧ pos + 1 < s.cfg.hTotal := fun hd => by
    obtain ⟨-, -, -, ⟨hact, -⟩, -⟩ := Cfg.valid_hor hv
    rcases raised hd with hd | hd
    · have hwin := h.window_of_due hv hl hd
      have hlast : pos ≠ s.cfg.hTotal - 1 := fun e => hdeadline hd (e ▸ hl)
      omega
    · unfold Cfg.hTotal
      omega
  refine ⟨(Effect.slot m' he hm).flags h.flags, h.seq.slot hv he hm, ?_, fun l p b hp hb => ?_,
    fun hd => ⟨⟨pos + 1, (after hd).1, (after hd).2, by rwa [Nat.mod_eq_of_lt (after hd).2] at hnext⟩, fun l g hg hk => ?_⟩⟩
  · rintro ⟨hp, hq⟩
    rcases pending.mp hp with hp | he
    · exact h.one ⟨hp, hq⟩
    · have := h.window_of_due hv hl (.inr hq)
      omega
  · have hcat := laneMove_cat (hm l)
    rw [slotResult_rdptr] at hp
    rw [hp] at hcat
    obtain ⟨p', hp', hc⟩ := Option.map_eq_some_iff.mp hcat.symm
    exact h.ptr l p' b hp' (hc.trans hb)
  · obtain ⟨k, i, n, hbefore, hat⟩ := hl l
    have hi := (hbefore.bounds hv).1
    obtain ⟨-, hin, -⟩ := hline l k i n hbefore hat
    obtain ⟨i', n', hafter, -⟩ := hin (after hd).2
    obtain ⟨-, b, rfl, hsel⟩ := hafter.buf hg hk (hafter.bounds (s := slotResult m' s) hv).1
    have hb : b = s.bufIdx := h.active_bufIdx hbefore hi fun hlast => by
      have hwin := (last_iff hv hbefore).mp hlast
      rw [segStart_eq hv hi] at hat
      exact (raised hd).resolve_right (by omega)
    rw [hsel, hb]
    rfl

/-- Every effect of an agent's own step keeps the invariant, if a slot is not late: `START`, `STOP` and a body leave no tick due, taking a
notification leaves the one that was. -/
theorem Effect.onTime {i : Instr} (he : Effect s i t) (hi : isAgentStep i = true) (hv : s.cfg.valid = true)
    (hdeadline : i = .seqSlot → tickDue s → ¬ LanesAt s (s.cfg.hTotal - 1)) (h : OnTime s) : OnTime t := by
  have hf : FlagsFollowRun t := he.flags h.flags
  have hs : Sequencing t := he.sequencing hi hv h.flags h.seq
  cases he with
  | stutter => exact h
  | answer => exact ⟨hf, hs, h.one, h.ptr, h.due⟩
  | start _ _ hb =>
    rw [startBlock_of hv] at hb
    cases hb
    refine .of_quiet hf hs (by rintro (hd | hd) <;> cases hd) ?_
    exact ptr_const_active fun b hb => by cases b <;> cases hb
  | stop => exact .of_idle hf rfl rfl rfl
  | load l d hn _ => exact absurd hi (by simp [hn])
  | chain => cases hi
  | encode => cases hi
  | build => cases hi
  | slot m hen hm => exact h.slot hv hen hm (hdeadline rfl)
  | enter hen =>
    simp only [tickEnterEnabled, Bool.and_eq_true] at hen
    obtain ⟨⟨⟨-, -⟩, hpend⟩, -⟩ := hen
    obtain ⟨⟨pos, hwin, hpos, hl⟩, hsel⟩ := h.due (.inl hpend)
    rw [enterTick_eq] at hf hs ⊢
    exact ⟨hf, hs, fun ho => Bool.noConfusion ho.1, h.ptr, fun _ => ⟨⟨pos, hwin, hpos, hl⟩, hsel⟩⟩
  | @body c u hen hb =>
    simp only [tickBodyEnabled, Bool.and_eq_true] at hen
    refine .of_quiet hf hs ?_ ?_
    · rintro (hd | hd)
      · rw [leaveTick_irqPend, pointAll_irqPend, hb.frame] at hd
        exact h.one ⟨hd, hen.1⟩
      · rw [leaveTick_polling] at hd
        cases hd
    · rw [leaveTick_rdptr, leaveTick_bufIdx]
      exact ptr_const_active fun b hc => hb.active_bufIdx hc

/-- The reset input leaves an idle block; no other action from outside reaches what the invariant names. -/
theorem Outside.onTime {a : EnvAction} (he : Outside s a t) (h : OnTime s) : OnTime t := by
  cases he with
  | reset => exact .of_idle ⟨rfl, rfl, fun _ => rfl, fun _ => rfl⟩ rfl rfl rfl
  | ignored => exact h
  | _ => exact h.outside _ _ _ _ _ _

/-! ### A run that meets its deadlines -/

/-- A tick that is due can be moved on: its body is in the window, or its notification can be taken (R181, R183). -/
theorem OnTime.tick_enabled (h : OnTime s) (hv : s.cfg.valid = true) (hd : tickDue s) :
    tickBodyEnabled s = true ∨ tickEnterEnabled s = true := by
  cases hpoll : s.polling with
  | true =>
    obtain ⟨⟨pos, hwin, -, hl⟩, -⟩ := h.due hd
    exact .inl (by simp [tickBodyEnabled, hpoll, (windowOpen_lanes hv hl).mpr hwin])
  | false =>
    have hpend : s.irqPend = true := hd.resolve_right (by simp [hpoll])
    have hrun : s.run = true := by
      by_contra hr
      simp [h.flags.irqPend (by simpa using hr)] at hpend
    exact .inr (by simp [tickEnterEnabled, hrun, h.flags.irqEn, hpend, hpoll])

/-- The on-time choice is a slot only where no part of a tick is enabled (log 4). -/
theorem onTimeAction_seqSlot (h : onTimeAction s = .run .seqSlot u) : tickBodyEnabled s = false ∧ tickEnterEnabled s = false := by
  unfold onTimeAction at h
  split_ifs at h with hbody henter
  · cases h
  · cases h
  all_goals exact ⟨by simpa using hbody, by simpa using henter⟩

/-- With nothing scheduled a tick that is due comes before a slot (log 4). -/
theorem OnTime.not_lateSlot (h : OnTime s) (hs : s.sched = []) : ¬ LateSlot s := by
  rintro ⟨hd, -, u, hu⟩
  unfold nextAction at hu
  split_ifs at hu with hv
  rw [hs] at hu
  obtain ⟨hbody, henter⟩ := onTimeAction_seqSlot hu
  rcases h.tick_enabled hv hd with hen | hen
  · exact absurd (hen.symm.trans hbody) (by decide)
  · exact absurd (hen.symm.trans henter) (by decide)

/-- Settles O58: the head of the schedule is used up, then the effect of an agent's step or of an action from outside keeps the invariant. -/
theorem onTimeRunStaysOnTime : Obligations.OnTimeRunStaysOnTime := by
  intro s h
  refine ⟨h.not_lateSlot, fun t ha hlate hst => ?_⟩
  have pop : OnTime { s with sched := s.sched.tail } := h.outside _ _ _ _ _ _
  obtain ⟨hv, ⟨i, hi, hn, he⟩ | ⟨a, -, he⟩ | rfl⟩ := step_next hst
  · exact (exec_effect he).onTime (hi ha) hv (fun hslot hd hl => hlate ⟨hd, hl, _, hslot ▸ hn⟩) pop
  · exact (envStep_outside he).onTime pop
  · exact pop

/-- Settles O59: only the encoding shape of the body is left, and the invariant's due tick names the buffer every lane sends. -/
theorem onTimeEncodeNeverMeetsTheBufferBeingSent : Obligations.OnTimeEncodeNeverMeetsTheBufferBeingSent := by
  intro s t h hen henc hst
  have hdue : tickDue s := by
    simp only [tickBodyEnabled, Bool.and_eq_true] at hen
    exact .inr hen.1
  have hsend : ∀ l g, s.cur.get l = some g → g.kind = .buf → g.sel ≠ s.bufIdx.other.sel := fun l g hg hk he =>
    Buf.other_ne s.bufIdx (Buf.sel_injective (he.symm.trans ((h.due hdue).2 l g hg hk)))
  obtain ⟨hdis, -⟩ | ⟨-, c, u, hb, rfl⟩ := execTickBody_next hst
  · exact absurd (hen.symm.trans hdis) (by decide)
  obtain ⟨hband, heven⟩ := henc
  have hring : c = Cat.active s.bufIdx ∧ u.bufIdx = s.bufIdx := by
    cases hb with
    | vsync hv => rw [hv] at hband; cases hband
    | blank hv => rw [hv] at hband; cases hband
    | encode y _ _ => rw [encodeLine_frame]; exact ⟨rfl, rfl⟩
    | toggle _ hodd => rw [heven] at hodd; cases hodd
  obtain ⟨rfl, hbuf⟩ := hring
  refine ⟨hsend, fun l p hp hc => ?_, ?_, ?_⟩
  · rw [leaveTick_rdptr] at hp
    exact Buf.other_ne s.bufIdx (ptr_const_active (fun b hb => (Cat.active_injective hb).symm) l p _ hp hc)
  · rw [leaveTick_cur, pointAll_cur, hb.frame]
  · rw [leaveTick_bufIdx, pointAll_bufIdx, hbuf]

/-! ### Torn reads -/

/-- An `ENCODE_LINE` with operands in range completes (R136, R139). -/
theorem execEncodeLine_of {y : Nat} (b : Buf) (hy : y < s.cfg.srcLines) : exec (.encodeLine y b.num) s = .next (encodeLine y b s) := by
  simp only [exec, execEncodeLine, bufOfNat_num, if_pos hy]

/-- Settles O22, one clause per law of `encodeLine`. -/
theorem encodeLineTornReads : Obligations.EncodeLineTornReads := fun s y b hy =>
  ⟨encodeLine y b s, execEncodeLine_of b hy, fun l j hj => encodeLine_writes y b s l j hj,
    fun l j hj => encodeLine_keeps y b s l b j (.inr hj), fun l j => encodeLine_keeps y b s l b.other j (.inl b.other_ne),
    encodeLine_mem_last y b s, encodeLine_frame y b s⟩

/-! ### The host on the framebuffer and on the register block -/

/-- A host write that does not reach the register block stores its bytes (R60, R61). -/
theorem busWrite_mem {x : Addr} {bs : List Byte} (h : touchesRegs s.cfg x bs.length = false) :
    busWrite x bs s = .next { s with mem := Memory.writeBytes s.mem x bs } := by
  simp [busWrite, h]

/-- Settles O12, from reading inside and outside the stored bytes. -/
theorem hostStoreThenReadByte : Obligations.HostStoreThenReadByte := fun s x bs hwf hlen hreg =>
  ⟨_, busWrite_mem hreg, rfl, fun k hk => Memory.read_writeBytes_inside bs s.mem x k hk hlen (Memory.wf_sorted hwf),
    Memory.read_writeBytes_outside bs s.mem x⟩

/-- Another width or a misaligned address is no access the register block takes (R63). -/
theorem regAccessOk_eq_false {c : Cfg} {x : Addr} {n : Nat} (h : n ≠ 4 ∨ x.toNat % 4 ≠ 0) : regAccessOk c x n = false := by
  rcases h with h | h <;> simp [regAccessOk, h]

/-- Settles O9: the access reaches the block at its first byte, and the block does not take it. -/
theorem badRegisterAccessRefused : Obligations.BadRegisterAccessRefused := by
  intro s off bs hoff hbs hbad
  have htouch : touchesRegs s.cfg (s.cfg.regBase + BitVec.ofNat 32 off) bs.length = true :=
    touchesRegs_of_offset (List.length_pos_iff.mpr hbs) (by rwa [regOffset_base s.cfg off (by omega)])
  have hok := regAccessOk_eq_false (c := s.cfg) hbad
  simp [envStep, busWrite, busRead, htouch, hok]

/-! ### Byte order -/

/-- Settles O13: the word is its four bytes joined, and each half two of them. -/
theorem memReadIsLittleEndian : Obligations.MemReadIsLittleEndian := by
  intro m x
  have h0 := (Memory.read m x).isLt
  have h1 := (Memory.read m (x + 1#32)).isLt
  have h2 := (Memory.read m (x + 2#32)).isLt
  have h3 := (Memory.read m (x + 3#32)).isLt
  have hword : (Memory.read32 m x).toNat = (Memory.read m x).toNat + 2 ^ 8 * (Memory.read m (x + 1#32)).toNat +
      2 ^ 16 * (Memory.read m (x + 2#32)).toNat + 2 ^ 24 * (Memory.read m (x + 3#32)).toNat := by
    simp only [Memory.read32, toNat_append]
    omega
  refine ⟨hword, ?_, ?_⟩ <;> rw [BitVec.extractLsb'_toNat, Nat.shiftRight_eq_div_pow, hword] <;> omega

end Sys2Proof.Machine
end

section
/-! The family of the encodings: decoder and encoder are each other's inverse (O1 to O4), and what the reserved encodings and the misuse of
`REQ` do (O5, O11, O29). A `DESC` word is the sum of its fields (`encodeDesc_toNat`), and `decodeDesc_fields` says what the decoder reads. -/

namespace Sys2Proof

/-! ### The descriptor word -/

theorem getLsbD_toNat (w : Word) (i : Nat) : (w.getLsbD i).toNat = w.toNat / 2 ^ i % 2 := by
  rw [getLsbD_eq_div]
  rcases Nat.mod_two_eq_zero_or_one (w.toNat / 2 ^ i) with h | h <;> simp [h]

theorem kindBit_toNat (k : SegKind) : (kindBit k).toNat = (decide (k = .buf)).toNat := by cases k <;> rfl

/-- What the decoder reads from a word it accepts: each field from its bits, and zero from bits [31:23] (R92). -/
theorem decodeDesc_fields {w : Word} {d : Descriptor} (h : decodeDesc w = .ok d) :
    d.count = bitField w 0 16 ∧ d.sel = bitField w 16 3 ∧ w.getLsbD 19 = decide (d.kind = .buf) ∧ d.ring = bitField w 20 2 ∧
      d.irq = w.getLsbD 22 ∧ bitField w 23 9 = 0#9 := by
  unfold decodeDesc at h
  split_ifs at h with htop hpat hsel
  · cases h; exact ⟨rfl, rfl, hpat, rfl, rfl, not_not.mp htop⟩
  · cases h; exact ⟨rfl, rfl, (Bool.not_eq_false _).mp hpat, rfl, rfl, not_not.mp htop⟩

/-- A word that decodes is the word of the descriptor it decodes to: the fields and the zero bits [31:23] make up all of it (R92). -/
theorem encodeDesc_of_decodeDesc {w : Word} {d : Descriptor} (h : decodeDesc w = .ok d) : encodeDesc d = w := by
  obtain ⟨hcount, hsel, hkind, hring, hirq, htop⟩ := decodeDesc_fields h
  have hzero := congrArg BitVec.toNat htop
  have hw := w.isLt
  apply BitVec.eq_of_toNat_eq
  rw [encodeDesc_toNat, kindBit_toNat, ← hkind, hcount, hsel, hring, hirq]
  simp only [bitField_toNat, getLsbD_toNat, BitVec.toNat_ofNat] at hzero ⊢
  omega

/-- Settles O3: the fields the decoder reads, as numbers. -/
theorem descriptorFieldsStandAtTheirBits : Obligations.DescriptorFieldsStandAtTheirBits := by
  intro w d h
  obtain ⟨hcount, hsel, hkind, hring, hirq, htop⟩ := decodeDesc_fields h
  have hw := w.isLt
  have hzero := congrArg BitVec.toNat htop
  rw [getLsbD_eq_div, decide_eq_decide] at hkind
  rw [bitField_toNat, BitVec.toNat_ofNat] at hzero
  rw [hcount, hsel, hring, hirq, bitField_toNat, bitField_toNat, bitField_toNat, getLsbD_eq_div, decide_eq_true_iff]
  exact ⟨by omega, rfl, hkind.symm, rfl, Iff.rfl, by omega⟩

/-! ### Decoder and encoder -/

theorem decode_desc_encodeDesc (l : Lane) {d : Descriptor} (h : d.kind = .buf → d.sel.toNat < 2) :
    decode (.desc l (encodeDesc d)) = .ok (d.toInstr l) := by
  rw [decode, decodeDesc_encodeDesc d h]
  rfl

@[simp] theorem decodeCat_encodeCat (c : Cat) : decodeCat (encodeCat c) = c := by cases c <;> rfl

@[simp] theorem encodeCat_decodeCat (w : BitVec 2) : encodeCat (decodeCat w) = w := by
  revert w
  decide

/-- A line-buffer segment's descriptor stands for the segment of the same buffer (R92, R98). -/
@[simp] theorem toInstr_segBuf (l : Lane) (b : Buf) (count : BitVec 16) (ring : BitVec 2) (irq : Bool) :
    Descriptor.toInstr l ⟨.buf, b.sel, count, ring, irq⟩ = .segBuf l b count ring irq := by
  simp [Descriptor.toInstr, bufOfBit_sel]

/-- A descriptor's operation is encoded as the descriptor's word, if a line-buffer segment names a buffer 0 or 1. -/
theorem encode_toInstr (l : Lane) {d : Descriptor} (h : d.kind = .buf → d.sel.toNat < 2) :
    encode (d.toInstr l) = some (.desc l (encodeDesc d)) := by
  obtain ⟨kind, sel, count, ring, irq⟩ := d
  cases kind with
  | pat => rfl
  | buf => simp [Descriptor.toInstr, encode, sel_bufOfBit sel (h rfl)]

/-- A `CMD` word that decodes is the word of its command (R91). -/
theorem encode_of_decodeCmd {w : Word} {i : Instr} (h : decodeCmd w = .ok i) : encode i = some (.cmd w) := by
  unfold decodeCmd at h
  split_ifs at h with h1 h2
  · cases h; rw [h1]; rfl
  · cases h; rw [h2]; rfl

/-- Settles O1, one case per operation that has an encoding. -/
theorem encodedOperationsDecodeBack : Obligations.EncodedOperationsDecodeBack := by
  intro c i e _ he
  cases i with
  | start | stop => cases he; rfl
  | segPat l sel count ring irq =>
    cases he
    exact decode_desc_encodeDesc l (d := ⟨.pat, sel, count, ring, irq⟩) fun hk => by cases hk
  | segBuf l b count ring irq =>
    cases he
    rw [decode_desc_encodeDesc l fun _ => b.sel_toNat.trans_lt b.num_lt, toInstr_segBuf]
  | chain k => cases he; rw [decode, decodeCat_encodeCat]
  | ctrlsym k => cases he; rfl
  | datasym j => cases he; rfl
  | _ => cases he

/-- Settles O2, one case per format. -/
theorem decodedWordsEncodeBack : Obligations.DecodedWordsEncodeBack := by
  intro e i h
  cases e with
  | cmd w => exact encode_of_decodeCmd h
  | desc l w =>
    obtain ⟨d, hd, rfl⟩ := Machine.decode_desc_ok h
    rw [encode_toInstr l (decodeDesc_sel hd), encodeDesc_of_decodeDesc hd]
  | cat c => cases h; rw [encode, encodeCat_decodeCat]
  | kind k => cases h; rfl
  | idx j => cases h; rfl

/-- Settles O4: each of the eight words is decoded by evaluation. -/
theorem sampleWordsDecode : Obligations.SampleWordsDecode := by
  unfold Obligations.SampleWordsDecode
  decide

/-! ### Reserved descriptors -/

/-- The ways a decoded descriptor is reserved (R99 (b)). -/
theorem reserved_iff {c : Cfg} {l : Lane} {d : Descriptor} : d.reserved c l = true ↔
    d.count.toNat = 0 ∨ d.ring.toNat ≠ l.ring.toNat ∨ (d.kind ≠ .buf ∧ 5 ≤ d.sel.toNat) ∨
      (d.kind = .buf ∧ (2 ≤ d.sel.toNat ∨ c.hActive < d.count.toNat)) := by
  cases hk : d.kind <;> simp [Descriptor.reserved, hk, BitVec.toNat_eq, or_assoc, Nat.succ_le_iff]

namespace Machine

variable {s : State}

/-- The second half of a fetch faults on a reserved descriptor (R157). -/
theorem loadDescriptor_reserved {l : Lane} {d : Descriptor} (h : d.reserved s.cfg l = true) :
    loadDescriptor l d s = .error .badDescriptor := by
  rw [loadDescriptor, if_pos h]

/-- A fetch faults on a word that decodes to no descriptor or to a reserved one (R157). -/
theorem fetchLane_reserved {l : Lane} {p : Ptr} {w : Word} (hp : s.rdptr.get l = some p) (hw : readDesc s l p = some w)
    (h : ∀ d, decodeDesc w = .ok d → d.reserved s.cfg l = true) : fetchLane l s = .error .badDescriptor := by
  cases hd : decodeDesc w with
  | error e => simp [fetchLane, fetchDescriptor, hp, hw, hd]
  | ok d => rw [fetchLane, fetchDescriptor_of hp hw hd]; exact loadDescriptor_reserved (h d hd)

/-- A segment operation that is not well-formed is its descriptor's fault: the fetch's check is the operation's (R99 (b)). -/
theorem loadDescriptor_of_not_wellFormed {l : Lane} {d : Descriptor} (hsel : d.kind = .buf → d.sel.toNat < 2)
    (h : (d.toInstr l).wellFormed s.cfg = false) : outcomeOf (loadDescriptor l d s) = .fault .badDescriptor := by
  rw [toInstr_wellFormed s.cfg l (decodeDesc_encodeDesc d hsel)] at h
  rw [loadDescriptor_reserved (by simpa using h)]
  rfl

/-- Settles O29: a segment operation is the load of its descriptor, which is reserved where the operation is not well-formed. -/
theorem reservedSegmentFaults : Obligations.ReservedSegmentFaults := by
  intro s l sel b count ring irq
  refine ⟨fun h => ?_, fun h => ?_⟩
  · exact loadDescriptor_of_not_wellFormed (d := ⟨.pat, sel, count, ring, irq⟩) (fun hk => by cases hk) h
  · rw [← toInstr_segBuf] at h
    exact loadDescriptor_of_not_wellFormed (fun _ => b.sel_toNat.trans_lt b.num_lt) h

/-! ### The request flag -/

/-- Another value than the two commands is a bad request, whatever `REQ` and `RUN` are (R99 (a); log 18). -/
theorem writeReq_bad {w : Word} (h1 : w ≠ 1#32) (h2 : w ≠ 2#32) : writeReq w s = .refused .badRequest := by
  simp [writeReq, decodeCmd, h1, h2]

/-- A command that is misused is refused as that (R203, R204). -/
theorem writeReq_misused {w : Word} (hw : w = 1#32 ∨ w = 2#32) (h : requestMisused w s = true) :
    writeReq w s = .refused .lifecycleMisuse := by
  rcases hw with rfl | rfl <;> simp [writeReq, decodeCmd, h]

/-- A word is its four bytes joined (R62). -/
theorem append_extractLsb'_bytes (w : Word) :
    w.extractLsb' 24 8 ++ w.extractLsb' 16 8 ++ w.extractLsb' 8 8 ++ w.extractLsb' 0 8 = w := by
  apply BitVec.eq_of_toNat_eq
  have hw := w.isLt
  simp only [toNat_append, BitVec.extractLsb'_toNat, Nat.shiftRight_eq_div_pow]
  omega

/-- A host write of a word to `REQ`, its bytes from the lowest up (R29, R62). -/
theorem busWrite_req_word (w : Word) (hb : s.cfg.regBase.toNat % 4 = 0) :
    busWrite s.cfg.regBase [w.extractLsb' 0 8, w.extractLsb' 8 8, w.extractLsb' 16 8, w.extractLsb' 24 8] s = writeReq w s := by
  rw [busWrite_req _ _ _ _ hb, append_extractLsb'_bytes w]

/-- The reserved kinds have no ControlSymbol (R120, R99 (c)). -/
theorem ctrlSym?_reserved (c : Cfg) {k : BitVec 3} (h : 5 ≤ k.toNat) : ctrlSym? c k = none := by
  rw [ctrlSym?, dif_neg (by omega)]

/-- Settles O5: a request that is no command, a fetch of a reserved word, a reserved kind, and the legality of the built descriptors. -/
theorem reservedEncodingsStop : Obligations.ReservedEncodingsStop := by
  refine ⟨fun s w hb h1 h2 => ?_, fun s l p w hp hw hres => fetchLane_reserved hp hw fun d hd => reserved_iff.mpr ?_,
    fun s k hk => ?_, fun c l k d hv hd => (lineDescs_legal hv hd).1⟩
  · exact (busWrite_req_word w hb).trans (writeReq_bad h1 h2)
  · obtain ⟨hcount, hsel, hbuf, hring, -, htop⟩ := descriptorFieldsStandAtTheirBits w d hd
    have hkind : w.getLsbD 19 = true ↔ d.kind = .buf := by rw [getLsbD_eq_div, decide_eq_true_iff, hbuf]
    rcases hres with h | h | h | ⟨hk, h⟩ | ⟨hk, h⟩ | ⟨hk, h⟩
    · exact .inl (hcount.trans h)
    · exact absurd htop h
    · exact .inr (.inl (hring ▸ h))
    · exact .inr (.inr (.inl ⟨mt hkind.mpr (Bool.eq_false_iff.mp hk), hsel ▸ h⟩))
    · exact .inr (.inr (.inr ⟨hkind.mp hk, .inl (hsel ▸ h)⟩))
    · exact .inr (.inr (.inr ⟨hkind.mp hk, .inr (hcount ▸ h)⟩))
  · simp only [exec, execCtrlsym, ctrlSym?_reserved s.cfg hk]

/-- Settles O11: `START` and `STOP` by their guards, a host write to `REQ` by `writeReq_misused` and `writeReq_bad`. -/
theorem lifecycleMisuseRefused : Obligations.LifecycleMisuseRefused := by
  intro s
  refine ⟨fun hq hr => by simp [exec, execStart, hq, hr], fun hq hr => by simp [exec, execStop, hq, hr],
    fun hb _ => ⟨fun hr => ?_, fun hr => ?_⟩, fun hb b0 b1 b2 b3 => ⟨fun hq => ?_, fun h1 h2 => ?_⟩⟩
  · exact (busWrite_req _ _ _ _ hb).trans (writeReq_misused (.inl (by decide)) (by simp [requestMisused, hr]))
  · exact (busWrite_req _ _ _ _ hb).trans (writeReq_misused (.inr (by decide)) (by simp [requestMisused, hr]))
  · by_cases hcmd : (b3 ++ b2 ++ b1 ++ b0 : Word) = 1#32 ∨ (b3 ++ b2 ++ b1 ++ b0 : Word) = 2#32
    · exact .inl ((busWrite_req b0 b1 b2 b3 hb).trans (writeReq_misused hcmd (by simp [requestMisused, hq])))
    · obtain ⟨h1, h2⟩ := not_or.mp hcmd
      exact .inr ((busWrite_req b0 b1 b2 b3 hb).trans (writeReq_bad h1 h2))
  · exact (busWrite_req b0 b1 b2 b3 hb).trans (writeReq_bad h1 h2)

end Machine

end Sys2Proof
end

section
/-! The family of the symbol tables: the two table operations (O15, O16), the inverse of `DATA_SYM` and the round trip from a lane's field
to its symbol and back (O20). `laneField_toNat` and `fieldIndex_toNat` say the extraction and the shift as arithmetic. -/

namespace Sys2Proof

/-- A ControlSymbol's word has its bits [31:20] zero (R10, R120). -/
theorem Cfg.valid_ctrlSym {c : Cfg} (h : c.valid = true) (k : Nat) (hk : k < 5) : c.ctrlSym[k].toNat < 2 ^ 20 := by
  obtain ⟨-, -, -, -, htables⟩ := Cfg.valid_parts h
  simp only [Cfg.tablesOk, Bool.and_eq_true, List.all_eq_true, decide_eq_true_eq] at htables
  exact htables.1 _ (Vector.mem_toList_iff.mpr (Vector.getElem_mem hk))

namespace Machine

variable {c : Cfg}

/-! ### The two table operations -/

/-- The kinds 0..4 have their table's word (R120). -/
theorem ctrlSym?_of_lt (c : Cfg) {k : BitVec 3} (h : k.toNat < 5) : ctrlSym? c k = some c.ctrlSym[k.toNat] :=
  dif_pos h

/-- Settles O15: a kind is in the table or reserved. -/
theorem ctrlsymAnswersItsWord : Obligations.CtrlsymAnswersItsWord := by
  refine fun s k => ⟨fun hk => ⟨?_, fun hv => Nat.div_eq_of_lt (Cfg.valid_ctrlSym hv _ hk)⟩, fun hk => ?_⟩
  · simp only [exec, execCtrlsym, ctrlSym?_of_lt s.cfg hk, answer]
  · simp only [exec, execCtrlsym, ctrlSym?_reserved s.cfg hk]

/-- Settles O16: the operation answers the lookup, with no condition. -/
theorem datasymAnswersItsSymbol : Obligations.DatasymAnswersItsSymbol := fun _ _ => rfl

/-! ### The inverse of `DATA_SYM` -/

/-- An index the inverse finds is one whose symbol it was given. -/
theorem dataSymOf_of_dataSymInv {s : Sym} {i : BitVec 6} (h : dataSymInv c s = some i) : dataSymOf c i = s :=
  beq_iff_eq.mp (List.find?_some (p := fun i => dataSymOf c i == s) h)

/-- The inverse finds an index for every symbol of the table. -/
theorem dataSymInv_isSome (c : Cfg) (i : BitVec 6) : (dataSymInv c (dataSymOf c i)).isSome := by
  have hmem : i ∈ (List.range 64).map (BitVec.ofNat 6) :=
    List.mem_map.mpr ⟨i.toNat, List.mem_range.mpr i.isLt, by rw [BitVec.ofNat_toNat, BitVec.setWidth_eq]⟩
  exact List.find?_isSome.mpr ⟨i, hmem, beq_self_eq_true _⟩

/-- The inverse gives every index back, as no two have one symbol (R123). -/
theorem dataSymInv_dataSymOf (h : c.valid = true) (i : BitVec 6) : dataSymInv c (dataSymOf c i) = some i := by
  obtain ⟨j, hj⟩ := Option.isSome_iff_exists.mp (dataSymInv_isSome c i)
  rw [hj, Cfg.valid_dataSym h (dataSymOf_of_dataSymInv hj)]

/-! ### The lane's field and its index -/

/-- The field is the pixel's bits from `FIELD_LSB` up, `FIELD_WIDTH` of them (R131). -/
theorem laneField_toNat (h : c.valid = true) (l : Lane) (px : Pixel) :
    (laneField c l px).toNat = px.toNat / 2 ^ c.fieldLsb.get l % 2 ^ c.fieldWidth.get l := by
  obtain ⟨-, hw, -⟩ := Cfg.valid_field h l
  have hmask : 2 ^ c.fieldWidth.get l ≤ 2 ^ 6 := Nat.pow_le_pow_right (by decide) hw
  rw [laneField, BitVec.toNat_and, BitVec.toNat_ushiftRight, BitVec.toNat_ofNat, Nat.mod_eq_of_lt (by omega),
    Nat.and_two_pow_sub_one_eq_mod, Nat.shiftRight_eq_div_pow]

theorem laneField_lt (h : c.valid = true) (l : Lane) (px : Pixel) : (laneField c l px).toNat < 2 ^ c.fieldWidth.get l := by
  rw [laneField_toNat h]
  exact Nat.mod_lt _ (Nat.two_pow_pos _)

/-- A field of `FIELD_WIDTH` bits, shifted to the top of the six bits of its index, loses none of them (R132). -/
theorem fieldIndex_toNat (h : c.valid = true) {l : Lane} {f : BitVec 16} (hf : f.toNat < 2 ^ c.fieldWidth.get l) :
    (fieldIndex c l f).toNat = f.toNat * 2 ^ (6 - c.fieldWidth.get l) := by
  obtain ⟨-, hw, -⟩ := Cfg.valid_field h l
  have hfits : f.toNat * 2 ^ (6 - c.fieldWidth.get l) < 2 ^ 6 := calc
    _ < 2 ^ c.fieldWidth.get l * 2 ^ (6 - c.fieldWidth.get l) := Nat.mul_lt_mul_of_pos_right hf (Nat.two_pow_pos _)
    _ = 2 ^ 6 := by rw [← Nat.pow_add, Nat.add_sub_of_le hw]
  rw [fieldIndex, BitVec.toNat_ofNat, Nat.mod_eq_of_lt hf, Nat.shiftLeft_eq, Nat.mod_eq_of_lt hfits]

/-- Settles O20: the inverse undoes the table (R123), and the division the shift to six bits (R133). -/
theorem laneFieldRoundTrip : Obligations.LaneFieldRoundTrip := by
  refine fun c hv => ⟨dataSymInv_dataSymOf hv, fun l px => ⟨_, dataSymInv_dataSymOf hv _, ?_⟩⟩
  rw [fieldIndex_toNat hv (laneField_lt hv l px), Nat.mul_div_cancel _ (Nat.two_pow_pos _)]

end Machine

end Sys2Proof
end

section
/-! The family of the line encoder: what the pure operations answer (O17, O18, O19), and what an `ENCODE_LINE` with no host store inside
leaves in the buffer (O21, O25), in `XFORM` (O23), and at an index out of range (O24). -/

namespace Sys2Proof.Machine

variable {s : State}

/-! ### The pure operations -/

/-- Settles O17: the operation answers `laneField`, whose value is `laneField_toNat`. -/
theorem laneExtractAnswersTheField : Obligations.LaneExtractAnswersTheField := fun s l px hv =>
  ⟨laneField s.cfg l px, rfl, laneField_toNat hv l px⟩

/-- Settles O18: the operation answers `fieldIndex`, whose value is `fieldIndex_toNat`. -/
theorem index6AnswersTheShiftedField : Obligations.Index6AnswersTheShiftedField := fun s l f hv hf =>
  ⟨fieldIndex s.cfg l f, rfl, fieldIndex_toNat hv hf⟩

/-- The first symbol lies below the second, so that the word is their sum (R134). -/
theorem packSyms_toNat (s0 s1 : Sym) : (packSyms s0 s1).toNat = s0.toNat + 2 ^ 10 * s1.toNat := by
  have h0 : s0.toNat < 2 ^ 10 := s0.isLt
  have h1 : s1.toNat < 2 ^ 10 := s1.isLt
  rw [packSyms, BitVec.toNat_or, BitVec.toNat_shiftLeft, BitVec.toNat_setWidth, BitVec.toNat_setWidth, Nat.shiftLeft_eq,
    Nat.mod_eq_of_lt (by omega), Nat.mod_eq_of_lt (by omega), Nat.mod_eq_of_lt (by omega), Nat.mul_comm, Nat.or_comm,
    ← Nat.two_pow_add_eq_or_of_lt h0, Nat.add_comm]

/-- Settles O19: the operation answers `packSyms`, whose value is `packSyms_toNat`. -/
theorem pack2PutsTheFirstSymbolLow : Obligations.Pack2PutsTheFirstSymbolLow := fun _ s0 s1 =>
  ⟨packSyms s0 s1, rfl, packSyms_toNat s0 s1⟩

/-! ### The words of the line -/

/-- With no host store inside, every word of the line comes from the memory at the start (R136, R137). -/
theorem encodeLine_writes_noStores (y : Nat) (b : Buf) (hn : noStores (planOf s)) (l : Lane) {j : Nat} (hj : j < s.cfg.hActive) :
    readLineWord (encodeLine y b s) l b j = some (lineWord s.cfg s.mem y l j) := by
  obtain ⟨m, hm, hw⟩ := encodeLine_writes y b s l j hj
  rw [imagesOf_noStores _ _ _ hn, List.mem_singleton] at hm
  rw [hw, hm]

/-- Settles O21, one clause per law of `encodeLine`; `lineWord` is the statement's word by definition. -/
theorem encodeLineFillsTheBuffer : Obligations.EncodeLineFillsTheBuffer := by
  intro s y b hy hn
  have hframe := encodeLine_frame y b s
  rw [encodeLine_mem_noStores y b hn] at hframe
  exact ⟨encodeLine y b s, execEncodeLine_of b hy, fun l j hj => encodeLine_writes_noStores y b hn l hj,
    fun l j hj => encodeLine_keeps y b s l b j (.inr hj), fun l j => encodeLine_keeps y b s l b.other j (.inl b.other_ne), hframe⟩

/-- Settles O25: both pixels of every word the line is filled from are the one colour (R62). -/
theorem solidColourLine : Obligations.SolidColourLine := by
  intro s y b px hy hn hpx
  obtain ⟨t, ht, hw, -⟩ := encodeLineFillsTheBuffer s y b hy hn
  have hlow : (px ++ px).extractLsb' 0 16 = px := BitVec.extractLsb'_append_eq_right
  have hhigh : (px ++ px).extractLsb' 16 16 = px := BitVec.extractLsb'_append_eq_left
  exact ⟨t, ht, fun l j hj => by simpa only [hpx j hj, hlow, hhigh] using hw l j hj⟩

/-! ### The shared unit -/

/-- A store of the host changes the memory at most (R137). -/
theorem foreignAct_store_frame (x : Addr) (bs : List Byte) (s : State) :
    foreignAct (.store x bs) s = { s with mem := (foreignAct (.store x bs) s).mem } := by
  simp only [foreignAct]
  split <;> rfl

/-- Where no act writes `XFORM`, a read among the acts answers the value it has at the start, and so does the last of several (R138). -/
theorem runActs_result_xformRead (y : Nat) (b : Buf) : ∀ (acts : List EncAct) (done : List (Lane × Nat)) (s : State),
    (∀ v, EncAct.xformWrite v ∉ acts) → EncAct.xformRead ∈ acts ∨ s.result = .xform s.xform →
    (runActs y b acts done s).result = .xform s.xform
  | [], _, _, _, hr => hr.resolve_left List.not_mem_nil
  | a :: rest, done, s, hw, hr => by
    have hw' : ∀ v, EncAct.xformWrite v ∉ rest := fun v hv => hw v (List.mem_cons_of_mem _ hv)
    cases a with
    | pair l j =>
      have hr' : EncAct.xformRead ∈ rest ∨ s.result = .xform s.xform := by simpa using hr
      rw [runActs_pair]
      split_ifs
      · exact runActs_result_xformRead y b rest done s hw' hr'
      · exact runActs_result_xformRead y b rest _ (encodePair y b l j s) hw' hr'
    | store x bs =>
      have hr' : EncAct.xformRead ∈ rest ∨ s.result = .xform s.xform := by simpa using hr
      rw [runActs_foreign y b (fun _ _ h => by cases h), foreignAct_store_frame]
      exact runActs_result_xformRead y b rest done _ hw' hr'
    | xformRead => exact runActs_result_xformRead y b rest done (foreignAct .xformRead s) hw' (.inr rfl)
    | xformWrite v => exact absurd List.mem_cons_self (hw v)

/-- A read of `XFORM` inside an `ENCODE_LINE` in which none is written answers `ENC_XFORM` (R138; log 19). -/
theorem encodeLine_result_xformRead (y : Nat) (b : Buf) (hr : EncAct.xformRead ∈ planOf s)
    (hw : ∀ v, EncAct.xformWrite v ∉ planOf s) : (encodeLine y b s).result = .xform (xformValue s.cfg s.cfg.encXform) := by
  have hacts : ∀ v, EncAct.xformWrite v ∉ encodeActs s := fun v hv => by
    rcases List.mem_append.mp hv with hv | hv
    · exact hw v hv
    · obtain ⟨l, j, hpair⟩ := allPairs_are_pairs hv
      cases hpair
  exact runActs_result_xformRead y b (encodeActs s) [] (beginEncode s) hacts (.inl (List.mem_append_left _ hr))

/-- Settles O23: the restore by the frame of `encodeLine`, the read by `encodeLine_result_xformRead`. -/
theorem encodeLineRestoresXform : Obligations.EncodeLineRestoresXform := fun s y b hy =>
  ⟨encodeLine y b s, execEncodeLine_of b hy, by rw [encodeLine_frame], by rw [encodeLine_frame],
    encodeLine_result_xformRead y b⟩

/-! ### Operands out of range -/

/-- There are two line buffers (R130). -/
theorem bufOfNat_of_two_le {b : Nat} (h : 2 ≤ b) : bufOfNat b = none := by
  match b, h with
  | _ + 2, _ => rfl

/-- Settles O24: `b` names no buffer, or the guard on `y` fails. -/
theorem encodeIndexOutOfRangeRefused : Obligations.EncodeIndexOutOfRangeRefused := by
  intro s y b h
  simp only [exec, execEncodeLine]
  rcases h with hy | hb
  · cases bufOfNat b with
    | none => rfl
    | some k => exact if_neg hy.not_gt
  · rw [bufOfNat_of_two_le hb]

end Sys2Proof.Machine
end

section
/-! The family of the sequencer: the built rings (O26, O27), loading a segment (O28), re-pointing the lanes (O33), the steps that are not
enabled (O36), one slot (O32), the slots of one segment (O30, O31), and the slots of one line (O57). -/

namespace Sys2Proof.Machine

variable {s t : State} {l : Lane} {k : Cat}

/-! ### The built rings -/

/-- The lengths of a lane's segments, read off its ring, are the same in every category (R154). -/
theorem counts_lineDescs {c : Cfg} (hv : c.valid = true) :
    (lineDescs c l k).map (fun d => d.count.toNat) = (List.range l.nseg).map (segLen c l) :=
  List.ext_getElem (by simp [lineDescs_length]) fun i hi _ => by
    rw [List.length_map] at hi
    simpa using (count_lineDescs hv (List.getElem?_eq_getElem hi)).2

/-- Settles O26: the guard is `RUN`, and each index of a built ring is read by `readDesc_built`. -/
theorem buildChainsWritesTheRings : Obligations.BuildChainsWritesTheRings := by
  intro s
  refine ⟨fun hr => if_pos hr, fun hr => ⟨buildChains s, if_neg (by simp [hr]), rfl, ?_⟩⟩
  simp only [readDesc_built (s := buildChains s) rfl]
  refine ⟨rfl, rfl, rfl, rfl, fun l hl => ?_⟩
  cases l with
  | lane0 => exact absurd rfl hl
  | lane1 => exact ⟨by rintro k (rfl | rfl) <;> rfl, rfl, rfl⟩
  | lane2 => exact ⟨by rintro k (rfl | rfl) <;> rfl, rfl, rfl⟩

/-- Settles O27, from the lengths of a lane's segments. -/
theorem ringsLastOneLine : Obligations.RingsLastOneLine := by
  intro c l k hv
  rw [List.map_take, counts_lineDescs hv]
  refine ⟨lineDescs_length c l k, ?_⟩
  cases l <;> simp [Lane.nseg, List.range_succ, segLen, Cfg.hTotal, Nat.add_assoc]

/-! ### Loading a segment -/

/-- A descriptor that is not reserved carries its lane's `RING` (R93). -/
theorem ring_of_not_reserved {c : Cfg} {d : Descriptor} (h : d.reserved c l = false) : d.ring = l.ring := by
  by_contra hne
  have : d.reserved c l = true := reserved_iff.mpr (.inr (.inl fun e => hne (BitVec.eq_of_toNat_eq e)))
  rw [h] at this
  cases this

/-- With its lane's `RING`, the index a fetch leaves is one further modulo `2^RING` (R157): two bits hold it. -/
theorem advance_idx_toNat (p : Ptr) {r : BitVec 2} (hr : r = l.ring) :
    (p.advance r).idx.toNat = (p.idx.toNat + 1) % 2 ^ r.toNat := by
  subst hr
  simp only [Ptr.advance, BitVec.toNat_ofNat, Lane.ring_pow]
  cases l <;> simp only [Lane.nseg] <;> omega

/-- A descriptor that is not reserved loads into its lane. -/
theorem loadDescriptor_segmentLoaded {d : Descriptor} (h : d.reserved s.cfg l = false) :
    ∃ t, outcomeOf (loadDescriptor l d s) = .next t ∧ SegmentLoaded s l d t := by
  refine ⟨_, by rw [loadDescriptor_of h]; rfl, LaneMap.get_set_same _ _ _, fun c i hp => ?_, fun hp => ?_,
    fun l' hl' => ⟨LaneMap.get_set_ne _ _ _ _ hl', LaneMap.get_set_ne _ _ _ _ hl'⟩, rfl⟩
  · exact ⟨_, by rw [LaneMap.get_set_same, hp]; rfl, advance_idx_toNat ⟨c, i⟩ (ring_of_not_reserved h)⟩
  · rw [LaneMap.get_set_same, hp]; rfl

/-- A well-formed segment operation's descriptor is not reserved (R99 (b)). -/
theorem not_reserved_of_wellFormed {c : Cfg} {d : Descriptor} (hsel : d.kind = .buf → d.sel.toNat < 2)
    (h : (d.toInstr l).wellFormed c = true) : d.reserved c l = false := by
  rw [toInstr_wellFormed c l (decodeDesc_encodeDesc d hsel)] at h
  simpa using h

/-- Settles O28: a segment operation is the load of its descriptor, which is not reserved where the operation is well-formed. -/
theorem segmentLoadsIntoItsLane : Obligations.SegmentLoadsIntoItsLane := by
  intro s l sel b count ring irq
  refine ⟨fun h => ?_, fun h => ?_⟩
  · exact loadDescriptor_segmentLoaded (not_reserved_of_wellFormed (d := ⟨.pat, sel, count, ring, irq⟩) (fun hk => by cases hk) h)
  · rw [← toInstr_segBuf] at h
    exact loadDescriptor_segmentLoaded (not_reserved_of_wellFormed (fun _ => b.sel_toNat.trans_lt b.num_lt) h)

/-! ### Re-pointing the lanes -/

theorem execChain_of (c : Cat) (h : windowOpen s = true) : exec (.chain c) s = .next (pointAll c s) := if_pos h

/-- Some lane outside the window keeps it closed (R163). -/
theorem windowOpen_eq_false (h : ∃ l, ∀ k, s.rdptr.get l ≠ some ⟨k, 0#2⟩) : windowOpen s = false := by
  obtain ⟨l, hl⟩ := h
  rw [Bool.eq_false_iff]
  intro hw
  obtain ⟨k, hk⟩ := windowOpen_iff.mp hw l
  exact hl k hk

/-- The window is still open after a chain write (R162). -/
theorem windowOpen_pointAll (c : Cat) (s : State) : windowOpen (pointAll c s) = true :=
  windowOpen_iff.mpr fun _ => ⟨c, LaneMap.get_const _ _⟩

/-- A chain write of the category every lane is pointed at changes nothing. -/
theorem pointAll_eq_self {c : Cat} (h : ∀ l, s.rdptr.get l = some ⟨c, 0#2⟩) : pointAll c s = s := by
  have : s.rdptr = .const (some ⟨c, 0#2⟩) := LaneMap.ext_get fun l => by rw [h l, LaneMap.get_const]
  rw [pointAll, ← this]

/-- Settles O33: in the window `CHAIN` is `pointAll`, which leaves the window open. -/
theorem chainRepointsInTheWindow : Obligations.ChainRepointsInTheWindow := by
  intro s c
  refine ⟨fun hw => ?_, fun hw => if_neg (by simp [windowOpen_eq_false hw])⟩
  replace hw := windowOpen_iff.mpr hw
  refine ⟨pointAll c s, execChain_of c hw, fun l => LaneMap.get_const _ _, rfl, fun c' => ?_, pointAll_eq_self⟩
  rw [execChain_of c' hw, execChain_of c' (windowOpen_pointAll c s)]
  rfl

/-! ### Steps that are not enabled -/

/-- A slot needs `RUN`, `OUT_EN` and a segment on every lane (R160). -/
theorem slotEnabled_eq_false (h : s.run = false ∨ s.outEn = false ∨ ∃ l, s.cur.get l = none) : slotEnabled s = false := by
  rw [Bool.eq_false_iff]
  intro he
  obtain ⟨hr, ho, ha⟩ := slotEnabled_iff.mp he
  rcases h with h | h | ⟨l, h⟩
  · simp [hr] at h
  · simp [ho] at h
  · simpa [h] using ha l

/-- Settles O36: each step's guard is false. -/
theorem stepsNotEnabledAreNotTaken : Obligations.StepsNotEnabledAreNotTaken := by
  intro s
  refine ⟨fun h => if_neg (by simp [slotEnabled_eq_false h]), fun h => if_neg ?_, fun h => if_neg ?_, fun h => if_neg h,
    fun h => if_neg h, fun hq hr h => ?_⟩
  · rcases h with h | h | h | h <;> simp [tickEnterEnabled, h]
  · rcases h with h | h
    · simp [tickBodyEnabled, h]
    · simp [tickBodyEnabled, windowOpen_eq_false h]
  · have hbusy : stopAllowed s = false := by
      rcases h with h | ⟨hp, he⟩
      · simp [stopAllowed, h]
      · simp [stopAllowed, hp, he]
    simp [exec, execStop, hq, hr, hbusy]

/-! ### One slot, lane by lane -/

/-- A pattern segment's word is its ControlSymbol (R155). -/
theorem slotWord_pat {g : Seg} {w : Word} (hk : g.kind = .pat) : slotWord s l g = .ok w ↔ ctrlSym? s.cfg g.sel = some w := by
  simp only [slotWord, hk]
  cases ctrlSym? s.cfg g.sel <;> simp

/-- A line-buffer segment's word is its buffer's at the segment's offset (R156). -/
theorem slotWord_buf {g : Seg} {b : Buf} {w : Word} (hk : g.kind = .buf) (hs : g.sel = b.sel) :
    slotWord s l g = .ok w ↔ readLineWord s l b g.off = some w := by
  have hb : segBuffer g = some b := by cases b <;> simp [segBuffer, hs, Buf.sel]
  simp only [slotWord, hk, hb]
  cases readLineWord s l b g.off <;> simp

/-- A lane's word depends on the configuration and the line buffers. -/
theorem slotWord_congr (hc : t.cfg = s.cfg) (hb : t.lineBuf = s.lineBuf) (g : Seg) : slotWord t l g = slotWord s l g := by
  simp only [slotWord, readLineWord, hc, hb]

/-- The move of a lane with slots left (R160). -/
theorem laneMove_of_more {g : Seg} {w : Word} (hg : s.cur.get l = some g) (hw : slotWord s l g = .ok w) (hr : 1 < g.rem) :
    laneMove s l = .ok ⟨w, segNext g, s.rdptr.get l, false⟩ := by
  have hn : (segNext g).rem ≠ 0 := Nat.sub_ne_zero_of_lt hr
  simp only [laneMove, hg, hw, if_neg hn]

/-- The move of a lane at its last slot: its segment completes and the next is fetched (R157, R159). -/
theorem laneMove_of_last {g : Seg} {w : Word} {p : Ptr} {d : Descriptor} (hg : s.cur.get l = some g)
    (hw : slotWord s l g = .ok w) (hr : g.rem = 1) (hp : s.rdptr.get l = some p) (hd : fetchDescriptor s l = .ok d)
    (hres : d.reserved s.cfg l = false) : laneMove s l = .ok ⟨w, segOf d, some (p.advance d.ring), g.irq⟩ := by
  have hn : (segNext g).rem = 0 := by simp [segNext, hr]
  simp [laneMove, hg, hw, hn, hp, hd, hres]

/-- A slot leaves a notification pending if one was or a lane's move raises it (R159). -/
theorem slotResult_irqPend (m : Lane → Move) (s : State) :
    (slotResult m s).irqPend = true ↔ s.irqPend = true ∨ ∃ l, (m l).irq = true := by
  simp only [slotResult, Bool.or_eq_true, or_assoc]
  refine or_congr_right ⟨?_, ?_⟩
  · rintro (h | h | h) <;> exact ⟨_, h⟩
  · rintro ⟨l, h⟩
    cases l <;> simp [h]

/-- The words of a slot's moves by lane, as they join the output. -/
theorem slotWords_get (m : Lane → Move) (l : Lane) :
    LaneMap.get ⟨(m .lane0).word, (m .lane1).word, (m .lane2).word⟩ l = (m l).word := by cases l <;> rfl

/-- Settles O32: every lane has a move, one with slots left by `laneMove_of_more`, one at its last slot by `laneMove_of_last`. -/
theorem seqSlotAdvancesEveryLane : Obligations.SeqSlotAdvancesEveryLane := by
  intro s g w p d hrun hout hg hword hlast
  have hsend : ∀ l, slotWord s l (g l) = .ok (w l) := fun l => by
    cases hk : (g l).kind with
    | pat => exact (slotWord_pat hk).mpr ((hword l).1 hk)
    | buf =>
      obtain ⟨b, hsel, hb⟩ := (hword l).2 hk
      exact (slotWord_buf hk hsel).mpr hb
  have hmove : ∀ l, ∃ m, laneMove s l = .ok m ∧ m.word = w l ∧
      (1 < (g l).rem → m.seg = segNext (g l) ∧ m.ptr = s.rdptr.get l) ∧
      ((g l).rem = 1 → m.seg = segOf (d l) ∧ m.ptr = some ((p l).advance (d l).ring)) ∧
      (m.irq = true ↔ (g l).rem = 1 ∧ (g l).irq = true) := fun l => by
    obtain ⟨hcur, hrem⟩ := hg l
    rcases hrem.lt_or_eq with h | h
    · exact ⟨_, laneMove_of_more hcur (hsend l) h, rfl, fun _ => ⟨rfl, rfl⟩, fun h1 => absurd h1 h.ne', by simp [h.ne']⟩
    · obtain ⟨hp, hres, x, hx, hd⟩ := hlast l h.symm
      exact ⟨_, laneMove_of_last hcur (hsend l) h.symm hp (fetchDescriptor_of hp hx hd) hres, rfl, fun h1 => absurd h h1.ne,
        fun _ => ⟨rfl, rfl⟩, by simp [h.symm]⟩
  choose m hm hmw hmore hend hirq using hmove
  have he : slotEnabled s = true := slotEnabled_iff.mpr ⟨hrun, hout, fun l => by rw [(hg l).1]; rfl⟩
  refine ⟨slotResult m s, execSeqSlot_of he hm, ?_, fun l h => ?_, fun l h => ?_, ?_, rfl⟩
  · simp only [slotResult, hmw]
  · obtain ⟨hseg, hptr⟩ := hmore l h
    rw [slotResult_rdptr, slotResult_cur, hseg, hptr]
    exact ⟨rfl, rfl⟩
  · obtain ⟨hseg, hptr⟩ := hend l h
    rw [slotResult_rdptr, slotResult_cur, hseg, hptr]
    exact ⟨rfl, _, rfl, advance_idx_toNat (p l) (ring_of_not_reserved (hlast l h).2.1)⟩
  · simp only [slotResult_irqPend, hirq]

/-! ### The slots of one segment -/

theorem andThen_next {o : Host.Outcome State Fault Refusal} {f : State → Host.Outcome State Fault Refusal}
    (h : andThen o f = .next t) : ∃ u, o = .next u ∧ f u = .next t := by
  cases o with
  | next u => exact ⟨u, rfl, h⟩
  | fault f => cases h
  | refused r => cases h

/-- What a slot that is enabled and completes does on one lane: its word joins the output, and a segment with slots left goes on. -/
theorem seqSlot_lane {g : Seg} (he : slotEnabled s = true) (hg : s.cur.get l = some g) (h : exec .seqSlot s = .next t) :
    slotEnabled t = true ∧ t.cfg = s.cfg ∧ t.lineBuf = s.lineBuf ∧ (1 < g.rem → t.cur.get l = some (segNext g)) ∧
      ∃ w, t.out = s.out ++ [w] ∧ slotWord s l g = .ok (w.get l) := by
  obtain ⟨hdis, -⟩ | ⟨-, m, hm, rfl⟩ := execSeqSlot_next h
  · rw [he] at hdis
    cases hdis
  obtain ⟨g', hg', hw, hcase⟩ := laneMove_ok (hm l)
  obtain rfl : g = g' := Option.some.inj (hg.symm.trans hg')
  refine ⟨slotResult_enabled he, rfl, rfl, fun hr => ?_, _, rfl, by rw [slotWords_get]; exact hw⟩
  obtain ⟨-, hseg, -⟩ | ⟨hz, -⟩ := hcase
  · rw [slotResult_cur, hseg]
  · omega

/-- As many slots as a lane's segment has left send the words of that segment, slot by slot (R160). -/
theorem runSlots_segment (n : Nat) {g : Seg} (he : slotEnabled s = true) (hg : 0 < n → s.cur.get l = some g) (hn : n ≤ g.rem)
    (h : runSlots n s = .next t) :
    ∃ ws, t.out = s.out ++ ws ∧ ws.length = n ∧ ∀ k, ∀ hk : k < ws.length, slotWord s l (segNext^[k] g) = .ok (ws[k].get l) := by
  induction n generalizing s g with
  | zero =>
    cases h
    exact ⟨[], by simp, rfl, fun k hk => absurd hk (Nat.not_lt_zero k)⟩
  | succ n ih =>
    obtain ⟨u, hu, hrun⟩ := andThen_next h
    obtain ⟨heu, hc, hb, hnext, w, hw, hword⟩ := seqSlot_lane he (hg n.succ_pos) hu
    obtain ⟨ws, hout, hlen, hws⟩ := ih heu (fun hpos => hnext (by omega)) (Nat.le_sub_one_of_lt hn) hrun
    refine ⟨w :: ws, by rw [hout, hw, List.append_assoc]; rfl, by rw [List.length_cons, hlen], fun k hk => ?_⟩
    cases k with
    | zero => exact hword
    | succ k =>
      rw [← slotWord_congr hc hb]
      exact hws k (Nat.lt_of_succ_lt_succ hk)

/-- A segment keeps its kind and `SEL` in all its slots. -/
theorem segNext_iterate_kind_sel (k : Nat) (g : Seg) : (segNext^[k] g).kind = g.kind ∧ (segNext^[k] g).sel = g.sel := by
  induction k generalizing g with
  | zero => exact ⟨rfl, rfl⟩
  | succ k ih => exact ih (segNext g)

/-- A line-buffer segment's offset counts its slots (R160). -/
theorem segNext_iterate_off (k : Nat) {g : Seg} (hk : g.kind = .buf) : (segNext^[k] g).off = g.off + k := by
  induction k generalizing g with
  | zero => rfl
  | succ k ih =>
    rw [Function.iterate_succ_apply, ih (g := segNext g) hk]
    simp only [segNext, hk]
    omega

/-- Settles O30: each slot's word is that of a pattern segment with the same `SEL`. -/
theorem patternSegmentSendsItsSymbol : Obligations.PatternSegmentSendsItsSymbol := by
  intro n s t l g he hg hk hn h
  obtain ⟨ws, hout, hlen, hws⟩ := runSlots_segment n he (fun _ => hg) hn h
  refine ⟨ws, hout, hlen, fun w hw => ?_⟩
  obtain ⟨j, hj, rfl⟩ := List.mem_iff_getElem.mp hw
  obtain ⟨hkind, hsel⟩ := segNext_iterate_kind_sel j g
  rw [← hsel]
  exact (slotWord_pat (hkind.trans hk)).mp (hws j hj)

/-- Settles O31: the `k`-th slot's word is that of a line-buffer segment of the same buffer at offset `off + k`. -/
theorem bufferSegmentSendsItsWords : Obligations.BufferSegmentSendsItsWords := by
  intro n s t l g b he hg hk hs hn h
  obtain ⟨ws, hout, hlen, hws⟩ := runSlots_segment n he (fun _ => hg) hn h
  refine ⟨ws, hout, hlen, fun j hj => ?_⟩
  obtain ⟨hkind, hsel⟩ := segNext_iterate_kind_sel j g
  rw [← segNext_iterate_off j hk]
  exact (slotWord_buf (hkind.trans hk) (hsel.trans hs)).mp (hws j hj)

/-! ### The slots of one line -/

theorem runSlots_succ_of {n : Nat} {u : State} (h : runSlots n s = .next u) (hu : exec .seqSlot u = .next t) :
    runSlots (n + 1) s = .next t := by
  induction n generalizing s with
  | zero =>
    cases h
    simp only [runSlots, hu, andThen]
  | succ n ih =>
    obtain ⟨v, hv, hrun⟩ := andThen_next h
    rw [runSlots, hv]
    exact ih hrun

/-- A running block is `pos` slots into a line of category `k` on every lane, and every pointer is in the rings of that category. -/
structure InLine (s : State) (k : Cat) (pos : Nat) : Prop where
  valid : s.cfg.valid = true
  enabled : slotEnabled s = true
  desc : s.desc = builtDesc s.cfg
  filled : ∀ l b j, j < s.cfg.hActive → (readLineWord s l b j).isSome = true
  lanes : ∀ l, ∃ i n, LaneInSegment s l k i n ∧ segStart s.cfg l i + n = pos
  ring : ∀ l, (s.rdptr.get l).map Ptr.cat = some k

/-- One slot of a line that nobody re-points: it sends the line's words, notifies at the end of the back porch, and the line goes on, or
begins again (R159, R160, R161). -/
theorem InLine.slot {pos : Nat} (h : InLine s k pos) (hpos : pos < s.cfg.hTotal) :
    ∃ m : Lane → Move, exec .seqSlot s = .next (slotResult m s) ∧ InLine (slotResult m s) k ((pos + 1) % s.cfg.hTotal) ∧
      (∀ l, wireWord s k l pos = some (m l).word) ∧
      (slotResult m s).irqPend = (s.irqPend || decide (pos + 1 = s.cfg.hFront + s.cfg.hSync + s.cfg.hBack)) := by
  obtain ⟨m, hm, hexec, -, hirq, hline⟩ := seqSlot_line h.valid h.enabled h.desc h.filled (fun l => ⟨k, h.lanes l⟩) hpos
  have hring : ∀ l, ((slotResult m s).rdptr.get l).map Ptr.cat = some k := fun l => by
    rw [slotResult_rdptr, laneMove_cat (hm l), h.ring l]
  refine ⟨m, hexec, ⟨h.valid, slotResult_enabled h.enabled, h.desc, h.filled, fun l => ?_, hring⟩, fun l => ?_, hirq⟩
  · obtain ⟨i, n, hl, hat⟩ := h.lanes l
    obtain ⟨-, hin, hend⟩ := hline l k i n hl hat
    rcases (Nat.succ_le_of_lt hpos).lt_or_eq with hlt | heq
    · rw [Nat.mod_eq_of_lt hlt]
      exact hin hlt
    · obtain ⟨k', hptr, hl'⟩ := hend heq
      obtain rfl : k' = k := by simpa [hptr] using h.ring l
      exact ⟨0, 0, hl', by rw [show pos + 1 = s.cfg.hTotal from heq, Nat.mod_self]; rfl⟩
  · obtain ⟨i, n, hl, hat⟩ := h.lanes l
    exact (hline l k i n hl hat).1

/-- What the first `n` slots of a line of category `k` leave: the lanes `n` slots on, the line's words sent (R169), and the notification
pending from the end of the back porch on (R159). -/
structure LineSent (s : State) (k : Cat) (n : Nat) (t : State) : Prop where
  place : InLine t k (n % s.cfg.hTotal)
  cfg : t.cfg = s.cfg
  lineBuf : t.lineBuf = s.lineBuf
  words : ∃ ws, t.out = s.out ++ ws ∧ ws.length = n ∧ ∀ j, ∀ h : j < ws.length, ∀ l, wireWord s k l j = some (ws[j].get l)
  irqPend : t.irqPend = true ↔ s.irqPend = true ∨ s.cfg.hFront + s.cfg.hSync + s.cfg.hBack ≤ n

/-- A line's word depends on the configuration and the line buffers. -/
theorem wireWord_congr (hc : t.cfg = s.cfg) (hb : t.lineBuf = s.lineBuf) (k : Cat) (l : Lane) (n : Nat) :
    wireWord t k l n = wireWord s k l n := by
  simp only [wireWord, readLineWord, hc, hb]

/-- One more slot of a line. -/
theorem LineSent.slot {n : Nat} (h : LineSent s k n t) (hn : n < s.cfg.hTotal) :
    ∃ u, exec .seqSlot t = .next u ∧ LineSent s k (n + 1) u := by
  obtain ⟨hplace, hc, hb, ⟨ws, hout, hlen, hws⟩, hirq⟩ := h
  rw [Nat.mod_eq_of_lt hn] at hplace
  obtain ⟨m, hexec, hnext, hword, hpend⟩ := hplace.slot (by rwa [hc])
  rw [hc] at hnext hpend
  refine ⟨slotResult m t, hexec, hnext, hc, hb,
    ⟨ws ++ [⟨(m .lane0).word, (m .lane1).word, (m .lane2).word⟩], ?_, ?_, fun j hj l => ?_⟩, ?_⟩
  · simp only [slotResult, hout, List.append_assoc]
  · rw [List.length_append, hlen]; rfl
  · by_cases hjn : j < ws.length
    · rw [List.getElem_append_left hjn]
      exact hws j hjn l
    · have hlast : j < ws.length + 1 := by simpa using hj
      obtain rfl : j = n := by omega
      rw [List.getElem_concat_length hlen.symm, slotWords_get, ← wireWord_congr hc hb]
      exact hword l
  · rw [hpend, Bool.or_eq_true, hirq, decide_eq_true_eq, or_assoc]
    exact or_congr_right (by omega)

/-- The slots of a line, from its first (R161, R169). -/
theorem runSlots_line (h : InLine s k 0) (n : Nat) (hn : n ≤ s.cfg.hTotal) : ∃ t, runSlots n s = .next t ∧ LineSent s k n t := by
  induction n with
  | zero =>
    obtain ⟨⟨hf, -⟩, -⟩ := Cfg.valid_hor h.valid
    refine ⟨s, rfl, by simpa using h, rfl, rfl, ⟨[], by simp, rfl, fun j hj => absurd hj (Nat.not_lt_zero j)⟩, ?_⟩
    exact ⟨.inl, fun hp => hp.resolve_right (by omega)⟩
  | succ n ih =>
    obtain ⟨t, hrun, hsent⟩ := ih (Nat.le_of_succ_le hn)
    obtain ⟨u, hexec, hu⟩ := hsent.slot hn
    exact ⟨u, runSlots_succ_of hrun hexec, hu⟩

/-- At the first slot of a line every pointer names the same line's second segment, so it is in the line's rings. -/
theorem AtLineStart.inLine (h : AtLineStart s k) (hv : s.cfg.valid = true) (hf : FlagsFollowRun s) (hs : Sequencing s)
    (hr : s.run = true) : InLine s k 0 := by
  refine ⟨hv, slotEnabled_of_running hf hr (pos := 0) fun l => ⟨k, 0, 0, h l, rfl⟩, hs.desc hr, hs.filled hr,
    fun l => ⟨0, 0, h l, rfl⟩, fun l => ?_⟩
  obtain ⟨d, p, -, -, -, hp, hidx, hcat⟩ := h l
  rw [hp, Option.map_some, hcat fun hz => ?_]
  rw [hz] at hidx
  cases l <;> exact absurd hidx (by decide)

/-- Every segment after the first begins after the line does. -/
theorem segBegin_pos {c : Cfg} (hv : c.valid = true) {i : Nat} (hi : i ≠ 0) : 0 < segBegin c l i := by
  obtain ⟨⟨hf, -⟩, -⟩ := Cfg.valid_hor hv
  unfold segBegin
  split <;> omega

/-- Zero slots into a line, every lane is at the first slot of its first segment. -/
theorem InLine.atLineStart (h : InLine s k 0) : AtLineStart s k := fun l => by
  obtain ⟨i, n, hl, hat⟩ := h.lanes l
  rw [segStart_eq h.valid (hl.bounds h.valid).1] at hat
  obtain ⟨hbegin, rfl⟩ := Nat.add_eq_zero_iff.mp hat
  obtain rfl : i = 0 := by_contra fun hi => (segBegin_pos h.valid hi).ne' hbegin
  exact hl

/-- Settles O57: the first `H_TOTAL` slots of the line bring the lanes back to its start, and each shorter run is the first slots of it. -/
theorem oneLineOnTheWire : Obligations.OneLineOnTheWire := by
  intro s k hv hf hs hr hstart
  have hline : InLine s k 0 := hstart.inLine hv hf hs hr
  obtain ⟨t, hrun, hsent⟩ := runSlots_line hline s.cfg.hTotal le_rfl
  obtain ⟨ws, hout, hlen, hws⟩ := hsent.words
  refine ⟨t, ws, hrun, hout, hlen, hws, fun n u hn hu => ?_, ?_⟩
  · obtain ⟨u', hu', hsent'⟩ := runSlots_line hline n hn
    rw [hu] at hu'
    cases hu'
    exact hsent'.irqPend
  · have hplace := hsent.place
    rw [Nat.mod_self] at hplace
    exact hplace.atLineStart

end Sys2Proof.Machine
end

section
/-! The family of the scanline state machine: the bands of a frame (O41, O42), the positions of the Active band (O43), taking the
notification (O35), the tick body by band and position (O37 to O40), and the bound of the completion poll (O56). -/

namespace Sys2Proof.Machine

variable {s u : State} {c : Cat}

/-! ### The bands of a frame -/

theorem classifyLine_eq_vsync (c : Cfg) (n : Nat) : classifyLine c n = .vsync ↔ 1 ≤ n ∧ n ≤ c.vSync := by
  unfold classifyLine
  split_ifs with hv ha
  · exact iff_of_true rfl hv
  · exact iff_of_false nofun hv
  · exact iff_of_false nofun hv

/-- The VSync band ends before the Active band begins, so that R184's first case takes no line from the second. -/
theorem classifyLine_eq_active (c : Cfg) (n : Nat) :
    classifyLine c n = .active ↔ c.vSync + c.vBack + 1 ≤ n ∧ n ≤ c.vSync + c.vBack + c.vActive := by
  unfold classifyLine
  split_ifs with hv ha
  · exact iff_of_false nofun (by omega)
  · exact iff_of_true rfl ha
  · exact iff_of_false nofun ha

/-- Settles O41: `CLASSIFY` answers `classifyLine`. -/
theorem classifyAnswersTheBand : Obligations.ClassifyAnswersTheBand := fun s n _ =>
  ⟨classifyLine s.cfg n, rfl, classifyLine_eq_vsync s.cfg n, classifyLine_eq_active s.cfg n⟩

/-- How many numbers below `N` lie from `lo` up to, not including, `hi`. -/
theorem countP_range_interval (N lo hi : Nat) :
    (List.range N).countP (fun n => decide (lo ≤ n ∧ n < hi)) = min N hi - lo := by
  induction N with
  | zero => simp
  | succ N ih =>
    simp only [List.range_succ, List.countP_append, ih, List.countP_singleton, decide_eq_true_eq]
    split_ifs <;> omega

/-- Each of a list of lines is in one of the three bands. -/
theorem countP_bands (c : Cfg) (ns : List Nat) :
    ns.countP (fun n => classifyLine c n == .vsync) + ns.countP (fun n => classifyLine c n == .blanking) +
      ns.countP (fun n => classifyLine c n == .active) = ns.length := by
  induction ns with
  | nil => rfl
  | cons n ns ih =>
    simp only [List.countP_cons, List.length_cons]
    cases classifyLine c n <;> simp <;> omega

/-- Settles O42: two bands are intervals of line numbers, and the third is what they leave of the frame. -/
theorem bandsOfOneFrame : Obligations.BandsOfOneFrame := by
  intro c hv
  obtain ⟨-, hfront, -, -, -⟩ := Cfg.valid_vert hv
  have htotal : c.vTotal = c.vSync + c.vBack + c.vActive + c.vFront := rfl
  have hvsync : (List.range c.vTotal).countP (fun n => classifyLine c n == .vsync) = c.vSync := by
    have hband : (fun n => classifyLine c n == .vsync) = fun n => decide (1 ≤ n ∧ n < c.vSync + 1) := funext fun n => by
      rw [beq_eq_decide, decide_eq_decide, classifyLine_eq_vsync, Nat.lt_succ_iff]
    rw [hband, countP_range_interval]
    omega
  have hactive : (List.range c.vTotal).countP (fun n => classifyLine c n == .active) = c.vActive := by
    have hband : (fun n => classifyLine c n == .active) =
        fun n => decide (c.vSync + c.vBack + 1 ≤ n ∧ n < c.vSync + c.vBack + c.vActive + 1) := funext fun n => by
      rw [beq_eq_decide, decide_eq_decide, classifyLine_eq_active, Nat.lt_succ_iff]
    rw [hband, countP_range_interval]
    omega
  have hall := countP_bands c (List.range c.vTotal)
  rw [List.length_range] at hall
  exact ⟨hvsync, by omega, hactive⟩

/-! ### The positions of the Active band -/

/-- Counting the first `2 m` positions by pairs: the even ones and the odd ones. -/
theorem countP_range_double (q : Nat → Bool) (m : Nat) : (List.range (2 * m)).countP q =
    (List.range m).countP (fun i => q (2 * i)) + (List.range m).countP (fun i => q (2 * i + 1)) := by
  induction m with
  | zero => rfl
  | succ m ih =>
    rw [Nat.mul_succ, List.range_succ, List.range_succ, List.range_succ]
    simp only [List.countP_append, ih, List.countP_singleton]
    omega

/-- Shifting the source lines by one, cyclically, or by none leaves each of them once (R190). -/
theorem countP_range_shift {m y : Nat} (off : Fin 2) (hy : y < m) :
    (List.range m).countP (fun i => (i + off.val) % m == y) = 1 := by
  have hsolve : ∀ i, i < m → ((i + off.val) % m = y ↔ i = if off.val ≤ y then y - off.val else m - 1) := fun i hi => by
    have hoff := off.isLt
    rcases Nat.lt_or_ge (i + off.val) m with hlt | hge
    · rw [Nat.mod_eq_of_lt hlt]
      split_ifs <;> omega
    · obtain ⟨hi', ho⟩ : i = m - 1 ∧ off.val = 1 := by omega
      rw [show i + off.val = m by omega, Nat.mod_self]
      split_ifs <;> omega
  have hmem : (if off.val ≤ y then y - off.val else m - 1) ∈ List.range m := by
    rw [List.mem_range]
    split_ifs <;> omega
  rw [← List.count_eq_one_of_mem List.nodup_range hmem, List.count]
  exact List.countP_congr fun i hi => by simpa only [beq_iff_eq] using hsolve i (List.mem_range.mp hi)

/-- Settles O43: the even positions `2 i` are one for each source line `i`, and the operand of the encode is that line, shifted. -/
theorem oneEncodePerSourceLine : Obligations.OneEncodePerSourceLine := by
  intro c hv
  have heven : ∀ i, 2 * i % 2 = 0 := fun i => Nat.mul_mod_right 2 i
  have hodd : ∀ i, (2 * i + 1) % 2 = 1 := fun i => by omega
  have hhalf : ∀ i, 2 * i / 2 = i := fun i => Nat.mul_div_cancel_left i Nat.two_pos
  obtain ⟨-, hlines⟩ := Cfg.valid_srcLines hv
  rw [← hlines]
  refine ⟨?_, ?_, fun y hy => ?_⟩
  · simp [countP_range_double, heven, hodd]
  · simp [countP_range_double, heven, hodd]
  · rw [countP_range_double]
    simpa [sourceLine, heven, hodd, hhalf] using countP_range_shift c.nextSrcOffset hy

/-! ### Taking the notification -/

/-- Settles O35: the guard of `TICK_ENTER` is met, and the rest is `enterTick`. -/
theorem tickEnterTakesTheNotification : Obligations.TickEnterTakesTheNotification := by
  intro s hr hi hp hpoll
  have hen : tickEnterEnabled s = true := by simp [tickEnterEnabled, hr, hi, hp, hpoll]
  exact ⟨enterTick s, if_pos hen, enterTick_writes s, fun hd => by rw [enterTick_noDiag hd]; exact ⟨rfl, rfl⟩⟩

/-! ### The tick body -/

theorem tickBodyEnabled_of (hpoll : s.polling = true) (hw : ∀ l, ∃ k, s.rdptr.get l = some ⟨k, 0#2⟩) : tickBodyEnabled s = true := by
  rw [tickBodyEnabled, hpoll, windowOpen_iff.mpr hw, Bool.and_self]

/-- The end of the body points every lane at the category it chains (R162, R191). -/
theorem leaveTick_pointAll_ptr (c : Cat) (u : State) (l : Lane) : (leaveTick (pointAll c u)).rdptr.get l = some ⟨c, 0#2⟩ := by
  rw [leaveTick_rdptr, pointAll_rdptr, LaneMap.get_const]

/-- The end of the body writes no line buffer. -/
theorem readLineWord_leaveTick_pointAll (c : Cat) (u : State) (l : Lane) (b : Buf) (j : Nat) :
    readLineWord (leaveTick (pointAll c u)) l b j = readLineWord u l b j := by
  rw [leaveTick_eq]
  rfl

theorem Body.tick_line (h : Body s c u) : (leaveTick (pointAll c u)).line = BitVec.ofNat 16 (nextLine s) := by
  rw [leaveTick_line, pointAll_line, h.frame]

theorem Body.tick_frame (h : Body s c u) : (leaveTick (pointAll c u)).frame = nextFrame s := by
  rw [leaveTick_frame, pointAll_frame, h.frame]

/-- Without `DIAG_EN` a tick body draws no free value (R28). -/
theorem Body.tick_noDiag (h : Body s c u) (hd : s.cfg.diagEn = false) :
    (leaveTick (pointAll c u)).diagExit = s.diagExit ∧ (leaveTick (pointAll c u)).freeCount = s.freeCount := by
  rw [leaveTick_noDiag (by rw [pointAll_cfg, h.frame]; exact hd), h.frame]
  exact ⟨rfl, rfl⟩

/-- Where the advance does not wrap, `FRAME` stays (R185). -/
theorem advanceLine_of_ne_zero (h : nextLine s ≠ 0) : advanceLine s = { s with line := BitVec.ofNat 16 (nextLine s) } := by
  have hframe : nextFrame s = s.frame := if_neg fun hwrap => h (if_pos hwrap)
  rw [advanceLine, hframe]

/-- Outside the Active band the body is the advance, with the category of its band to chain (R186, R187). -/
theorem tickBody_outside (he : tickBodyEnabled s = true) (hb : classifyLine s.cfg (nextLine s) ≠ .active) :
    ∃ c, Body s c (advanceLine s) ∧ exec .tickBody s = .next (leaveTick (pointAll c (advanceLine s))) ∧
      (classifyLine s.cfg (nextLine s) = .vsync → c = .vsync) ∧ (classifyLine s.cfg (nextLine s) = .blanking → c = .blank) := by
  cases hband : classifyLine s.cfg (nextLine s) with
  | vsync => exact ⟨.vsync, .vsync hband, tickBody_vsync he hband, fun _ => rfl, nofun⟩
  | blanking => exact ⟨.blank, .blank hband, tickBody_blank he hband, nofun, fun _ => rfl⟩
  | active => exact absurd hband hb

/-- Settles O37, from the body of a line outside the Active band. -/
theorem tickBodyOutsideTheActiveBand : Obligations.TickBodyOutsideTheActiveBand := by
  intro s n hn hpoll hw hband
  obtain rfl : n = nextLine s := hn
  obtain ⟨c, hbody, hexec, hvsync, hblank⟩ := tickBody_outside (tickBodyEnabled_of hpoll hw) hband
  refine ⟨_, hexec, hbody.tick_line, hbody.tick_frame, fun hb l => ?_, fun hb l => ?_, hbody.tick_noDiag, ?_⟩
  · rw [leaveTick_pointAll_ptr, hvsync hb]
  · rw [leaveTick_pointAll_ptr, hblank hb]
  · rw [leaveTick_eq]
    rfl

theorem activePos_of_add {c : Cfg} {p n : Nat} (h : p + (c.vSync + c.vBack + 1) = n) : activePos c n = p := by
  rw [activePos, ← h, Nat.add_sub_cancel]

/-- Settles O38: the body encodes source line `sourceLine s.cfg p` into the other buffer, and each clause is a law of `encodeLine`. -/
theorem tickBodyEncodesAtEvenPositions : Obligations.TickBodyEncodesAtEvenPositions := by
  intro s n p hv hn hp hpoll hw hband hpar
  obtain rfl : n = nextLine s := hn
  obtain rfl : activePos s.cfg (nextLine s) = p := activePos_of_add hp
  have hadv := advanceLine_of_ne_zero (s := s) (by omega)
  have hexec := tickBody_even (tickBodyEnabled_of hpoll hw) hband hpar (sourceLine_lt hv _)
  have hbody := Body.encode (sourceLine s.cfg (activePos s.cfg (nextLine s))) hband hpar
  have hread := readLineWord_leaveTick_pointAll (Cat.active s.bufIdx)
    (encodeLine (sourceLine s.cfg (activePos s.cfg (nextLine s))) s.bufIdx.other (advanceLine s))
  refine ⟨_, hexec, hbody.tick_line, leaveTick_pointAll_ptr _ _, fun l j hj => ?_, fun l j hj => ?_, fun l j => ?_, ?_,
    fun hno => ⟨?_, fun l j hj => ?_⟩, hbody.tick_noDiag, ?_⟩
  · rw [hread]
    exact encodeLine_writes _ _ (advanceLine s) l j hj
  · rw [hread]
    exact encodeLine_keeps _ _ (advanceLine s) l _ j (.inr hj)
  · rw [hread]
    exact encodeLine_keeps _ _ (advanceLine s) l _ j (.inl (Buf.other_ne _).symm)
  · rw [leaveTick_mem]
    exact encodeLine_mem_last _ _ (advanceLine s)
  · rw [leaveTick_mem]
    exact encodeLine_mem_noStores _ _ (s := advanceLine s) hno
  · rw [hread]
    exact encodeLine_writes_noStores _ _ (s := advanceLine s) hno l hj
  · rw [hadv, leaveTick_eq, encodeLine_frame]
    rfl

/-- Settles O39: the body toggles the buffer of the advanced state, and `FRAME` stays because an Active line is no wrap. -/
theorem tickBodyTogglesAtOddPositions : Obligations.TickBodyTogglesAtOddPositions := by
  intro s n p hn hp hpoll hw hband hpar
  obtain rfl : n = nextLine s := hn
  obtain rfl : activePos s.cfg (nextLine s) = p := activePos_of_add hp
  have hadv := advanceLine_of_ne_zero (s := s) (by omega)
  have hbody := Body.toggle hband hpar
  refine ⟨_, tickBody_odd (tickBodyEnabled_of hpoll hw) hband hpar, hbody.tick_line, leaveTick_bufIdx _,
    leaveTick_pointAll_ptr _ _, hbody.tick_noDiag, ?_⟩
  rw [hadv, leaveTick_eq]
  rfl

/-! ### The counters -/

/-- Under a valid configuration an enabled tick body completes, in one of its four shapes: the source line it encodes exists (R139, R190). -/
theorem tickBody_completes (hv : s.cfg.valid = true) (he : tickBodyEnabled s = true) :
    ∃ c u, Body s c u ∧ exec .tickBody s = .next (leaveTick (pointAll c u)) := by
  by_cases hband : classifyLine s.cfg (nextLine s) = .active
  · rcases Nat.mod_two_eq_zero_or_one (activePos s.cfg (nextLine s)) with heven | hodd
    · exact ⟨_, _, .encode _ hband heven, tickBody_even he hband heven (sourceLine_lt hv _)⟩
    · exact ⟨_, _, .toggle hband hodd, tickBody_odd he hband hodd⟩
  · obtain ⟨c, hbody, hexec, -⟩ := tickBody_outside he hband
    exact ⟨c, _, hbody, hexec⟩

theorem nextLine_eq_mod (h : s.line.toNat < s.cfg.vTotal) : nextLine s = (s.line.toNat + 1) % s.cfg.vTotal := by
  unfold nextLine
  split_ifs with hwrap
  · rw [hwrap, Nat.mod_self]
  · rw [Nat.mod_eq_of_lt (by omega)]

/-- The frame counter is counted up with the line that is 0 (R185). -/
theorem nextFrame_toNat (s : State) : (nextFrame s).toNat = (s.frame.toNat + if nextLine s = 0 then 1 else 0) % 2 ^ 32 := by
  by_cases hwrap : s.line.toNat + 1 = s.cfg.vTotal
  · have hzero : nextLine s = 0 := if_pos hwrap
    rw [if_pos hzero, nextFrame, if_pos hwrap]
    exact BitVec.toNat_add s.frame 1#32
  · have hpos : nextLine s ≠ 0 := by rw [nextLine, if_neg hwrap]; exact Nat.succ_ne_zero _
    rw [if_neg hpos, nextFrame, if_neg hwrap]
    exact (Nat.mod_eq_of_lt s.frame.isLt).symm

/-- Settles O40: every shape of the body holds the advance, whose counters are numbers below `V_TOTAL` and `2^32`. -/
theorem everyTickAdvancesTheCounters : Obligations.EveryTickAdvancesTheCounters := by
  intro s hv hline hpoll hw
  obtain ⟨c, u, hbody, hexec⟩ := tickBody_completes hv (tickBodyEnabled_of hpoll hw)
  obtain ⟨-, -, -, -, hmax⟩ := Cfg.valid_vert hv
  have hnext : (leaveTick (pointAll c u)).line.toNat = nextLine s := by
    have hlt : nextLine s < s.cfg.vTotal := nextLine_eq_mod hline ▸ Nat.mod_lt _ (vTotal_pos hv)
    rw [hbody.tick_line, BitVec.toNat_ofNat, Nat.mod_eq_of_lt (by omega)]
  refine ⟨_, hexec, ?_, ?_, leaveTick_polling _⟩
  · rw [hnext, nextLine_eq_mod hline]
  · rw [hnext, hbody.tick_frame, nextFrame_toNat]

/-! ### The completion poll -/

/-- Slots short of the end of the line lead the lanes as many places on. -/
theorem runSlots_lanes (n : Nat) {pos : Nat} (hv : s.cfg.valid = true) (he : slotEnabled s = true) (hs : Sequencing s)
    (hl : LanesAt s pos) (hn : pos + n < s.cfg.hTotal) :
    ∃ t, runSlots n s = .next t ∧ t.cfg = s.cfg ∧ LanesAt t (pos + n) := by
  induction n generalizing s pos with
  | zero => exact ⟨s, rfl, rfl, hl⟩
  | succ n ih =>
    obtain ⟨hr, -, -⟩ := slotEnabled_iff.mp he
    obtain ⟨m, hm, hexec, hnext, -⟩ := seqSlot_line hv he (hs.desc hr) (hs.filled hr) hl (by omega)
    rw [Nat.mod_eq_of_lt (by omega)] at hnext
    obtain ⟨t, hrun, hcfg, ht⟩ := ih (s := slotResult m s) hv (slotResult_enabled he) (hs.slot hv he hm) hnext
      (by rw [show (slotResult m s).cfg = s.cfg from rfl]; omega)
    refine ⟨t, ?_, hcfg, ?_⟩
    · rw [runSlots, hexec]
      exact hrun
    · rwa [show pos + (n + 1) = pos + 1 + n by omega]

/-- Settles O56: the lanes are in one place of their line, and the window is open from the end of the back porch on. -/
theorem windowOpensWithinOneLine : Obligations.WindowOpensWithinOneLine := by
  intro s hv hf hs hr
  obtain ⟨pos, hpos, hl⟩ := hs.lanes hr
  have htotal : s.cfg.hTotal = s.cfg.hFront + s.cfg.hSync + s.cfg.hBack + s.cfg.hActive := rfl
  obtain ⟨-, -, -, ⟨hactive, -⟩, -⟩ := Cfg.valid_hor hv
  obtain ⟨t, hrun, hcfg, ht⟩ := runSlots_lanes (s.cfg.hFront + s.cfg.hSync + s.cfg.hBack - pos) hv
    (slotEnabled_of_running hf hr hl) hs hl (by omega)
  refine ⟨_, t, by omega, hrun, (windowOpen_lanes (hcfg ▸ hv) ht).mpr ?_⟩
  rw [hcfg]
  omega

end Sys2Proof.Machine
end

section
/-! The family of the life cycle: the legal write to the request flag (O10), beside the refusals of O11. -/

namespace Sys2Proof.Machine

variable {s : State}

/-- A command that is no misuse stands in `REQ`, and nothing else changes (R203). -/
theorem writeReq_taken {w : Word} (hw : w = 1#32 ∨ w = 2#32) (h : requestMisused w s = false) :
    writeReq w s = .next { s with req := w.setWidth 2 } := by
  rcases hw with rfl | rfl <;> simp [writeReq, decodeCmd, h]

/-- Settles O10: a start in a stopped block and a stop in a running one are commands and no misuse while `REQ` is 0. -/
theorem legalRequestIsTaken : Obligations.LegalRequestIsTaken := by
  intro s hb hq
  refine ⟨fun hr => ?_, fun hr => ?_⟩
  · exact (busWrite_req _ _ _ _ hb).trans (writeReq_taken (.inl (by decide)) (by simp [requestMisused, hq, hr]))
  · exact (busWrite_req _ _ _ _ hb).trans (writeReq_taken (.inr (by decide)) (by simp [requestMisused, hq, hr]))

end Sys2Proof.Machine
end
